-- ==== Sys2Proof/Word.lean ====
section
/-! DEFINITION. The widths of HXC's values, one name each (spec/00_scope.md R8, R10). Every quantity is
unsigned and bit 0 is the least significant bit. -/

namespace Sys2Proof

/-- Host port data, D_W = 32 bits; also a command word, PAD, INFO and one word of CBIT or NODE (R8, R80). -/
abbrev Word := BitVec 32

/-- One byte of PAY or KEY (R46, R47). -/
abbrev Byte := BitVec 8

/-- A Symbol, SYM_W = 8 bits (R8, R130). -/
abbrev Symbol := BitVec 8

/-- A host port address, A_W = 18 bits: it names a location, not a byte (R8, R83). -/
abbrev Addr := BitVec 18

/-- One frequency table entry, FREQ_W = 16 bits (R8, R48). -/
abbrev Count := BitVec 16

/-- The frequency of a tree node, NFREQ_W = 24 bits (R8, R51). -/
abbrev NodeFreq := BitVec 24

/-- A node handle, H_W = 9 bits (R8, R51). -/
abbrev Handle := BitVec 9

/-- A code: its digits, first digit first, true for the digit 1 (R11). -/
abbrev Code := List Bool

end Sys2Proof
end

