-- ==== Sys2Proof/Syntax.lean ====
section
/-! DEFINITION. What can be written to and said about HXC: its eight commands, the names of its
registers and port locations, the host's accesses, and the record of a tree node. -/

namespace Sys2Proof

/-- The command set, one constructor per row of spec/opcode_table.json (spec/30_encoding.md R121).
A command word carries no operand of any kind (R120, R123), so no constructor has an argument. -/
inductive Instr where
  | nop    -- R170
  | clr    -- R171
  | cnt    -- R190
  | build  -- R200
  | gen    -- R230
  | pack   -- R250
  | unpack -- R270
  | xor    -- R290
deriving DecidableEq, Repr

/-- The twelve registers of space REG, by name (spec/10_state.md R25). -/
inductive Reg where
  | id | cmd | status | ctrl | cause | info | tlen | plen | pad | klen | root | nnode
deriving DecidableEq, Repr

/-- A location: what one mapped port address names (spec/20_memory.md R83, R84). NODE and CBIT
elements take two and eight locations, chosen by a word number (spec/30_encoding.md R131, R135). -/
inductive Location where
  | reg  (r : Reg)
  | freq (s : Symbol)
  | clen (s : Symbol)
  | key  (i : BitVec 8)
  | node (h : Handle) (k : BitVec 1)
  | cbit (s : Symbol) (k : BitVec 3)
  | text (i : BitVec 16)
  | pay  (i : BitVec 16)
deriving DecidableEq, Repr

/-- One host access, the events HostRead(A) and HostWrite(A, v) (spec/20_memory.md R80). -/
inductive Access where
  | read  (a : Addr)
  | write (a : Addr) (v : Word)
deriving DecidableEq, Repr

/-- One step of one agent, or a level driven on the reset pin (spec/00_scope.md R7). -/
inductive Turn where
  /-- The engine takes its enabled step, if it has one (spec/40_common.md R162). -/
  | engine
  /-- The host presents one access (spec/20_memory.md R81). -/
  | host (a : Access)
  /-- The pin rst_n is driven to a level, true for high (spec/70_reset_and_hazards.md R380). -/
  | rstN (level : Bool)
deriving DecidableEq, Repr

/-- A NODE element (spec/10_state.md R51). -/
structure Node where
  /-- LEAF: true for a leaf, false for an internal node. -/
  leaf  : Bool
  /-- SYM: the leaf's symbol, 0 in an internal node. -/
  sym   : Symbol
  /-- FREQ: the leaf's count, or the sum of the two children's frequencies. -/
  freq  : NodeFreq
  /-- LEFT: handle of the left child, 0 in a leaf. -/
  left  : Handle
  /-- RIGHT: handle of the right child, 0 in a leaf. -/
  right : Handle
deriving DecidableEq, Repr, Inhabited

end Sys2Proof
end

