-- ==== Sys2Proof/Config.lean ====
section
/-! DEFINITION. What is fixed for this hardware (spec/00_scope.md R8) and the free values: constants
with no body, one for each place whose contents the spec leaves unspecified. A free value is asked for
by the number of the event that made the place unspecified (a draw), so that two events give values
that nothing relates, and one event gives the same value at every read until it is overwritten. -/

namespace Sys2Proof.Config

/-- ID: "HXC" in ASCII and command-set major version 1 (spec/10_state.md R30). -/
def idValue : Word := 0x48584301#32

/-- TEXT_MAX, capacity of TEXT in symbols (R8). -/
def textMax : Nat := 65535

/-- PAY_MAX, capacity of PAY in bytes (R8). -/
def payMax : Nat := 65535

/-- KEY_MAX, capacity of KEY in bytes (R8). -/
def keyMax : Nat := 256

/-- NSYM, the alphabet size (R8). -/
def nSym : Nat := 256

/-- NODE_MAX, capacity of the node arena (R8). -/
def nodeMax : Nat := 511

/-- CODE_MAX, the greatest code length in digits (R8). -/
def codeMax : Nat := 255

/-- Words of one CBIT element (spec/10_state.md R50). -/
def cbitWords : Nat := 8

/-- Element `i` of TEXT after draw `d` left TEXT unspecified (R60, R341, V1, V2; log 3, log 4). -/
opaque freeText : (d i : Nat) → Symbol

/-- Element `i` of PAY after draw `d` left PAY unspecified (R60, R341, V1, V2; log 3, log 4). -/
opaque freePay : (d i : Nat) → Byte

/-- Element `i` of KEY after reset number `d` (R60, V1; log 3). -/
opaque freeKey : (d i : Nat) → Byte

/-- Word `i` of CBIT, counted 8 s + k, after reset number `d` (R60, V1; log 3). -/
opaque freeCbit : (d i : Nat) → Word

/-- Element `i` of NODE after reset number `d`: a record of any field values (R60, V1; log 3). -/
opaque freeNode : (d i : Nat) → Node

/-- TLEN after the late fault with draw `d` (R341, V2; log 4). -/
opaque freeTlen : (d : Nat) → BitVec 16

/-- PLEN after the late fault with draw `d` (R341, V2; log 4). -/
opaque freePlen : (d : Nat) → BitVec 16

/-- PAD after the late fault with draw `d` (R341, V2; log 4). -/
opaque freePad : (d : Nat) → Word

/-- The read data beside the error response with draw `d` (spec/20_memory.md R82, V3; log 5). -/
opaque freeReadData : (d : Nat) → Word

end Sys2Proof.Config
end

