-- ==== Sys2Proof/WellFormed.lean ====
section
/-! DEFINITION. When a piece of syntax stands for something HXC has: the command words that are
defined, the locations that exist, and the inputs a driver may load (the ones HXC can represent). -/

namespace Sys2Proof

/-- A command carries no operand, so every command is well formed (spec/30_encoding.md R123). -/
def Instr.wf : Instr → Bool
  | .nop => true
  | .clr => true
  | .cnt => true
  | .build => true
  | .gen => true
  | .pack => true
  | .unpack => true
  | .xor => true

/-- A command word is defined exactly when ZERO, bits 31:8, is 0 and OP, bits 7:0, is one of the eight
values 0 to 7 (spec/30_encoding.md R121). -/
def commandWordDefined (w : Word) : Bool :=
  w.extractLsb' 8 24 == 0#24 && decide (w.extractLsb' 0 8 < 8#8)

/-- A location exists: TEXT and PAY end at element 65534 and NODE at handle 510
(spec/10_state.md R45, R46, R51; the unmapped addresses 0x1FFFF, 0x2FFFF, 0x007FE, 0x007FF of
spec/20_memory.md R84). -/
def Location.wf : Location → Bool
  | .reg _ => true
  | .freq _ => true
  | .clen _ => true
  | .key _ => true
  | .node h _ => decide (h.toNat < Config.nodeMax)
  | .cbit _ _ => true
  | .text i => decide (i.toNat < Config.textMax)
  | .pay i => decide (i.toNat < Config.payMax)

/-- A code has 1 to 255 digits (spec/30_encoding.md R131, R133). -/
def Code.wf (c : Code) : Bool :=
  decide (0 < c.length) && decide (c.length ≤ Config.codeMax)

/-- A text HXC can hold (spec/47_pipeline.md R301, R306). -/
def textFits (t : List Symbol) : Bool := decide (t.length ≤ Config.textMax)

/-- A payload or ciphertext HXC can hold (R301, R306). -/
def payloadFits (b : List Byte) : Bool := decide (b.length ≤ Config.payMax)

/-- A key HXC can hold; the empty key is loadable and leads to EmptyKey (R301, R306). -/
def keyFits (k : List Byte) : Bool := decide (k.length ≤ Config.keyMax)

/-- A code table HXC can hold: a mapping, so no symbol twice, and every code 1 to 255 digits
(R133, R302, R306). Its failure is the driver's error `malformedTable`. -/
def tableFits (c : List (Symbol × Code)) : Bool :=
  decide ((c.map Prod.fst).Nodup) && c.all (fun e => Code.wf e.2)

end Sys2Proof
end

