-- ==== Sys2Proof/Decode.lean ====
section
/-! DEFINITION. The command decoder and encoder (spec/30_encoding.md R120 to R124). One 32-bit word,
format C; the decoder is total: a word is one of the eight commands or an undefined command word. -/

namespace Sys2Proof

/-- Why a word is an undefined command word (spec/30_encoding.md R122). Both are safe: execution then
raises IllegalCommand with the word (spec/40_common.md R165). -/
inductive DecodeError where
  /-- ZERO, bits 31:8, is not 0. -/
  | zeroFieldNotZero
  /-- OP is none of 0x00 to 0x07. -/
  | undefinedOperation
deriving DecidableEq, Repr

/-- Field ZERO of format C, bits 31:8 (R120). -/
def zeroField (w : Word) : BitVec 24 := w.extractLsb' 8 24

/-- Field OP of format C, bits 7:0 (R120). -/
def opField (w : Word) : BitVec 8 := w.extractLsb' 0 8

/-- The opcode map, from OP to command (R121). -/
def decodeOp (op : BitVec 8) : Option Instr :=
  match op.toNat with
  | 0 => some .nop
  | 1 => some .clr
  | 2 => some .cnt
  | 3 => some .build
  | 4 => some .gen
  | 5 => some .pack
  | 6 => some .unpack
  | 7 => some .xor
  | _ => none

/-- The decoder (R121, R122): one 32-bit word, no mode, no variable length (R124). -/
def decode (w : Word) : Except DecodeError Instr :=
  if zeroField w = 0#24 then
    match decodeOp (opField w) with
    | some i => .ok i
    | none => .error .undefinedOperation
  else
    .error .zeroFieldNotZero

/-- The opcode map, from command to OP (R121). -/
def opOf : Instr → BitVec 8
  | .nop => 0x00#8
  | .clr => 0x01#8
  | .cnt => 0x02#8
  | .build => 0x03#8
  | .gen => 0x04#8
  | .pack => 0x05#8
  | .unpack => 0x06#8
  | .xor => 0x07#8

/-- The command word of a command: ZERO = 0 above OP (R120, R121). -/
def encode (i : Instr) : Word := 0#24 ++ opOf i

/-- The instruction the decoder reads from an instruction whose bits are `w`, of which the table gives
`nbits`. A command word is one 32-bit number (R83, R124): no byte order, nothing after the word, so bits
of `w` above bit 31 have no place in it and are refused. -/
def decodeTableWord (nbits w : Nat) : Option Instr :=
  if w % 2 ^ nbits < 2 ^ 32 then (decode (BitVec.ofNat 32 (w % 2 ^ nbits))).toOption else none

end Sys2Proof
end

