-- ==== Sys2Proof/Machine/State.lean ====
section
/-! DEFINITION. Everything the spec gives one HXC instance (spec/10_state.md R20), the model's own three
fields beside it, the state after reset, and the reasons the model can stop. All of it plain data. -/

namespace Sys2Proof.Machine

/-- PHASE (R21). -/
inductive Phase where
  | idle
  | busy
deriving DecidableEq, Repr

/-- What the unlisted elements of an array read as: 0, or values that no rule fixes, left by one event
(a reset or a late fault) whose number is `draw` (spec/10_state.md R60, spec/60_exceptions.md R341). -/
inductive Fill where
  | zero
  | unspecified (draw : Nat)
deriving DecidableEq, Repr

/-- One array of HXC (spec/10_state.md section 4), held sparsely: the listed elements by index, and what
every other element reads as. Canonical form: `Memory.wf` (log 6). For TEXT, PAY and KEY the cells are
pairs of an index and a byte, the form of Host.Cell. -/
structure Memory (α : Type) where
  fill  : Fill
  cells : List (Nat × α)
deriving DecidableEq, Repr

/-- The port's answer to one access: h_err, and h_rdata on a read (spec/20_memory.md R80, R82). -/
inductive Response where
  /-- h_err = 0 on a read: the value of the location. -/
  | value (v : Word)
  /-- h_err = 0 on a write: it was performed. -/
  | written
  /-- h_err = 1 on a read: rejected; the data beside it is unspecified (R82, V3). -/
  | readError (v : Word)
  /-- h_err = 1 on a write: rejected. -/
  | writeError
deriving DecidableEq, Repr

/-- HXC's own faults, the synchronous abnormal ends of a command, with what each records in INFO
(spec/60_exceptions.md R330, R331). Raising one is a NEXT state of the machine. -/
inductive HxcFault where
  /-- 1, raised by XOR (R332). -/
  | emptyKey
  /-- 2, raised by UNPACK: stream position of the unfinished candidate's first digit (R333). -/
  | unknownSymbolInCode (start : Nat)
  /-- 3, raised by UNPACK: the padding count found (R334). -/
  | invalidPadding (pad : Word)
  /-- 5, raised by PACK: index of the symbol without an entry (R336). -/
  | missingCode (i : Nat)
  /-- 6, raised by PACK: index of the symbol whose code did not fit (R337). -/
  | payloadOverflow (i : Nat)
  /-- 7, raised by UNPACK: stream position of the first digit of the symbol that did not fit (R338). -/
  | textOverflow (start : Nat)
  /-- 8, raised by the execute step: the undefined command word (R339). -/
  | illegalCommand (w : Word)
deriving DecidableEq, Repr

/-- The state of one HXC instance and of its port (R20; spec/20_memory.md R80). ID, CMD, STATUS.BUSY and
CTRL.SRST are not storage (R30, R31, R33, R37). -/
structure State where
  /-- Level of the pin rst_n, true for high (spec/70_reset_and_hazards.md R380). -/
  rstN      : Bool
  /-- PHASE (R21). -/
  phase     : Phase
  /-- CMDLATCH (R22). -/
  cmdLatch  : Word
  /-- STATUS.DONE (R34). -/
  done      : Bool
  /-- STATUS.ERR (R35). -/
  err       : Bool
  /-- STATUS.EMPTY (R36). -/
  empty     : Bool
  /-- CTRL.IE_DONE (R37). -/
  ieDone    : Bool
  /-- CTRL.IE_ERR (R37). -/
  ieErr     : Bool
  /-- CAUSE, bits 3:0 (R38). -/
  cause     : BitVec 4
  /-- INFO (R39). -/
  info      : Word
  /-- TLEN (R26). -/
  tlen      : BitVec 16
  /-- PLEN (R27). -/
  plen      : BitVec 16
  /-- PAD (R28). -/
  pad       : Word
  /-- KLEN (R29). -/
  klen      : BitVec 9
  /-- ROOT.VALID, bit 31 of ROOT (R40). -/
  rootValid : Bool
  /-- ROOT.H, bits 8:0 of ROOT (R40). -/
  rootH     : Handle
  /-- NNODE (R41). -/
  nnode     : BitVec 10
  /-- TEXT (R45). -/
  text      : Memory Symbol
  /-- PAY (R46). -/
  pay       : Memory Byte
  /-- KEY (R47). -/
  key       : Memory Byte
  /-- FREQ (R48). -/
  freq      : Memory Count
  /-- CLEN (R49). -/
  clen      : Memory (BitVec 8)
  /-- CBIT: word k of the element of symbol s has index 8 s + k (R50). -/
  cbit      : Memory Word
  /-- NODE (R51). -/
  node      : Memory Node
  /-- h_ack, h_err and h_rdata of the latest access answered, none before any (spec/20_memory.md R80). -/
  resp      : Option Response
  /-- The model's own: the agents' coming turns, oldest first; none left means the engine (log 1). -/
  turns     : List Turn
  /-- The model's own: the number of the next draw of free values (log 3). -/
  draws     : Nat
deriving DecidableEq, Repr

/-- Why the model stops. HXC itself never does: every accepted command ends and every access outside
reset is answered (spec/93_implementation_defined.md section 2, closing sentence). -/
inductive Fault where
  /-- Raised by GEN when the walk from the root has not met its leaves within NODE_MAX levels, so the arena
  holds a cycle. R52 excludes it and the host cannot write NODE; the spec gives GEN no effect there. Safe. -/
  | brokenTree
deriving DecidableEq, Repr

/-- Why the model declines an instruction. -/
inductive Refusal where
  /-- Raised by the dispatcher alone, for an instruction that has no meaning yet; none is left. Safe. -/
  | notModelled (mnemonic : String)
deriving DecidableEq, Repr

/-- The reset state (R60), with draw `d` for the five arrays whose contents are unspecified after reset
(V1). The last three fields are the port's and the model's own. -/
def State.afterReset (d : Nat) : State where
  rstN      := true
  phase     := .idle
  cmdLatch  := 0#32
  done      := false
  err       := false
  empty     := false
  ieDone    := false
  ieErr     := false
  cause     := 0#4
  info      := 0#32
  tlen      := 0#16
  plen      := 0#16
  pad       := 0#32
  klen      := 0#9
  rootValid := false
  rootH     := 0#9
  nnode     := 0#10
  text      := { fill := .unspecified d, cells := [] }
  pay       := { fill := .unspecified d, cells := [] }
  key       := { fill := .unspecified d, cells := [] }
  freq      := { fill := .zero, cells := [] }
  clen      := { fill := .zero, cells := [] }
  cbit      := { fill := .unspecified d, cells := [] }
  node      := { fill := .unspecified d, cells := [] }
  resp      := none
  turns     := []
  draws     := d + 1

/-- The machine right after reset (R60, R380): rst_n high again, no access answered yet, no turn waiting. -/
def State.reset : State := State.afterReset 0

end Sys2Proof.Machine
end

