-- ==== Sys2Proof/Machine/Ops.lean ====
section
/-! DEFINITION. The named operations every command and every access is made of: reading and writing one
element of an array, the ends of a command (among them taking a fault), its acceptance, the
acknowledgement of a fault, and reset. -/

namespace Sys2Proof.Machine

variable {α : Type}

/-- The value listed at index `i`, if one is. -/
def lookupCell (i : Nat) : List (Nat × α) → Option α
  | [] => none
  | (j, v) :: rest => if j = i then some v else lookupCell i rest

/-- List value `v` at index `i`, before the first greater index, in place of an earlier value. -/
def insertCell (i : Nat) (v : α) : List (Nat × α) → List (Nat × α)
  | [] => [(i, v)]
  | (j, w) :: rest =>
    if i < j then (i, v) :: (j, w) :: rest
    else if i = j then (i, v) :: rest
    else (j, w) :: insertCell i v rest

/-- Leave index `i` unlisted. -/
def eraseCell (i : Nat) (cells : List (Nat × α)) : List (Nat × α) :=
  cells.filter (fun c => c.1 ≠ i)

/-- What an unlisted element reads as: 0, the default of the element's type, or the free value `free`
gives it for the draw (R60, R341). -/
def Fill.value [Inhabited α] (free : Nat → Nat → α) (f : Fill) (i : Nat) : α :=
  match f with
  | .zero => default
  | .unspecified d => free d i

/-- Element `i` of an array; `free` is the array's constant of free values. No read has a side effect
(spec/20_memory.md R102). -/
def Memory.read [Inhabited α] (free : Nat → Nat → α) (m : Memory α) (i : Nat) : α :=
  (lookupCell i m.cells).getD (m.fill.value free i)

/-- `SPACE[i] <- v` (spec/00_scope.md R12), keeping the canonical form: 0 is not listed where an unlisted
element reads as 0. -/
def Memory.write [Inhabited α] [DecidableEq α] (m : Memory α) (i : Nat) (v : α) : Memory α :=
  match m.fill with
  | .zero =>
    if v = default then { m with cells := eraseCell i m.cells }
    else { m with cells := insertCell i v m.cells }
  | .unspecified _ => { m with cells := insertCell i v m.cells }

/-- Write consecutive elements from index `i` on. -/
def Memory.writeFrom [Inhabited α] [DecidableEq α] (m : Memory α) (i : Nat) : List α → Memory α
  | [] => m
  | v :: vs => (m.write i v).writeFrom (i + 1) vs

/-- An array every element of which is 0. -/
def Memory.zeros : Memory α := { fill := .zero, cells := [] }

/-- An array no element of which any rule fixes, left so by draw `d` (V1, V2). -/
def Memory.unspecified (d : Nat) : Memory α := { fill := .unspecified d, cells := [] }

/-- The canonical form of an array of `size` elements: indices strictly rising and inside the array, and
no entry that an unlisted element would read as. An unspecified element reads as a free value, which no
written value is known to equal, so there the last clause asks nothing (log 6). -/
def Memory.wf [Inhabited α] [DecidableEq α] (size : Nat) (m : Memory α) : Bool :=
  decide (m.cells.Pairwise (fun a b => a.1 < b.1)) &&
  m.cells.all (fun c => decide (c.1 < size)) &&
  match m.fill with
  | .zero => m.cells.all (fun c => decide (c.2 ≠ default))
  | .unspecified _ => true

/-- The cause code of a fault (spec/60_exceptions.md R331). -/
def HxcFault.code : HxcFault → BitVec 4
  | .emptyKey => 1#4
  | .unknownSymbolInCode _ => 2#4
  | .invalidPadding _ => 3#4
  | .missingCode _ => 5#4
  | .payloadOverflow _ => 6#4
  | .textOverflow _ => 7#4
  | .illegalCommand _ => 8#4

/-- What a fault records in INFO, zero-extended to 32 bits (R331, R332 to R339). -/
def HxcFault.infoWord : HxcFault → Word
  | .emptyKey => 0#32
  | .unknownSymbolInCode start => BitVec.ofNat 32 start
  | .invalidPadding p => p
  | .missingCode i => BitVec.ofNat 32 i
  | .payloadOverflow i => BitVec.ofNat 32 i
  | .textOverflow start => BitVec.ofNat 32 start
  | .illegalCommand w => w

/-- Taking a fault, `raise F(info)` (spec/60_exceptions.md R340, spec/40_common.md R164): ERR, CAUSE and
INFO are written, DONE and EMPTY are left, the engine is IDLE. Nothing else is saved and control goes
nowhere: there is no vector and no handler inside HXC. -/
def State.raise (s : State) (f : HxcFault) : State :=
  { s with err := true, cause := f.code, info := f.infoWord, phase := .idle }

/-- Return from a fault, the host's write of 1 to STATUS bit 2 (R344, spec/10_state.md R35): nothing is
restored, because nothing was saved. -/
def State.acknowledge (s : State) : State :=
  { s with err := false, cause := 0#4, info := 0#32 }

/-- PACK's destinations after a late fault: every element of PAY, PLEN and PAD unspecified (R341). -/
def State.spoilPayload (s : State) : State :=
  { s with
    pay := Memory.unspecified s.draws
    plen := Config.freePlen s.draws
    pad := Config.freePad s.draws
    draws := s.draws + 1 }

/-- UNPACK's destinations after a late fault: every element of TEXT, and TLEN, unspecified (R341). -/
def State.spoilText (s : State) : State :=
  { s with
    text := Memory.unspecified s.draws
    tlen := Config.freeTlen s.draws
    draws := s.draws + 1 }

/-- The successful end of a command (spec/40_common.md R163); `e` is the value the command writes to
EMPTY (spec/10_state.md R36). -/
def State.finish (s : State) (e : Bool) : State :=
  { s with empty := e, done := true, phase := .idle }

/-- Acceptance of a command word (spec/40_common.md R161): whether the word is defined is not asked. -/
def State.accept (s : State) (w : Word) : State :=
  { s with cmdLatch := w, done := false, phase := .busy }

/-- A command is accepted exactly when PHASE is IDLE and ERR is 0 (spec/40_common.md R160). -/
def State.accepts (s : State) : Bool :=
  decide (s.phase = .idle) && !s.err

/-- Reset, hard or soft (spec/10_state.md R60, spec/70_reset_and_hazards.md R380 to R384): the reset state,
the unspecified arrays drawn anew. What is not HXC's state stays: the level of the reset pin, the turns
to come and the port's latest answer. -/
def State.resetNow (s : State) : State :=
  { State.afterReset s.draws with rstN := s.rstN, turns := s.turns, resp := s.resp }

end Sys2Proof.Machine
end

