-- ==== Sys2Proof/Machine/Operands.lean ====
section
/-! DEFINITION. The forms in which commands and accesses name their operands (spec/40_common.md R168):
elements of the seven arrays, a symbol's code, the bits of the payload stream, and the port's view of a
node and of ROOT, NNODE. -/

namespace Sys2Proof.Machine

/-- All 256 symbols in ascending order. -/
def allSymbols : List Symbol := (List.range Config.nSym).map (BitVec.ofNat 8)

/-- TEXT[i] (R45). -/
def State.textAt (s : State) (i : Nat) : Symbol := s.text.read Config.freeText i

/-- PAY[i] (R46). -/
def State.payAt (s : State) (i : Nat) : Byte := s.pay.read Config.freePay i

/-- KEY[i] (R47). -/
def State.keyAt (s : State) (i : Nat) : Byte := s.key.read Config.freeKey i

/-- The free values of FREQ and CLEN, which no event leaves unspecified: none is ever asked for. -/
def noFree {w : Nat} (_ _ : Nat) : BitVec w := 0#w

/-- FREQ[c] (R48). -/
def State.freqAt (s : State) (c : Symbol) : Count := s.freq.read noFree c.toNat

/-- CLEN[c] (R49). -/
def State.clenAt (s : State) (c : Symbol) : BitVec 8 := s.clen.read noFree c.toNat

/-- The index of CBIT[c].w[k] in the array of words (R50, R84). -/
def cbitIndex (c : Symbol) (k : Nat) : Nat := Config.cbitWords * c.toNat + k

/-- CBIT[c].w[k] (R50). -/
def State.cbitAt (s : State) (c : Symbol) (k : Nat) : Word := s.cbit.read Config.freeCbit (cbitIndex c k)

/-- NODE[h] (R51). -/
def State.nodeAt (s : State) (h : Handle) : Node := s.node.read Config.freeNode h.toNat

/-- Digit `j` of CBIT[c]: bit (j mod 32) of word j div 32 (spec/30_encoding.md R131, spec/20_memory.md R98). -/
def State.digitAt (s : State) (c : Symbol) (j : Nat) : Bool :=
  (s.cbitAt c (j / 32)).getLsbD (j % 32)

/-- The code of symbol `c`: its first CLEN[c] digits; no digit when the table has no entry (R131, R132). -/
def State.codeOf (s : State) (c : Symbol) : Code :=
  (List.range (s.clenAt c).toNat).map (s.digitAt c)

/-- The number whose bit j is digit j of the list. -/
def natOfDigits : List Bool → Nat
  | [] => 0
  | d :: ds => d.toNat + 2 * natOfDigits ds

/-- Word `k` of a code: bit (j mod 32) is digit j for the digits with j div 32 = k, and 0 elsewhere
(R131, spec/47_pipeline.md R302). -/
def codeWord (c : Code) (k : Nat) : Word :=
  BitVec.ofNat 32 (natOfDigits ((c.drop (32 * k)).take 32))

/-- The symbols TEXT[0 .. TLEN-1] (R26). -/
def State.textSymbols (s : State) : List Symbol :=
  (List.range s.tlen.toNat).map s.textAt

/-- The bytes PAY[0 .. PLEN-1] (R27). -/
def State.payBytes (s : State) : List Byte :=
  (List.range s.plen.toNat).map s.payAt

/-- `getbit(p)`: bit 7 - (p mod 8) of PAY[p div 8], the payload's bit order (spec/20_memory.md R97). -/
def State.payBit (s : State) (p : Nat) : Bool :=
  (s.payAt (p / 8)).getLsbD (7 - p % 8)

/-- A byte from digits, the first digit at bit 7 (R97). -/
def byteOfDigits (ds : List Bool) : Byte := BitVec.ofNat 8 (natOfDigits ds.reverse)

/-- Eight digits at a time into `n` bytes, most significant bit first (spec/30_encoding.md R141). -/
def bytesOfDigits (n : Nat) (ds : List Bool) : List Byte :=
  match n with
  | 0 => []
  | n + 1 => byteOfDigits (ds.take 8) :: bytesOfDigits n (ds.drop 8)

/-- The number of filler bits after `n` digits (spec/40_common.md R178). -/
def padCount (n : Nat) : Nat := (8 - n % 8) % 8

/-- The kept bits of the payload, 8 * PLEN - PAD with nothing below 0 (spec/40_common.md R180). -/
def State.keptBits (s : State) : Nat := 8 * s.plen.toNat - s.pad.toNat

/-- `zext_24` of a frequency table entry (spec/42_build.md R206, spec/30_encoding.md R137). -/
def zext24 (f : Count) : NodeFreq := f.setWidth 24

/-- Leaf(SYM, FREQ) as a record (spec/30_encoding.md R136). -/
def leafNode (c : Symbol) (f : NodeFreq) : Node :=
  { leaf := true, sym := c, freq := f, left := 0#9, right := 0#9 }

/-- Internal(FREQ, LEFT, RIGHT) as a record (R136). -/
def internalNode (f : NodeFreq) (l r : Handle) : Node :=
  { leaf := false, sym := 0#8, freq := f, left := l, right := r }

/-- The two port words of a node (R135): w[0] = SYM, FREQ; w[1] = LEAF, 0, RIGHT, 0, LEFT. -/
def nodeWord (n : Node) (k : BitVec 1) : Word :=
  if k = 0#1 then n.sym ++ n.freq
  else BitVec.ofBool n.leaf ++ (0#6 ++ (n.right ++ (0#7 ++ n.left)))

/-- ROOT as the port reads it: bit 31 VALID, bits 8:0 H (spec/10_state.md R40). -/
def State.rootWord (s : State) : Word :=
  BitVec.ofBool s.rootValid ++ (0#22 ++ s.rootH)

end Sys2Proof.Machine
end

