-- ==== Sys2Proof/Machine/Flags.lean ====
section
/-! DEFINITION. The condition flag EMPTY, the words STATUS and CTRL, what writes to them do, and the
interrupt output (spec/10_state.md R32 to R37, spec/60_exceptions.md R350). -/

namespace Sys2Proof.Machine

/-- STATUS.BUSY is not storage: 1 exactly when PHASE is BUSY (R33). -/
def State.busy (s : State) : Bool := decide (s.phase = .busy)

/-- STATUS as the port reads it: EMPTY, ERR, DONE, BUSY in bits 3 to 0 (R32). -/
def State.statusWord (s : State) : Word :=
  0#28 ++ (BitVec.ofBool s.empty ++ (BitVec.ofBool s.err ++ (BitVec.ofBool s.done ++ BitVec.ofBool s.busy)))

/-- CTRL as the port reads it: IE_ERR, IE_DONE in bits 1 and 0; SRST reads 0 (R37). -/
def State.ctrlWord (s : State) : Word :=
  0#30 ++ (BitVec.ofBool s.ieErr ++ BitVec.ofBool s.ieDone)

/-- A write to STATUS: data bit 1 clears DONE, data bit 2 acknowledges ERR; no bit is ever set (R32). -/
def State.writeStatus (s : State) (v : Word) : State :=
  let t := if v.getLsbD 1 then { s with done := false } else s
  if v.getLsbD 2 then t.acknowledge else t

/-- A write to CTRL: bit 31 resets, and then the other bits are ignored; else bits 1:0 are stored
(R37, spec/70_reset_and_hazards.md R381). -/
def State.writeCtrl (s : State) (v : Word) : State :=
  if v.getLsbD 31 then s.resetNow
  else { s with ieDone := v.getLsbD 0, ieErr := v.getLsbD 1 }

/-- irq, a pure function of four state bits (spec/60_exceptions.md R350). -/
def State.irq (s : State) : Bool := (s.done && s.ieDone) || (s.err && s.ieErr)

/-- EMPTY as CNT and PACK write it: 1 if TLEN = 0 (R36). -/
def State.textEmpty (s : State) : Bool := decide (s.tlen = 0#16)

/-- EMPTY as BUILD writes it: 1 if no FREQ entry is non-zero (R36). -/
def State.freqEmpty (s : State) : Bool :=
  allSymbols.all (fun c => decide (s.freqAt c = 0#16))

/-- EMPTY as GEN writes it: 1 if ROOT.VALID = 0 (R36). -/
def State.treeEmpty (s : State) : Bool := !s.rootValid

/-- EMPTY as UNPACK writes it: 1 if no symbol was emitted (R36). -/
def emittedNone (out : List Symbol) : Bool := out.isEmpty

/-- EMPTY as XOR writes it: 1 if PLEN = 0 (R36). -/
def State.payEmpty (s : State) : Bool := decide (s.plen = 0#16)

end Sys2Proof.Machine
end

