-- ==== Sys2Proof/Machine/Build.lean ====
section
/-! DEFINITION. BUILD, the Huffman tree builder (spec/42_build.md R200 to R218). -/

namespace Sys2Proof.Machine

/-- A member of the priority queue with its key, the pair (NODE[h].FREQ, h) of R204. A key never changes
while its node is queued, so the queue carries it (R204; log 8). -/
structure PqEntry where
  freq   : NodeFreq
  handle : Handle
deriving DecidableEq, Repr

/-- key(a) < key(b): lexicographic on unsigned numbers (R204). -/
def PqEntry.less (a b : PqEntry) : Bool :=
  decide (a.freq.toNat < b.freq.toNat) ||
    (decide (a.freq.toNat = b.freq.toNat) && decide (a.handle.toNat < b.handle.toNat))

/-- `PQ.insert` into a queue held in rising order of keys, so that `PQ.popmin` takes the head (R203, R204;
any organisation gives the same results, spec/10_state.md R55, V13). -/
def pqInsert (e : PqEntry) : List PqEntry → List PqEntry
  | [] => [e]
  | x :: rest => if e.less x then e :: x :: rest else x :: pqInsert e rest

/-- BUILD's working state (spec/10_state.md R55, R56): the arena being written, the queue, and the next
free handle. -/
structure BuildState where
  node  : Memory Node
  queue : List PqEntry
  next  : Nat
deriving DecidableEq, Repr

/-- NODE[n] <- the record; PQ.insert(n); n <- n + 1. -/
def BuildState.add (b : BuildState) (r : Node) : BuildState where
  node  := b.node.write b.next r
  queue := pqInsert { freq := r.freq, handle := BitVec.ofNat 9 b.next } b.queue
  next  := b.next + 1

/-- Leaf synthesis for one symbol (R206): a leaf exactly when its FREQ entry is not 0. -/
def BuildState.addLeaf (freq : Symbol → Count) (b : BuildState) (c : Symbol) : BuildState :=
  if freq c = 0#16 then b else b.add (leafNode c (zext24 (freq c)))

/-- The merge loop (R208): pop the two least, the first is LEFT and the second RIGHT, queue their parent;
stop at one member. Each round leaves one member fewer (R205), so as many rounds as there are members
are enough. -/
def BuildState.merge (rounds : Nat) (b : BuildState) : BuildState :=
  match rounds, b.queue with
  | rounds + 1, x :: y :: rest =>
    ({ b with queue := rest }.add (internalNode (x.freq + y.freq) x.handle y.handle)).merge rounds
  | _, _ => b

/-- Leaf synthesis and the merge loop, on an arena that keeps what is not written (R200, R215). -/
def buildTree (freq : Symbol → Count) (node : Memory Node) : BuildState :=
  let b := allSymbols.foldl (BuildState.addLeaf freq) { node := node, queue := [], next := 0 }
  b.merge b.queue.length

/-- ROOT and NNODE from the finished queue: no member, the null tree (R207); one member, the root (R209). -/
def State.plant (s : State) (b : BuildState) : State :=
  match b.queue with
  | [] => { s with node := b.node, rootValid := false, rootH := 0#9, nnode := 0#10 }
  | r :: _ =>
    { s with node := b.node, rootValid := true, rootH := r.handle, nnode := BitVec.ofNat 10 b.next }

/-- BUILD (R200); no fault. -/
def execBuild (s : State) : Host.Outcome State Fault Refusal :=
  .next ((s.plant (buildTree s.freqAt s.node)).finish s.freqEmpty)

end Sys2Proof.Machine
end

