-- ==== Sys2Proof/Machine/Cipher.lean ====
section
/-! DEFINITION. XOR, the repeating-key stream cipher (spec/46_xor.md R290 to R296). -/

namespace Sys2Proof.Machine

/-- Byte `i` of the result: PAY[i] xor KEY[i mod KLEN] (R290, R292; KLEN is not 0 here, spec/40_common.md R179). -/
def State.cipherByte (s : State) (i : Nat) : Byte :=
  s.payAt i ^^^ s.keyAt (i % s.klen.toNat)

/-- XOR (R290), in place on PAY[0 .. PLEN-1]; EmptyKey comes first and changes nothing else (R291). -/
def execXor (s : State) : Host.Outcome State Fault Refusal :=
  if s.klen = 0#9 then .next (s.raise .emptyKey)
  else
    .next ({ s with pay := s.pay.writeFrom 0 ((List.range s.plen.toNat).map s.cipherByte) }.finish s.payEmpty)

end Sys2Proof.Machine
end

