-- ==== Sys2Proof/Machine/Count.lean ====
section
/-! DEFINITION. CNT, the frequency counter (spec/41_cnt.md R190 to R194). -/

namespace Sys2Proof.Machine

/-- FREQ[c] <- FREQ[c] + 1, in 16 bits (R190; no overflow, spec/40_common.md R177). -/
def countSymbol (f : Memory Count) (c : Symbol) : Memory Count :=
  f.write c.toNat (f.read noFree c.toNat + 1#16)

/-- The whole table, from all zeros, for a sequence of symbols (R190, R191). -/
def countSymbols (t : List Symbol) : Memory Count :=
  t.foldl countSymbol Memory.zeros

/-- CNT (R190): FREQ is rewritten from TEXT[0 .. TLEN-1]; no fault. -/
def execCnt (s : State) : Host.Outcome State Fault Refusal :=
  .next ({ s with freq := countSymbols s.textSymbols }.finish s.textEmpty)

end Sys2Proof.Machine
end

