-- ==== Sys2Proof/Machine/Gen.lean ====
section
/-! DEFINITION. GEN, the Huffman code table generator (spec/43_gen.md R230 to R240). -/

namespace Sys2Proof.Machine

/-- `walk(h, prefix)` of R230: depth first, digit 0 to the left and 1 to the right, a leaf records the
prefix. `levels` bounds the nodes below `h` on one path; none is left only where the arena holds a cycle
(spec/10_state.md R52 excludes it; log 9). -/
def walk (node : Handle → Node) (levels : Nat) (h : Handle) (pre : Code) : Option (List (Symbol × Code)) :=
  if (node h).leaf then some [((node h).sym, pre)]
  else
    match levels with
    | 0 => none
    | levels + 1 =>
      match walk node levels (node h).left (pre ++ [false]),
            walk node levels (node h).right (pre ++ [true]) with
      | some l, some r => some (l ++ r)
      | _, _ => none

/-- The entries GEN records for the tree at root `r`: the single leaf gets the code "0" (R233), else the
walk's (R232). -/
def treeCodes (node : Handle → Node) (r : Handle) : Option (List (Symbol × Code)) :=
  if (node r).leaf then some [((node r).sym, [false])]
  else walk node Config.nodeMax r []

/-- `setcode(c, code)` of R230: CLEN and the eight words of CBIT, digits beyond the code 0 (R235). -/
def State.setCode (s : State) (e : Symbol × Code) : State :=
  { s with
    clen := s.clen.write e.1.toNat (BitVec.ofNat 8 e.2.length)
    cbit := s.cbit.writeFrom (cbitIndex e.1 0) ((List.range Config.cbitWords).map (codeWord e.2)) }

/-- The empty table: every CLEN element and every CBIT word 0 (R230). -/
def State.emptyTable (s : State) : State :=
  { s with clen := Memory.zeros, cbit := Memory.zeros }

/-- GEN (R230): the null tree leaves the empty table and is no fault (R234). -/
def execGen (s : State) : Host.Outcome State Fault Refusal :=
  if s.rootValid then
    match treeCodes s.nodeAt s.rootH with
    | some entries => .next ((entries.foldl State.setCode s.emptyTable).finish s.treeEmpty)
    | none => .fault .brokenTree
  else
    .next (s.emptyTable.finish s.treeEmpty)

end Sys2Proof.Machine
end

