-- ==== Sys2Proof/Machine/Housekeeping.lean ====
section
/-! DEFINITION. NOP and CLR (spec/40_common.md R170, R171). -/

namespace Sys2Proof.Machine

/-- NOP (R170): the lifecycle only, EMPTY unchanged. -/
def execNop (s : State) : Host.Outcome State Fault Refusal :=
  .next (s.finish s.empty)

/-- What CLR clears (R171): the four lengths and PAD, the tree registers, FREQ, CLEN and CBIT. The elements
of TEXT, PAY, KEY and NODE, and CTRL, stay. -/
def State.cleared (s : State) : State :=
  { s with
    tlen := 0#16
    plen := 0#16
    pad := 0#32
    klen := 0#9
    rootValid := false
    rootH := 0#9
    nnode := 0#10
    freq := Memory.zeros
    clen := Memory.zeros
    cbit := Memory.zeros }

/-- CLR (R171): EMPTY becomes 0. -/
def execClr (s : State) : Host.Outcome State Fault Refusal :=
  .next (s.cleared.finish false)

end Sys2Proof.Machine
end

