-- ==== Sys2Proof/Machine/Pack.lean ====
section
/-! DEFINITION. PACK, the bit packer (spec/44_pack.md R250 to R259). -/

namespace Sys2Proof.Machine

/-- The bit stream of a sequence of symbols (spec/30_encoding.md R141), or the first fault: at symbol index
`i` with `n` digits so far, MissingCode before PayloadOverflow (R250, R253, R254). -/
def packStream (code : Symbol → Code) (i n : Nat) : List Symbol → Except HxcFault (List Bool)
  | [] => .ok []
  | c :: rest =>
    if (code c).length = 0 then .error (.missingCode i)
    else if n + (code c).length > 8 * Config.payMax then .error (.payloadOverflow i)
    else
      match packStream code (i + 1) (n + (code c).length) rest with
      | .ok ds => .ok (code c ++ ds)
      | .error f => .error f

/-- The bytes of a bit stream: the digits, then zero filler to the byte boundary (R141, R252). -/
def packBytes (ds : List Bool) : List Byte :=
  bytesOfDigits ((ds.length + padCount ds.length) / 8) (ds ++ List.replicate (padCount ds.length) false)

/-- PLEN, PAD and PAY[0 .. PLEN-1] of a packed stream; the rest of PAY stays (R252, R255). -/
def State.storePayload (s : State) (ds : List Bool) : State :=
  { s with
    pay := s.pay.writeFrom 0 (packBytes ds)
    plen := BitVec.ofNat 16 ((ds.length + padCount ds.length) / 8)
    pad := BitVec.ofNat 32 (padCount ds.length) }

/-- PACK (R250): its faults are late, so they leave PAY, PLEN and PAD unspecified (spec/60_exceptions.md R341). -/
def execPack (s : State) : Host.Outcome State Fault Refusal :=
  match packStream s.codeOf 0 0 s.textSymbols with
  | .ok ds => .next ((s.storePayload ds).finish s.textEmpty)
  | .error f => .next (s.spoilPayload.raise f)

end Sys2Proof.Machine
end

