-- ==== Sys2Proof/Machine/Unpack.lean ====
section
/-! DEFINITION. UNPACK, the bit unpacker (spec/45_unpack.md R270 to R285). -/

namespace Sys2Proof.Machine

/-- Membership in `match(cand)` of R270: the code of `c` is exactly the candidate, and there is one. -/
def State.entryIs (s : State) (cand : Code) (c : Symbol) : Bool :=
  decide ((s.clenAt c).toNat = cand.length) && decide (0 < (s.clenAt c).toNat) &&
    decide (s.codeOf c = cand)

/-- The least member of `match(cand)` (R270, R276), if there is one. -/
def State.matchLeast (s : State) (cand : Code) : Option Symbol :=
  allSymbols.find? (s.entryIs cand)

/-- The walk over the kept bits (R270, R274): `p` the stream position, `start` the position of the
candidate's first digit, `t` the symbols emitted so far. It emits at the first exact match. -/
def unpackWalk (found : Code → Option Symbol) (p start t : Nat) (cand : Code) :
    List Bool → Except HxcFault (List Symbol)
  | [] => if cand = [] then .ok [] else .error (.unknownSymbolInCode start)
  | b :: bits =>
    match found (cand ++ [b]) with
    | some c =>
      if t = Config.textMax then .error (.textOverflow start)
      else
        match unpackWalk found (p + 1) (p + 1) (t + 1) [] bits with
        | .ok out => .ok (c :: out)
        | .error f => .error f
    | none => unpackWalk found (p + 1) start t (cand ++ [b]) bits

/-- The kept bits in stream order (R273). -/
def State.keptStream (s : State) : List Bool := (List.range s.keptBits).map s.payBit

/-- TEXT[0 .. t-1] and TLEN from the emitted symbols; the rest of TEXT stays (R270, R280). -/
def State.storeText (s : State) (out : List Symbol) : State :=
  { s with text := s.text.writeFrom 0 out, tlen := BitVec.ofNat 16 out.length }

/-- UNPACK (R270): InvalidPadding comes first and changes nothing else (R272); the other two faults are late
and leave TEXT and TLEN unspecified (spec/60_exceptions.md R341). -/
def execUnpack (s : State) : Host.Outcome State Fault Refusal :=
  if s.pad.toNat > 7 then .next (s.raise (.invalidPadding s.pad))
  else
    match unpackWalk s.matchLeast 0 0 0 [] s.keptStream with
    | .ok out => .next ((s.storeText out).finish (emittedNone out))
    | .error f => .next (s.spoilText.raise f)

end Sys2Proof.Machine
end

