-- ==== Sys2Proof/Machine/Port.lean ====
section
/-! DEFINITION. The host port (spec/20_memory.md): the address map, the four checks, what a performed
access does, and the reset pin. -/

namespace Sys2Proof.Machine

/-- The register at an index of space REG (spec/10_state.md R25). -/
def regAt : Nat → Option Reg
  | 0 => some .id
  | 1 => some .cmd
  | 2 => some .status
  | 3 => some .ctrl
  | 4 => some .cause
  | 5 => some .info
  | 6 => some .tlen
  | 7 => some .plen
  | 8 => some .pad
  | 9 => some .klen
  | 10 => some .root
  | 11 => some .nnode
  | _ => none

/-- The index of a register (R25). -/
def regIndex : Reg → Nat
  | .id => 0
  | .cmd => 1
  | .status => 2
  | .ctrl => 3
  | .cause => 4
  | .info => 5
  | .tlen => 6
  | .plen => 7
  | .pad => 8
  | .klen => 9
  | .root => 10
  | .nnode => 11

/-- The location at a port address, none where the map has no location (R84, R95). -/
def locate (a : Addr) : Option Location :=
  let n := a.toNat
  if n < 0x00100 then (regAt n).map .reg
  else if n < 0x00200 then some (.freq (BitVec.ofNat 8 (n - 0x00100)))
  else if n < 0x00300 then some (.clen (BitVec.ofNat 8 (n - 0x00200)))
  else if n < 0x00400 then some (.key (BitVec.ofNat 8 (n - 0x00300)))
  else if n < 0x007FE then
    some (.node (BitVec.ofNat 9 ((n - 0x00400) / 2)) (BitVec.ofNat 1 ((n - 0x00400) % 2)))
  else if n < 0x00800 then none
  else if n < 0x01000 then
    some (.cbit (BitVec.ofNat 8 ((n - 0x00800) / 8)) (BitVec.ofNat 3 ((n - 0x00800) % 8)))
  else if n < 0x10000 then none
  else if n < 0x1FFFF then some (.text (BitVec.ofNat 16 (n - 0x10000)))
  else if n < 0x20000 then none
  else if n < 0x2FFFF then some (.pay (BitVec.ofNat 16 (n - 0x20000)))
  else none

/-- The port address of a location, addr(loc) of spec/30_encoding.md R150 (R84, R135). -/
def addrOf : Location → Addr
  | .reg r => BitVec.ofNat 18 (regIndex r)
  | .freq c => BitVec.ofNat 18 (0x00100 + c.toNat)
  | .clen c => BitVec.ofNat 18 (0x00200 + c.toNat)
  | .key i => BitVec.ofNat 18 (0x00300 + i.toNat)
  | .node h k => BitVec.ofNat 18 (0x00400 + 2 * h.toNat + k.toNat)
  | .cbit c k => BitVec.ofNat 18 (0x00800 + 8 * c.toNat + k.toNat)
  | .text i => BitVec.ofNat 18 (0x10000 + i.toNat)
  | .pay i => BitVec.ofNat 18 (0x20000 + i.toNat)

/-- The check that rejects an access, in the order in which they are made (R90). -/
inductive Rejection where
  /-- The address is unmapped (R95). -/
  | unmapped
  /-- The phase, or a pending fault before a CMD write, forbids the access (R91). -/
  | phase
  /-- The location is read-only (R94). -/
  | direction
  /-- The data does not fit the location (R93). -/
  | value
deriving DecidableEq, Repr

/-- Reads that pass the phase check while BUSY (R91). -/
def readableWhileBusy : Location → Bool
  | .reg .id => true
  | .reg .cmd => true
  | .reg .status => true
  | .reg .ctrl => true
  | .reg .cause => true
  | .reg .info => true
  | _ => false

/-- Writes that pass the phase check while BUSY (R91). -/
def writableWhileBusy : Location → Bool
  | .reg .status => true
  | .reg .ctrl => true
  | _ => false

/-- The phase check of a read (R91). -/
def State.phaseAllowsRead (s : State) (l : Location) : Bool :=
  match s.phase with
  | .idle => true
  | .busy => readableWhileBusy l

/-- The phase check of a write: while IDLE everything passes but a CMD write with ERR = 1 (R91, R160). -/
def State.phaseAllowsWrite (s : State) (l : Location) : Bool :=
  match s.phase with
  | .idle => if l = .reg .cmd then !s.err else true
  | .busy => writableWhileBusy l

/-- The direction check: locations the host may write (R94). -/
def hostWritable : Location → Bool
  | .reg .id => false
  | .reg .cause => false
  | .reg .info => false
  | .reg .root => false
  | .reg .nnode => false
  | .node _ _ => false
  | _ => true

/-- The value check: nothing is truncated, wrapped or saturated (R93). -/
def valueFits (l : Location) (v : Word) : Bool :=
  match l with
  | .reg .tlen => decide (v.toNat < 2 ^ 16)
  | .reg .plen => decide (v.toNat < 2 ^ 16)
  | .reg .klen => decide (v.toNat ≤ Config.keyMax)
  | .freq _ => decide (v.toNat < 2 ^ 16)
  | .clen _ => decide (v.toNat < 2 ^ 8)
  | .key _ => decide (v.toNat < 2 ^ 8)
  | .text _ => decide (v.toNat < 2 ^ 8)
  | .pay _ => decide (v.toNat < 2 ^ 8)
  | _ => true

/-- The checks of a read: mapped, phase (R90; every mapped location is readable, R94). -/
def State.checkRead (s : State) (a : Addr) : Except Rejection Location :=
  match locate a with
  | none => .error .unmapped
  | some l => if s.phaseAllowsRead l then .ok l else .error .phase

/-- The checks of a write: mapped, phase, direction, value (R90). -/
def State.checkWrite (s : State) (a : Addr) (v : Word) : Except Rejection Location :=
  match locate a with
  | none => .error .unmapped
  | some l =>
    if !s.phaseAllowsWrite l then .error .phase
    else if !hostWritable l then .error .direction
    else if !valueFits l v then .error .value
    else .ok l

/-- A register as the port reads it, upper bits 0 (R83; spec/10_state.md R25 to R41). -/
def State.readReg (s : State) : Reg → Word
  | .id => Config.idValue
  | .cmd => 0#32
  | .status => s.statusWord
  | .ctrl => s.ctrlWord
  | .cause => s.cause.setWidth 32
  | .info => s.info
  | .tlen => s.tlen.setWidth 32
  | .plen => s.plen.setWidth 32
  | .pad => s.pad
  | .klen => s.klen.setWidth 32
  | .root => s.rootWord
  | .nnode => s.nnode.setWidth 32

/-- The value of a location as the port reads it, upper bits 0 (R83, R84). -/
def State.readLocation (s : State) : Location → Word
  | .reg r => s.readReg r
  | .freq c => (s.freqAt c).setWidth 32
  | .clen c => (s.clenAt c).setWidth 32
  | .key i => (s.keyAt i.toNat).setWidth 32
  | .node h k => nodeWord (s.nodeAt h) k
  | .cbit c k => s.cbitAt c k.toNat
  | .text i => (s.textAt i.toNat).setWidth 32
  | .pay i => (s.payAt i.toNat).setWidth 32

/-- A performed write: CMD, STATUS and CTRL act, every other writable location stores (R90, R102). The
read-only locations never get here (R94). -/
def State.writeLocation (s : State) (v : Word) : Location → State
  | .reg .cmd => s.accept v
  | .reg .status => s.writeStatus v
  | .reg .ctrl => s.writeCtrl v
  | .reg .tlen => { s with tlen := v.setWidth 16 }
  | .reg .plen => { s with plen := v.setWidth 16 }
  | .reg .pad => { s with pad := v }
  | .reg .klen => { s with klen := v.setWidth 9 }
  | .freq c => { s with freq := s.freq.write c.toNat (v.setWidth 16) }
  | .clen c => { s with clen := s.clen.write c.toNat (v.setWidth 8) }
  | .key i => { s with key := s.key.write i.toNat (v.setWidth 8) }
  | .cbit c k => { s with cbit := s.cbit.write (cbitIndex c k.toNat) v }
  | .text i => { s with text := s.text.write i.toNat (v.setWidth 8) }
  | .pay i => { s with pay := s.pay.write i.toNat (v.setWidth 8) }
  | .reg .id => s
  | .reg .cause => s
  | .reg .info => s
  | .reg .root => s
  | .reg .nnode => s
  | .node _ _ => s

/-- The error response of a read: nothing of HXC changes, and the data is a fresh free value (R82). -/
def State.rejectRead (s : State) : State :=
  { s with resp := some (.readError (Config.freeReadData s.draws)), draws := s.draws + 1 }

/-- HostRead(A): the location's value, or the error response (R82, R90, R102). -/
def State.hostRead (s : State) (a : Addr) : State :=
  match s.checkRead a with
  | .ok l => { s with resp := some (.value (s.readLocation l)) }
  | .error _ => s.rejectRead

/-- HostWrite(A, v): performed entirely or rejected entirely (R81, R82, R90). -/
def State.hostWrite (s : State) (a : Addr) (v : Word) : State :=
  match s.checkWrite a v with
  | .ok l => { s.writeLocation v l with resp := some .written }
  | .error _ => { s with resp := some .writeError }

/-- One host access. While rst_n is low it is not performed and gets no response
(spec/70_reset_and_hazards.md R380, V12). -/
def State.hostAccess (s : State) (a : Access) : State :=
  if s.rstN then
    match a with
    | .read addr => s.hostRead addr
    | .write addr v => s.hostWrite addr v
  else { s with resp := none }

/-- Driving rst_n (R380): while it is low, and at the moment it goes high, HXC is in the reset state and no
access is answered; a high level on a high pin is no event. -/
def State.driveReset (s : State) (level : Bool) : State :=
  if level && s.rstN then s
  else { s.resetNow with rstN := level, resp := none }

end Sys2Proof.Machine
end

