-- ==== Sys2Proof/Machine/Step.lean ====
section
/-! DEFINITION. One step of the machine: the next turn in `turns`, or the engine's when none waits. -/

namespace Sys2Proof.Machine

/-- The engine's turn. While BUSY its one enabled step decodes CMDLATCH and runs that command from its first
line to its end, or raises IllegalCommand (spec/40_common.md R162, R165). While IDLE, and while rst_n is
low, it has no step and everything is retained (spec/10_state.md R21, spec/60_exceptions.md R367). -/
def engineStep (s : State) : Host.Outcome State Fault Refusal :=
  if s.rstN && s.busy then
    match decode s.cmdLatch with
    | .ok i => exec i s
    | .error _ => .next (s.raise (.illegalCommand s.cmdLatch))
  else .next s

/-- One step: the agent whose turn it is moves once (spec/20_memory.md R81, R105). With no turn left the
engine moves, so every accepted command is executed (weak fairness, spec/40_common.md R166; log 1). -/
def step (s : State) : Host.Outcome State Fault Refusal :=
  match s.turns with
  | [] => engineStep s
  | .engine :: rest => engineStep { s with turns := rest }
  | .host a :: rest => .next (State.hostAccess { s with turns := rest } a)
  | .rstN level :: rest => .next (State.driveReset { s with turns := rest } level)

/-- `s` with the command word `w` accepted, rst_n high and the engine's turn next: what the host's CMD write
brings about (spec/40_common.md R161), since HXC fetches nothing (spec/10_state.md R24; log 2). -/
def State.withFetchWord (s : State) (nbits w : Nat) : State :=
  { s.accept (BitVec.ofNat 32 (w % 2 ^ nbits)) with rstN := true, turns := .engine :: s.turns }

end Sys2Proof.Machine
end

