-- ==== Sys2Proof/Machine/Driver.lean ====
section
/-! DEFINITION. Host programs: the notation of spec/30_encoding.md R150, R151 and the pseudo-commands of
spec/47_pipeline.md. They are no hardware (spec/00_scope.md R5): functions over the port and the engine's
step, nothing else (log 21). -/

namespace Sys2Proof.Machine

/-- One line of a host program that changes HXC (R150, R300): `WR loc, value`, or `RUN m`. -/
inductive HostLine where
  | wr (l : Location) (v : Word)
  | run (i : Instr)
deriving DecidableEq, Repr

/-- What a driver must find wrong by itself, because HXC cannot represent the input: each its own error
(spec/47_pipeline.md R306, spec/30_encoding.md R133). -/
inductive InputError where
  /-- A text of more than TEXT_MAX symbols. -/
  | textTooLong
  /-- A ciphertext of more than PAY_MAX bytes. -/
  | ciphertextTooLong
  /-- A key of more than KEY_MAX bytes. -/
  | keyTooLong
  /-- A code string that is empty, longer than CODE_MAX digits, or has a character that is no digit; or a
  symbol listed twice, which no mapping has (log 24). -/
  | malformedTable
  /-- A symbol, of the text or of the table, that is not one byte. -/
  | symbolNotByte
deriving DecidableEq, Repr

/-- How a host program ended. -/
inductive Report where
  /-- Every line was performed and no command faulted. -/
  | finished
  /-- A command faulted: the CAUSE and INFO read before the acknowledgement (R300). -/
  | fault (cause info : Word)
  /-- A write got an error response, or no response, and the program ended there: DESIGN CHOICE, the spec
  gives the host no next action (log 23). -/
  | rejected
  /-- The driver refused the input, before any access (R306). -/
  | refused (e : InputError)
  /-- The engine's step stopped the model (`Fault.brokenTree`). -/
  | stopped
deriving DecidableEq, Repr

/-- A host program's end: the state it leaves and its report. -/
structure HostResult where
  state  : State
  report : Report
deriving DecidableEq, Repr

/-- The data of an answer, 0 where there is none. -/
def answerWord : Option Response → Word
  | some (.value v) => v
  | some (.readError v) => v
  | _ => 0#32

/-- `WR loc, value` (R150). -/
def State.wr (s : State) (l : Location) (v : Word) : State := s.hostAccess (.write (addrOf l) v)

/-- `RD loc` (R150): the state after the read. -/
def State.rd (s : State) (l : Location) : State := s.hostAccess (.read (addrOf l))

/-- The value `RD loc` reads (R150). -/
def State.see (s : State) (l : Location) : Word := answerWord (s.rd l).resp

/-- `ACK` (R150). -/
def State.ack (s : State) : State := s.wr (.reg .status) 6#32

/-- The test after WAIT (R300): on ERR read CAUSE and INFO, acknowledge and report them, else go on. -/
def finishRun (s : State) : HostResult :=
  if (s.see (.reg .status)).getLsbD 2 then
    { state := ((((s.rd (.reg .status)).rd (.reg .cause)).rd (.reg .info)).ack)
      report := .fault (s.see (.reg .cause)) (s.see (.reg .info)) }
  else { state := s.rd (.reg .status), report := .finished }

/-- `RUN m` (R300). WAIT is the engine's step and the read that finds BUSY = 0: reads before that step
change nothing (R102). R300 says that the CMD write can be rejected, not what the host does then: DESIGN
CHOICE, the sequence ends there, without WAIT, and reports `rejected` (log 23). -/
def runCommand (i : Instr) (s : State) : HostResult :=
  let a := s.wr (.reg .cmd) (encode i)
  if a.resp = some .written then
    match engineStep a with
    | .next b => finishRun (b.rd (.reg .status))
    | .fault _ => { state := a, report := .stopped }
    | .refused _ => { state := a, report := .stopped }
  else { state := a, report := .rejected }

/-- One line (R150, R300). A rejected `WR` is reported as `rejected`: DESIGN CHOICE (log 23). -/
def playLine (s : State) : HostLine → HostResult
  | .wr l v =>
    let a := s.wr l v
    { state := a, report := if a.resp = some .written then .finished else .rejected }
  | .run i => runCommand i s

/-- A host program, line by line. It stops at the first line that ends in a fault (R300), and, by DESIGN
CHOICE, at the first whose write is rejected, where no rule says how the host goes on (log 23). -/
def play (s : State) : List HostLine → HostResult
  | [] => { state := s, report := .finished }
  | l :: rest =>
    let r := playLine s l
    if r.report = .finished then play r.state rest else r

/-- Writes of consecutive elements of a space, from index `i` on (R301). -/
def loadFrom (loc : Nat → Location) (i : Nat) : List (BitVec 8) → List HostLine
  | [] => []
  | b :: bs => .wr (loc i) (b.setWidth 32) :: loadFrom loc (i + 1) bs

/-- `LDTEXT t` (R301). -/
def ldText (t : List Symbol) : List HostLine :=
  loadFrom (fun i => .text (BitVec.ofNat 16 i)) 0 t ++ [.wr (.reg .tlen) (BitVec.ofNat 32 t.length)]

/-- `LDKEY k` (R301). -/
def ldKey (k : List Byte) : List HostLine :=
  loadFrom (fun i => .key (BitVec.ofNat 8 i)) 0 k ++ [.wr (.reg .klen) (BitVec.ofNat 32 k.length)]

/-- `LDPAY b, pad` (R301). -/
def ldPay (b : List Byte) (pad : Word) : List HostLine :=
  loadFrom (fun i => .pay (BitVec.ofNat 16 i)) 0 b ++
    [.wr (.reg .plen) (BitVec.ofNat 32 b.length), .wr (.reg .pad) pad]

/-- `LDFREQ f` (R301): every entry is written, 0 for a symbol the mapping lacks. -/
def ldFreq (f : Symbol → Count) : List HostLine :=
  allSymbols.map (fun c => .wr (.freq c) ((f c).setWidth 32))

/-- The code of a symbol in a mapping, if it has one. -/
def tableLookup (table : List (Symbol × Code)) (c : Symbol) : Option Code :=
  (table.find? (fun e => decide (e.1 = c))).map Prod.snd

/-- `LDCODE c` for one symbol (R302): the words that hold digits, and CLEN, written for every symbol. -/
def ldEntry (table : List (Symbol × Code)) (c : Symbol) : List HostLine :=
  match tableLookup table c with
  | some d =>
    (List.range ((d.length - 1) / 32 + 1)).map
        (fun k => HostLine.wr (.cbit c (BitVec.ofNat 3 k)) (codeWord d k)) ++
      [.wr (.clen c) (BitVec.ofNat 32 d.length)]
  | none => [.wr (.clen c) 0#32]

/-- `LDCODE c` (R302). -/
def ldCode (table : List (Symbol × Code)) : List HostLine :=
  (allSymbols.map (ldEntry table)).flatten

/-- `RDCODE` (R302): for every symbol with CLEN[s] = L > 0 its L digits, through the port. -/
def State.rdCode (s : State) : List (Symbol × Code) :=
  allSymbols.filterMap (fun c =>
    let n := (s.see (.clen c)).toNat
    if n = 0 then none
    else some (c, (List.range n).map
      (fun j => (s.see (.cbit c (BitVec.ofNat 3 (j / 32)))).getLsbD (j % 32))))

/-- The result of ENCODE: ciphertext, code table and padding (R303, spec/90_conflicts.md C1). -/
structure Encoded where
  cipher  : List Byte
  table   : List (Symbol × Code)
  padding : Word
deriving DecidableEq, Repr

/-- The lines of `ENCODE t, k` before its reads (R303). -/
def encodeLines (t : List Symbol) (k : List Byte) : List HostLine :=
  [.run .clr] ++ ldText t ++ ldKey k ++ [.run .cnt, .run .build, .run .gen, .run .pack, .run .xor]

/-- The reads at the end of `ENCODE` (R303). -/
def State.encoded (s : State) : Encoded where
  cipher := (List.range (s.see (.reg .plen)).toNat).map
    (fun i => (s.see (.pay (BitVec.ofNat 16 i))).setWidth 8)
  table := s.rdCode
  padding := s.see (.reg .pad)

/-- The driver's refusal: nothing has been accessed (R306). -/
def refuseInput (s : State) (e : InputError) : HostResult := { state := s, report := .refused e }

/-- The driver's checks before ENCODE (R306), in the model's order (log 24). -/
def encodeInputError (t : List Symbol) (k : List Byte) : Option InputError :=
  if !textFits t then some .textTooLong
  else if !keyFits k then some .keyTooLong
  else none

/-- `ENCODE t, k` (R303), after the driver's own checks (R306). -/
def runEncode (t : List Symbol) (k : List Byte) (s : State) : HostResult :=
  match encodeInputError t k with
  | some e => refuseInput s e
  | none => play s (encodeLines t k)

/-- The word the driver writes to PAD for a software padding: a value PAD cannot hold becomes one above 7 (R306). -/
def padWord (p : Int) : Word :=
  if 0 ≤ p ∧ p < 2 ^ 32 then BitVec.ofInt 32 p else 0xFFFFFFFF#32

/-- The lines of `DECODE b, k, c, pad` before its reads (R304). -/
def decodeLines (b k : List Byte) (table : List (Symbol × Code)) (p : Int) : List HostLine :=
  [.run .clr] ++ ldPay b (padWord p) ++ ldKey k ++ ldCode table ++ [.run .xor, .run .unpack]

/-- The reads at the end of `DECODE` (R304). -/
def State.decoded (s : State) : List Symbol :=
  (List.range (s.see (.reg .tlen)).toNat).map
    (fun i => (s.see (.text (BitVec.ofNat 16 i))).setWidth 8)

/-- The driver's checks before DECODE (R306, R133), in the model's order (log 24). -/
def decodeInputError (b k : List Byte) (table : List (Symbol × Code)) : Option InputError :=
  if !payloadFits b then some .ciphertextTooLong
  else if !keyFits k then some .keyTooLong
  else if !tableFits table then some .malformedTable
  else none

/-- `DECODE b, k, c, pad` (R304), after the driver's own checks (R306). -/
def runDecode (b k : List Byte) (table : List (Symbol × Code)) (p : Int) (s : State) : HostResult :=
  match decodeInputError b k table with
  | some e => refuseInput s e
  | none => play s (decodeLines b k table p)

/-- A symbol as the software interface carries it, a number: it must be one byte (R306). -/
def readSymbol (n : Nat) : Except InputError Symbol :=
  if n < Config.nSym then .ok (BitVec.ofNat 8 n) else .error .symbolNotByte

/-- A text as the software interface carries it (R306). -/
def readText : List Nat → Except InputError (List Symbol)
  | [] => .ok []
  | n :: ns =>
    match readSymbol n, readText ns with
    | .ok c, .ok cs => .ok (c :: cs)
    | .error e, _ => .error e
    | _, .error e => .error e

/-- A character of a code string: "0" or "1" (R133, R306). -/
def readDigit (c : Char) : Option Bool :=
  if c = '0' then some false else if c = '1' then some true else none

/-- The digits of a code string, if all its characters are digits: character j is digit j (R133). -/
def readDigits : List Char → Option Code
  | [] => some []
  | c :: cs =>
    match readDigit c, readDigits cs with
    | some d, some ds => some (d :: ds)
    | _, _ => none

/-- The document's code table, a mapping from symbols to strings, as the digits HXC holds (R133). The
lengths of the codes are checked with the whole table. -/
def readTable : List (Nat × List Char) → Except InputError (List (Symbol × Code))
  | [] => .ok []
  | (n, str) :: rest =>
    match readSymbol n with
    | .error e => .error e
    | .ok c =>
      match readDigits str, readTable rest with
      | none, _ => .error .malformedTable
      | _, .error e => .error e
      | some d, .ok es => .ok ((c, d) :: es)

/-- The string a software layer prints for a code (R133, R302). -/
def printCode (d : Code) : List Char := d.map (fun b => if b then '1' else '0')

/-- ENCODE behind the software interface: the checks of R306 that concern its own types, then `runEncode`. -/
def softwareEncode (t : List Nat) (k : List Byte) (s : State) : HostResult :=
  match readText t with
  | .error e => refuseInput s e
  | .ok cs => runEncode cs k s

/-- The code table a software layer gives out, as strings (R133, R302). -/
def Encoded.strings (r : Encoded) : List (Nat × List Char) :=
  r.table.map (fun e => (e.1.toNat, printCode e.2))

/-- DECODE behind the software interface: the checks of R306 that concern its own types, then `runDecode`. -/
def softwareDecode (b k : List Byte) (table : List (Nat × List Char)) (p : Int) (s : State) : HostResult :=
  match readTable table with
  | .error e => refuseInput s e
  | .ok es => runDecode b k es p s

end Sys2Proof.Machine
end

