-- ==== Sys2Proof/Safety.lean ====
section
/-! DEFINITION. What a well-kept HXC is, in the terms the statements use: the invariants the spec gives, and
the relations "unchanged" between two states. -/

namespace Sys2Proof.Machine

/-- The status registers agree with each other: DONE and ERR are never both 1 and both are 0 while BUSY
(spec/60_exceptions.md R346); CAUSE and INFO are 0 unless ERR = 1 (spec/10_state.md R38, R39), and then CAUSE
is a code some command raises (spec/60_exceptions.md R331, V6). -/
def State.StatusOk (s : State) : Prop :=
  ¬ (s.done = true ∧ s.err = true) ∧
  (s.phase = .busy → s.done = false ∧ s.err = false) ∧
  (s.err = false → s.cause = 0#4 ∧ s.info = 0#32) ∧
  (s.err = true → s.cause ∈ [1#4, 2#4, 3#4, 5#4, 6#4, 7#4, 8#4])

/-- KLEN is legal (spec/10_state.md R29); every value of the other lengths is (R26, R27). -/
def State.LengthsOk (s : State) : Prop := s.klen.toNat ≤ Config.keyMax

/-- Every array keeps its canonical form and its extent (spec/10_state.md R45 to R51; log 6), and FREQ and
CLEN, which every reset clears (R60), are never unspecified. -/
def State.MemoryOk (s : State) : Prop :=
  s.text.wf Config.textMax = true ∧
  s.pay.wf Config.payMax = true ∧
  s.key.wf Config.keyMax = true ∧
  s.freq.wf Config.nSym = true ∧
  s.clen.wf Config.nSym = true ∧
  s.cbit.wf (Config.nSym * Config.cbitWords) = true ∧
  s.node.wf Config.nodeMax = true ∧
  s.freq.fill = .zero ∧
  s.clen.fill = .zero

/-- Children come before their parent (spec/10_state.md R52 (b), first half). -/
def State.ChildrenBelow (s : State) : Prop :=
  ∀ h : Handle, h.toNat < s.nnode.toNat → (s.nodeAt h).leaf = false →
    (s.nodeAt h).left.toNat < h.toNat ∧ (s.nodeAt h).right.toNat < h.toNat

/-- ROOT points into the arena (spec/10_state.md R40, R41). -/
def State.RootInside (s : State) : Prop :=
  s.rootValid = true → s.rootH.toNat < s.nnode.toNat

/-- Handle `c` is a child of internal node `p`. -/
def State.IsChild (s : State) (p c : Handle) : Prop :=
  (s.nodeAt p).leaf = false ∧ ((s.nodeAt p).left = c ∨ (s.nodeAt p).right = c)

/-- The number of leaves of the tree, (NNODE + 1) div 2 (spec/10_state.md R52 (e)). -/
def State.leafCount (s : State) : Nat := (s.nnode.toNat + 1) / 2

/-- The arena satisfies R52, together with R40 and R41: null tree and NNODE = 0, or a tree of an odd number
of nodes whose root is the last. -/
def State.TreeOk (s : State) : Prop :=
  (s.rootValid = false → s.rootH = 0#9 ∧ s.nnode = 0#10) ∧
  (s.rootValid = true →
    s.nnode.toNat % 2 = 1 ∧ s.nnode.toNat ≤ Config.nodeMax ∧ s.rootH.toNat + 1 = s.nnode.toNat) ∧
  -- (a), with the two record forms of spec/30_encoding.md R136
  (∀ h : Handle, h.toNat < s.nnode.toNat →
    ((s.nodeAt h).leaf = true → (s.nodeAt h).left = 0#9 ∧ (s.nodeAt h).right = 0#9) ∧
    ((s.nodeAt h).leaf = false → (s.nodeAt h).sym = 0#8)) ∧
  -- (b)
  s.ChildrenBelow ∧
  (∀ h : Handle, h.toNat < s.nnode.toNat → (s.nodeAt h).leaf = false →
    (s.nodeAt h).left ≠ (s.nodeAt h).right) ∧
  -- (c)
  (∀ c : Handle, c.toNat < s.nnode.toNat → c ≠ s.rootH →
    ∃! p : Handle, p.toNat < s.nnode.toNat ∧ s.IsChild p c) ∧
  (∀ p : Handle, p.toNat < s.nnode.toNat → ¬ s.IsChild p s.rootH) ∧
  -- (d)
  (∀ h : Handle, h.toNat < s.nnode.toNat → (s.nodeAt h).leaf = false →
    (s.nodeAt h).freq.toNat =
      (s.nodeAt (s.nodeAt h).left).freq.toNat + (s.nodeAt (s.nodeAt h).right).freq.toNat) ∧
  -- (e)
  (∀ h : Handle, h.toNat < s.nnode.toNat →
    ((s.nodeAt h).leaf = true ↔ h.toNat < s.leafCount)) ∧
  (∀ g h : Handle, g.toNat < h.toNat → h.toNat < s.leafCount →
    (s.nodeAt g).sym.toNat < (s.nodeAt h).sym.toNat)

/-- key(a) < key(b) of the priority queue's order (spec/42_build.md R204). -/
def State.KeyLess (s : State) (a b : Handle) : Prop :=
  (s.nodeAt a).freq.toNat < (s.nodeAt b).freq.toNat ∨
    ((s.nodeAt a).freq.toNat = (s.nodeAt b).freq.toNat ∧ a.toNat < b.toNat)

/-- Handle `x` is still in the priority queue when node `h` is made: it is older, and no node older than
`h` has it as a child (spec/42_build.md R203, R208). -/
def State.QueuedAt (s : State) (h x : Handle) : Prop :=
  x.toNat < h.toNat ∧ ∀ p : Handle, p.toNat < h.toNat → ¬ s.IsChild p x

/-- The symbols of the frequency mapping, in ascending order (spec/10_state.md R48). -/
def State.presentSymbols (s : State) : List Symbol :=
  allSymbols.filter (fun c => decide (s.freqAt c ≠ 0#16))

/-- How many present symbols are smaller than `c` (spec/42_build.md R206). -/
def State.rankOf (s : State) (c : Symbol) : Nat :=
  (s.presentSymbols.filter (fun d => decide (d.toNat < c.toNat))).length

/-- The digits `ds` lead from node `h` down to node `x`, 0 to the left and 1 to the right
(spec/43_gen.md R232). -/
def State.IsPath (s : State) (h : Handle) : Code → Handle → Prop
  | [], x => x = h
  | d :: ds, x =>
    (s.nodeAt h).leaf = false ∧
      s.IsPath (if d then (s.nodeAt h).right else (s.nodeAt h).left) ds x

/-- `c` is what the walk emits for its own code: it has an entry, no shorter entry completes first, and no
smaller symbol has the same code (spec/45_unpack.md R274, R276). -/
def State.Emits (s : State) (c : Symbol) : Prop :=
  s.codeOf c ≠ [] ∧ ∀ b : Symbol, s.codeOf b ≠ [] → s.codeOf b <+: s.codeOf c →
    s.codeOf b = s.codeOf c ∧ c.toNat ≤ b.toNat

/-- No entry of the table is a prefix of `rest`: a walk over it never completes a match (R277). -/
def State.NoMatchIn (s : State) (rest : List Bool) : Prop :=
  ∀ b : Symbol, s.codeOf b ≠ [] → ¬ s.codeOf b <+: rest

/-- The bit stream of a sequence of symbols under the table (spec/30_encoding.md R141). -/
def State.streamOf (s : State) (ts : List Symbol) : List Bool := (ts.map s.codeOf).flatten

/-- The table in CLEN and CBIT is prefix-free (spec/30_encoding.md R134). -/
def State.PrefixFree (s : State) : Prop :=
  ∀ a b : Symbol, a ≠ b → s.codeOf a ≠ [] → s.codeOf b ≠ [] → ¬ s.codeOf a <+: s.codeOf b

/-- The engine can be asked for a command: rst_n high, IDLE, no fault pending (spec/40_common.md R160). -/
def State.Ready (s : State) : Prop := s.rstN = true ∧ s.phase = .idle ∧ s.err = false

/-- The engine's turn is the next one taken: none waits, or the engine's is first (log 1). -/
def State.EngineTurn (s : State) : Prop := s.turns = [] ∨ ∃ rest, s.turns = .engine :: rest

/-- The next turn is a reset: the pin driven low, the pin driven high after it was low, or, with the pin
high, a CTRL write with data bit 31 = 1 (spec/70_reset_and_hazards.md R380, R381; log 1, log 13). -/
def State.ResetTurn (s : State) : Prop :=
  (∃ level rest, s.turns = .rstN level :: rest ∧ (level = false ∨ s.rstN = false)) ∨
  (s.rstN = true ∧ ∃ v rest, s.turns = .host (.write 0x00003#18 v) :: rest ∧ v.getLsbD 31 = true)

/-- The model's own fields, the port's answer and the reset pin are as before. -/
def SameOutside (s t : State) : Prop :=
  t.rstN = s.rstN ∧ t.resp = s.resp ∧ t.turns = s.turns ∧ t.draws = s.draws

/-- The port's answer, the turns to come and the reset pin are as before. -/
def SamePins (s t : State) : Prop := t.rstN = s.rstN ∧ t.resp = s.resp ∧ t.turns = s.turns

/-- CTRL and CMDLATCH are as before. -/
def SameControl (s t : State) : Prop :=
  t.ieDone = s.ieDone ∧ t.ieErr = s.ieErr ∧ t.cmdLatch = s.cmdLatch

/-- ERR, CAUSE and INFO are as before. -/
def SameFault (s t : State) : Prop :=
  t.err = s.err ∧ t.cause = s.cause ∧ t.info = s.info

/-- TLEN and every element of TEXT are as before. -/
def SameText (s t : State) : Prop := t.tlen = s.tlen ∧ ∀ i, t.textAt i = s.textAt i

/-- PLEN, PAD and every element of PAY are as before. -/
def SamePayload (s t : State) : Prop :=
  t.plen = s.plen ∧ t.pad = s.pad ∧ ∀ i, t.payAt i = s.payAt i

/-- KLEN and every element of KEY are as before. -/
def SameKey (s t : State) : Prop := t.klen = s.klen ∧ ∀ i, t.keyAt i = s.keyAt i

/-- Every element of FREQ is as before. -/
def SameFreq (s t : State) : Prop := ∀ c, t.freqAt c = s.freqAt c

/-- ROOT, NNODE and every element of NODE are as before. -/
def SameTree (s t : State) : Prop :=
  t.rootValid = s.rootValid ∧ t.rootH = s.rootH ∧ t.nnode = s.nnode ∧ ∀ h, t.nodeAt h = s.nodeAt h

/-- Every element of CLEN and every word of CBIT is as before. -/
def SameTable (s t : State) : Prop :=
  (∀ c, t.clenAt c = s.clenAt c) ∧ ∀ c k, t.cbitAt c k = s.cbitAt c k

/-- Every operand register and every element of every array is as before. -/
def SameData (s t : State) : Prop :=
  SameText s t ∧ SamePayload s t ∧ SameKey s t ∧ SameFreq s t ∧ SameTree s t ∧ SameTable s t

/-- Every register is at its reset value and FREQ and CLEN are all 0 (spec/10_state.md R60). -/
def State.InReset (t : State) : Prop :=
  t.phase = .idle ∧ t.cmdLatch = 0#32 ∧ t.done = false ∧ t.err = false ∧ t.empty = false ∧
  t.ieDone = false ∧ t.ieErr = false ∧ t.cause = 0#4 ∧ t.info = 0#32 ∧ t.tlen = 0#16 ∧
  t.plen = 0#16 ∧ t.pad = 0#32 ∧ t.klen = 0#9 ∧ t.rootValid = false ∧ t.rootH = 0#9 ∧
  t.nnode = 0#10 ∧ (∀ c, t.freqAt c = 0#16) ∧ ∀ c, t.clenAt c = 0#8

/-- The command ended successfully with this value in EMPTY (spec/40_common.md R163). -/
def EndedWell (t : State) (e : Bool) : Prop := t.done = true ∧ t.empty = e ∧ t.phase = .idle

/-- The command ended with fault `f`; DONE and EMPTY as before (spec/60_exceptions.md R340). -/
def EndedInFault (s t : State) (f : HxcFault) : Prop :=
  t.err = true ∧ t.cause = f.code ∧ t.info = f.infoWord ∧ t.done = s.done ∧ t.empty = s.empty ∧
    t.phase = .idle

end Sys2Proof.Machine
end

