-- ==== Sys2Proof/Certificates/Slice0/Obligations.lean ====
section
/-! DEFINITION. The statements for the provers, taken from the numbered rules of spec/ file by file. A
statement about a command concludes that it answers a next state, says what that state holds, and what
it leaves alone. -/

open Sys2Proof Sys2Proof.Machine

-- Encoding -----------------------------------------------------------------------------------------

/-- The eight words of the opcode map, written out, decode to their commands (R121). -/
def Obligations.CommandWordsDecode : Prop :=
  decode 0x00000000#32 = .ok .nop ∧ decode 0x00000001#32 = .ok .clr ∧
  decode 0x00000002#32 = .ok .cnt ∧ decode 0x00000003#32 = .ok .build ∧
  decode 0x00000004#32 = .ok .gen ∧ decode 0x00000005#32 = .ok .pack ∧
  decode 0x00000006#32 = .ok .unpack ∧ decode 0x00000007#32 = .ok .xor

/-- R121: over all 2^32 words, a word is defined exactly when ZERO = 0 and OP is one of eight values, and
then it is the one word of its command. -/
def Obligations.DecodeInvertsEncode : Prop :=
  (∀ (w : Word) (i : Instr), decode w = .ok i ↔ w = encode i) ∧
  (∀ w : Word, (∃ i, decode w = .ok i) ↔
    w.extractLsb' 8 24 = 0#24 ∧ (w.extractLsb' 0 8).toNat < 8) ∧
  encode .nop = 0x00000000#32 ∧ encode .clr = 0x00000001#32 ∧ encode .cnt = 0x00000002#32 ∧
  encode .build = 0x00000003#32 ∧ encode .gen = 0x00000004#32 ∧ encode .pack = 0x00000005#32 ∧
  encode .unpack = 0x00000006#32 ∧ encode .xor = 0x00000007#32

/-- R84 and addr(loc) of R150: every location HXC has is found again at its own address, and every mapped
address is the address of one location HXC has. -/
def Obligations.AddressMapRoundTrip : Prop :=
  (∀ l : Location, l.wf = true → locate (addrOf l) = some l) ∧
  ∀ (a : Addr) (l : Location), locate a = some l → l.wf = true ∧ addrOf l = a

/-- R135: where the fields of a node stand in its two port words, and that these words are what an IDLE
read of NODE gives. -/
def Obligations.NodeWordLayout : Prop :=
  (∀ (s : State) (h : Handle) (k : BitVec 1), s.rstN = true → s.phase = .idle → h.toNat < Config.nodeMax →
    (s.rd (.node h k)).resp = some (.value (nodeWord (s.nodeAt h) k))) ∧
  ∀ n : Node,
    (nodeWord n 0#1).extractLsb' 24 8 = n.sym ∧ (nodeWord n 0#1).extractLsb' 0 24 = n.freq ∧
    (nodeWord n 1#1).getLsbD 31 = n.leaf ∧ (nodeWord n 1#1).extractLsb' 25 6 = 0#6 ∧
    (nodeWord n 1#1).extractLsb' 16 9 = n.right ∧ (nodeWord n 1#1).extractLsb' 9 7 = 0#7 ∧
    (nodeWord n 1#1).extractLsb' 0 9 = n.left

-- Steps and the lifecycle of a command -------------------------------------------------------------

/-- The engine's turn runs the command CMDLATCH decodes to (R162); the step only takes the turn off the
list (log 1). -/
def Obligations.EngineStepRunsDecodedCommand : Prop :=
  ∀ (s : State) (i : Instr), s.rstN = true → s.phase = .busy → decode s.cmdLatch = .ok i →
    (s.turns = [] → step s = exec i s) ∧
    (∀ rest, s.turns = .engine :: rest → step s = exec i { s with turns := rest })

/-- The other turns: while IDLE the engine has no step and the state is retained (R21, R367); a host turn is
one access and nothing else (R81). The list of turns is the model's own (log 1). -/
def Obligations.IdleAndHostTurns : Prop :=
  ∀ s : State,
    (s.phase = .idle → s.turns = [] → step s = .next s) ∧
    (s.phase = .idle → ∀ rest, s.turns = .engine :: rest → step s = .next { s with turns := rest }) ∧
    ∀ a rest, s.turns = .host a :: rest →
      step s = .next (State.hostAccess { s with turns := rest } a)

/-- R160, R161: a CMD write is accepted exactly when IDLE with ERR = 0; acceptance latches the word, clears
DONE and makes the engine BUSY; otherwise nothing changes. -/
def Obligations.CmdWriteAcceptedOrRejected : Prop :=
  ∀ (s : State) (w : Word), s.rstN = true →
    s.hostAccess (.write 0x00001#18 w) =
      if s.phase = .idle ∧ s.err = false then
        { s with cmdLatch := w, done := false, phase := .busy, resp := some .written }
      else { s with resp := some .writeError }

/-- R165, R339: an undefined word raises IllegalCommand with the word in INFO, and nothing else changes. -/
def Obligations.UndefinedWordRaisesIllegalCommand : Prop :=
  ∀ s : State, s.rstN = true → s.phase = .busy → 8 ≤ s.cmdLatch.toNat →
    engineStep s = .next { s with err := true, cause := 8#4, info := s.cmdLatch, phase := .idle }

/-- R163, R164, R166: the engine's step of a latched command ends it, IDLE, with exactly one of DONE and ERR. -/
def Obligations.LatchedCommandEnds : Prop :=
  ∀ s : State, s.rstN = true → s.phase = .busy → s.StatusOk → s.TreeOk →
    ∃ t, engineStep s = .next t ∧ t.phase = .idle ∧ (t.done = true ↔ t.err = false)

/-- R23: PHASE changes in exactly three ways: a CMD write accepted, the engine's execute step ended, a hard
or soft reset. Which turn is taken is read off the model's own list, whose end means the engine (log 1). -/
def Obligations.PhaseChangesInThreeWays : Prop :=
  ∀ s t : State, step s = .next t → t.phase ≠ s.phase →
    (s.rstN = true ∧ s.phase = .idle ∧ t.phase = .busy ∧ s.err = false ∧
      ∃ w rest, s.turns = .host (.write 0x00001#18 w) :: rest ∧ t.cmdLatch = w) ∨
    (s.rstN = true ∧ s.phase = .busy ∧ t.phase = .idle ∧ s.EngineTurn ∧
      (t.done = true ∨ t.err = true)) ∨
    (s.ResetTurn ∧ t.phase = .idle ∧ t.InReset)

-- Invariants ---------------------------------------------------------------------------------------

/-- The reset state satisfies every invariant below (R60, R52). The canonical form of the arrays in MemoryOk
is the model's choice (log 6). -/
def Obligations.ResetSatisfiesInvariants : Prop :=
  State.reset.StatusOk ∧ State.reset.LengthsOk ∧ State.reset.MemoryOk ∧ State.reset.TreeOk ∧
    State.reset.InReset

/-- R346 with R38, R39, R331: every step keeps DONE and ERR apart, CAUSE and INFO 0 without ERR, and CAUSE
among the codes that are raised. -/
def Obligations.StepKeepsStatusOk : Prop :=
  ∀ s t : State, s.StatusOk → step s = .next t → t.StatusOk

/-- R29, R168 and the canonical form of the arrays: every step keeps KLEN legal and every array in its
extent and in canonical form (log 6). -/
def Obligations.StepKeepsMemoryCanonical : Prop :=
  ∀ s t : State, s.MemoryOk → s.LengthsOk → step s = .next t → t.MemoryOk ∧ t.LengthsOk

/-- R52, R40, R41: every step keeps the arena a tree, children before parents. -/
def Obligations.StepKeepsTreeOk : Prop :=
  ∀ s t : State, s.TreeOk → step s = .next t → t.TreeOk

/-- R218: only an execution of BUILD or CLR and a hard or soft reset change NODE, ROOT and NNODE. Which turn
is taken is read off the model's own list (log 1). -/
def Obligations.OnlyBuildClrAndResetChangeTree : Prop :=
  ∀ s t : State, step s = .next t → ¬ SameTree s t →
    (s.rstN = true ∧ s.phase = .busy ∧ s.EngineTurn ∧ t.done = true ∧
      (decode s.cmdLatch = .ok .build ∨ decode s.cmdLatch = .ok .clr)) ∨
    (s.ResetTurn ∧ t.InReset)

-- NOP and CLR --------------------------------------------------------------------------------------

/-- R170: NOP ends well, EMPTY unchanged, and changes nothing else; with IE_DONE irq rises. -/
def Obligations.NopOnlyEnds : Prop :=
  ∀ s : State, ∃ t, exec .nop s = .next t ∧ EndedWell t s.empty ∧ (s.ieDone = true → t.irq = true) ∧
    SameData s t ∧ SameControl s t ∧ SameFault s t ∧ SameOutside s t

/-- R171: what CLR clears, EMPTY <- 0, and what it leaves: the elements of TEXT, PAY, KEY and NODE, and CTRL. -/
def Obligations.ClrDiscardsOperands : Prop :=
  encode .clr = 0x00000001#32 ∧
  ∀ s : State, ∃ t, exec .clr s = .next t ∧ EndedWell t false ∧
    t.tlen = 0#16 ∧ t.plen = 0#16 ∧ t.pad = 0#32 ∧ t.klen = 0#9 ∧
    t.rootValid = false ∧ t.rootH = 0#9 ∧ t.nnode = 0#10 ∧
    (∀ c, t.freqAt c = 0#16) ∧ (∀ c, t.clenAt c = 0#8) ∧ (∀ c k, t.cbitAt c k = 0#32) ∧
    (∀ i, t.textAt i = s.textAt i) ∧ (∀ i, t.payAt i = s.payAt i) ∧ (∀ i, t.keyAt i = s.keyAt i) ∧
    (∀ h, t.nodeAt h = s.nodeAt h) ∧ SameControl s t ∧ SameFault s t ∧ SameOutside s t

-- CNT ----------------------------------------------------------------------------------------------

/-- R190, R193: CNT writes to FREQ[c] how often c occurs in TEXT[0 .. TLEN-1], for every symbol, EMPTY <- 1
exactly when TLEN = 0, and changes nothing else. -/
def Obligations.CntCountsSymbols : Prop :=
  encode .cnt = 0x00000002#32 ∧
  ∀ s : State, ∃ t, exec .cnt s = .next t ∧ EndedWell t (decide (s.tlen = 0#16)) ∧
    (∀ c, (t.freqAt c).toNat = s.textSymbols.count c) ∧
    SameText s t ∧ SamePayload s t ∧ SameKey s t ∧ SameTree s t ∧ SameTable s t ∧
    SameControl s t ∧ SameFault s t ∧ SameOutside s t

-- BUILD --------------------------------------------------------------------------------------------

/-- R207: on an all-zero FREQ BUILD writes no node and ends well with the null tree and EMPTY = 1. -/
def Obligations.BuildNullTree : Prop :=
  ∀ s : State, (∀ c, s.freqAt c = 0#16) →
    ∃ t, exec .build s = .next t ∧ EndedWell t true ∧
      t.rootValid = false ∧ t.rootH = 0#9 ∧ t.nnode = 0#10 ∧ (∀ h, t.nodeAt h = s.nodeAt h) ∧
      SameText s t ∧ SamePayload s t ∧ SameKey s t ∧ SameFreq s t ∧ SameTable s t ∧
      SameControl s t ∧ SameFault s t ∧ SameOutside s t

/-- R210: on exactly one non-zero entry the tree is that one leaf at handle 0, ROOT = 0x80000000, NNODE = 1,
EMPTY = 0; no other node is written. -/
def Obligations.BuildSingleLeaf : Prop :=
  ∀ (s : State) (c : Symbol), s.freqAt c ≠ 0#16 → (∀ d, d ≠ c → s.freqAt d = 0#16) →
    ∃ t, exec .build s = .next t ∧ EndedWell t false ∧ t.rootWord = 0x80000000#32 ∧ t.nnode = 1#10 ∧
      t.nodeAt 0#9 = leafNode c (zext24 (s.freqAt c)) ∧
      (∀ h, h ≠ 0#9 → t.nodeAt h = s.nodeAt h)

/-- R209, R215, R61: on n0 >= 1 non-zero entries BUILD ends well with NNODE = 2 n0 - 1, ROOT valid at
NNODE - 1, the root's frequency the sum of all entries, and leaves alone the nodes from NNODE on and
everything outside NODE, ROOT and NNODE. -/
def Obligations.BuildPlantsRoot : Prop :=
  ∀ s : State, s.presentSymbols ≠ [] →
    ∃ t, exec .build s = .next t ∧ EndedWell t false ∧ t.rootValid = true ∧
      t.nnode.toNat = 2 * s.presentSymbols.length - 1 ∧ t.rootH.toNat + 1 = t.nnode.toNat ∧
      (t.nodeAt t.rootH).freq.toNat = (allSymbols.map (fun c => (s.freqAt c).toNat)).sum ∧
      (∀ h : Handle, t.nnode.toNat ≤ h.toNat → t.nodeAt h = s.nodeAt h) ∧
      SameText s t ∧ SamePayload s t ∧ SameKey s t ∧ SameFreq s t ∧ SameTable s t ∧
      SameControl s t ∧ SameFault s t ∧ SameOutside s t

/-- R206: every present symbol has one leaf, at the handle that counts the smaller present symbols, and
there is no other leaf. -/
def Obligations.BuildLeavesInSymbolOrder : Prop :=
  ∀ s : State, ∃ t, exec .build s = .next t ∧
    (∀ c, s.freqAt c ≠ 0#16 →
      s.rankOf c < t.nnode.toNat ∧
      t.nodeAt (BitVec.ofNat 9 (s.rankOf c)) = leafNode c (zext24 (s.freqAt c))) ∧
    (∀ h : Handle, h.toNat < t.nnode.toNat → (t.nodeAt h).leaf = true →
      ∃ c, s.freqAt c ≠ 0#16 ∧ h.toNat = s.rankOf c)

/-- R204, R208: every internal node has the least and the second least of the nodes queued when it is made
as its left and right child, by the key (frequency, handle). -/
def Obligations.BuildMergesTwoLeast : Prop :=
  ∀ s : State, ∃ t, exec .build s = .next t ∧
    ∀ h : Handle, h.toNat < t.nnode.toNat → (t.nodeAt h).leaf = false →
      t.QueuedAt h (t.nodeAt h).left ∧ t.QueuedAt h (t.nodeAt h).right ∧
      t.KeyLess (t.nodeAt h).left (t.nodeAt h).right ∧
      (∀ x : Handle, t.QueuedAt h x → x ≠ (t.nodeAt h).left → x ≠ (t.nodeAt h).right →
        t.KeyLess (t.nodeAt h).right x) ∧
      (t.nodeAt h).freq.toNat =
        (t.nodeAt (t.nodeAt h).left).freq.toNat + (t.nodeAt (t.nodeAt h).right).freq.toNat

/-- R52: the arena is a tree after every successful BUILD, at reset and after CLR. -/
def Obligations.BuildMakesTree : Prop :=
  State.reset.TreeOk ∧ (∀ s : State, ∃ t, exec .clr s = .next t ∧ t.TreeOk) ∧
    ∀ s : State, ∃ t, exec .build s = .next t ∧ t.TreeOk

/-- R211: BUILD's result is a function of the 256 values of FREQ alone. -/
def Obligations.BuildDependsOnFreqOnly : Prop :=
  ∀ s₁ s₂ : State, (∀ c, s₁.freqAt c = s₂.freqAt c) →
    ∃ t₁ t₂, exec .build s₁ = .next t₁ ∧ exec .build s₂ = .next t₂ ∧
      t₁.rootValid = t₂.rootValid ∧ t₁.rootH = t₂.rootH ∧ t₁.nnode = t₂.nnode ∧ t₁.empty = t₂.empty ∧
      ∀ h : Handle, h.toNat < t₁.nnode.toNat → t₁.nodeAt h = t₂.nodeAt h

-- GEN ----------------------------------------------------------------------------------------------

/-- R234: on the null tree GEN writes the empty table, sets EMPTY and ends well. -/
def Obligations.GenNullTreeEmptyTable : Prop :=
  ∀ s : State, s.rootValid = false →
    ∃ t, exec .gen s = .next t ∧ EndedWell t true ∧
      (∀ c, t.clenAt c = 0#8) ∧ (∀ c k, t.cbitAt c k = 0#32) ∧
      SameText s t ∧ SamePayload s t ∧ SameKey s t ∧ SameFreq s t ∧ SameTree s t ∧
      SameControl s t ∧ SameFault s t ∧ SameOutside s t

/-- R233: on a single leaf its symbol gets the code "0" and every other CLEN element is 0; R235: every bit of
CBIT at and beyond CLEN is 0. -/
def Obligations.GenSingleLeafCodeZero : Prop :=
  ∀ s : State, s.rootValid = true → (s.nodeAt s.rootH).leaf = true →
    ∃ t, exec .gen s = .next t ∧ EndedWell t false ∧
      t.codeOf (s.nodeAt s.rootH).sym = [false] ∧
      (∀ c, c ≠ (s.nodeAt s.rootH).sym → t.clenAt c = 0#8) ∧
      ∀ c j, (t.clenAt c).toNat ≤ j → j < 256 → t.digitAt c j = false

/-- GEN completes on every arena whose children come before their parents (R230, R52 (b)), and changes
nothing but CLEN, CBIT and STATUS (R239 (g)). -/
def Obligations.GenCompletesAndKeepsRest : Prop :=
  ∀ s : State, s.rootValid = true → s.ChildrenBelow → s.RootInside →
    ∃ t, exec .gen s = .next t ∧ EndedWell t false ∧
      SameText s t ∧ SamePayload s t ∧ SameKey s t ∧ SameFreq s t ∧ SameTree s t ∧
      SameControl s t ∧ SameFault s t ∧ SameOutside s t

/-- R232: in a tree of two or more leaves the code of the symbol at a leaf is the digits of the path from
the root to it; R235: every bit of CBIT at and beyond CLEN is 0, for every symbol. -/
def Obligations.GenCodeIsPath : Prop :=
  ∀ s : State, s.TreeOk → s.rootValid = true → (s.nodeAt s.rootH).leaf = false →
    ∃ t, exec .gen s = .next t ∧
      (∀ (ds : Code) (x : Handle), s.IsPath s.rootH ds x → (s.nodeAt x).leaf = true →
        t.codeOf (s.nodeAt x).sym = ds ∧ 0 < ds.length) ∧
      ∀ c j, (t.clenAt c).toNat ≤ j → j < 256 → t.digitAt c j = false

/-- R236, R237: after GEN on a tree a symbol has an entry exactly when it is a leaf's, and the table is
prefix-free; every leaf's path from the root has at most n0 - 1 digits, n0 the number of leaves, so at
most CODE_MAX. -/
def Obligations.GenTablePrefixFree : Prop :=
  ∀ s : State, s.TreeOk →
    ∃ t, exec .gen s = .next t ∧ t.PrefixFree ∧
      (∀ c, t.codeOf c ≠ [] ↔
        ∃ h : Handle, h.toNat < s.nnode.toNat ∧ (s.nodeAt h).leaf = true ∧ (s.nodeAt h).sym = c) ∧
      (s.rootValid = true → s.leafCount ≤ Config.codeMax + 1 ∧
        ∀ (ds : Code) (x : Handle), s.IsPath s.rootH ds x → (s.nodeAt x).leaf = true →
          ds.length + 1 ≤ s.leafCount)

/-- R235, R238: the table GEN writes is a function of the tree alone: equal trees give the same CLEN and
CBIT, whatever stood there. -/
def Obligations.GenDependsOnTreeOnly : Prop :=
  ∀ s₁ s₂ : State, s₁.ChildrenBelow → s₁.RootInside →
    s₁.rootValid = s₂.rootValid → s₁.rootH = s₂.rootH → s₁.nnode = s₂.nnode →
    (∀ h : Handle, h.toNat < s₁.nnode.toNat → s₁.nodeAt h = s₂.nodeAt h) →
    ∃ t₁ t₂, exec .gen s₁ = .next t₁ ∧ exec .gen s₂ = .next t₂ ∧ t₁.empty = t₂.empty ∧ SameTable t₁ t₂

-- PACK ---------------------------------------------------------------------------------------------

/-- R252, R141, R255: when every symbol of the text has an entry and the digits fit, PACK ends well with
PAD and PLEN by the formulas, bit p of the payload equal to digit p of the stream (0 in the filler), and
nothing else changed. -/
def Obligations.PackStoresBitStream : Prop :=
  ∀ s : State, (∀ c ∈ s.textSymbols, s.codeOf c ≠ []) →
    (s.streamOf s.textSymbols).length ≤ 8 * Config.payMax →
    ∃ t, exec .pack s = .next t ∧ EndedWell t (decide (s.tlen = 0#16)) ∧
      t.pad.toNat = (8 - (s.streamOf s.textSymbols).length % 8) % 8 ∧
      8 * t.plen.toNat = (s.streamOf s.textSymbols).length + t.pad.toNat ∧
      (∀ p, p < 8 * t.plen.toNat → t.payBit p = (s.streamOf s.textSymbols).getD p false) ∧
      (∀ k, t.plen.toNat ≤ k → t.payAt k = s.payAt k) ∧
      SameText s t ∧ SameKey s t ∧ SameFreq s t ∧ SameTree s t ∧ SameTable s t ∧
      SameControl s t ∧ SameFault s t ∧ SameOutside s t

/-- R253, R336, R341: the first symbol without an entry, all before it fitting, raises MissingCode with its
index; everything but PAY, PLEN and PAD (which become unspecified) stays. -/
def Obligations.PackMissingCodeFaults : Prop :=
  ∀ (s : State) (pre post : List Symbol) (c : Symbol), s.textSymbols = pre ++ c :: post →
    (∀ d ∈ pre, s.codeOf d ≠ []) → (s.streamOf pre).length ≤ 8 * Config.payMax → s.codeOf c = [] →
    ∃ t, exec .pack s = .next t ∧ EndedInFault s t (.missingCode pre.length) ∧ t.cause = 5#4 ∧
      t.info.toNat = pre.length ∧
      SameText s t ∧ SameKey s t ∧ SameFreq s t ∧ SameTree s t ∧ SameTable s t ∧
      SameControl s t ∧ SamePins s t

/-- R254, R337, R341: the first symbol whose code would take the bit count over 524280 raises
PayloadOverflow with its index; everything but PAY, PLEN and PAD stays. -/
def Obligations.PackOverflowFaults : Prop :=
  ∀ (s : State) (pre post : List Symbol) (c : Symbol), s.textSymbols = pre ++ c :: post →
    (∀ d ∈ pre, s.codeOf d ≠ []) → (s.streamOf pre).length ≤ 524280 → s.codeOf c ≠ [] →
    524280 < (s.streamOf pre).length + (s.codeOf c).length →
    ∃ t, exec .pack s = .next t ∧ EndedInFault s t (.payloadOverflow pre.length) ∧ t.cause = 6#4 ∧
      t.info.toNat = pre.length ∧
      SameText s t ∧ SameKey s t ∧ SameFreq s t ∧ SameTree s t ∧ SameTable s t ∧
      SameControl s t ∧ SamePins s t

-- UNPACK -------------------------------------------------------------------------------------------

/-- R270, R274, R276, R280: when the kept bits are the codes of `out` in order, each the one the walk emits
(no shorter entry first, the least symbol of a shared code), UNPACK writes exactly `out` to TEXT and TLEN
and changes nothing else. -/
def Obligations.UnpackEmitsGreedyText : Prop :=
  ∀ (s : State) (out : List Symbol), s.pad.toNat ≤ 7 → s.keptStream = s.streamOf out →
    (∀ c ∈ out, s.Emits c) → out.length ≤ Config.textMax →
    ∃ t, exec .unpack s = .next t ∧ EndedWell t (decide (out = [])) ∧ t.tlen.toNat = out.length ∧
      t.textSymbols = out ∧ (∀ i, out.length ≤ i → t.textAt i = s.textAt i) ∧
      SamePayload s t ∧ SameKey s t ∧ SameFreq s t ∧ SameTree s t ∧ SameTable s t ∧
      SameControl s t ∧ SameFault s t ∧ SameOutside s t

/-- R272: PAD > 7 raises InvalidPadding with INFO = PAD before anything is read or written. -/
def Obligations.UnpackInvalidPadding : Prop :=
  ∀ s : State, 7 < s.pad.toNat →
    ∃ t, exec .unpack s = .next t ∧ EndedInFault s t (.invalidPadding s.pad) ∧ t.cause = 3#4 ∧
      t.info = s.pad ∧ SameData s t ∧ SameControl s t ∧ SameOutside s t

/-- R277, R333, R341: digits left over after the last emitted symbol raise UnknownSymbolInCode with the
position of the first of them; everything but TEXT and TLEN stays. -/
def Obligations.UnpackUnknownSymbolFaults : Prop :=
  ∀ (s : State) (out : List Symbol) (rest : List Bool), s.pad.toNat ≤ 7 →
    s.keptStream = s.streamOf out ++ rest → (∀ c ∈ out, s.Emits c) → out.length ≤ Config.textMax →
    rest ≠ [] → s.NoMatchIn rest →
    ∃ t, exec .unpack s = .next t ∧
      EndedInFault s t (.unknownSymbolInCode (s.streamOf out).length) ∧ t.cause = 2#4 ∧
      t.info.toNat = (s.streamOf out).length ∧
      SamePayload s t ∧ SameKey s t ∧ SameFreq s t ∧ SameTree s t ∧ SameTable s t ∧
      SameControl s t ∧ SamePins s t

/-- R278, R338, R341: a match when 65535 symbols have been emitted raises TextOverflow with the position of
its first digit; everything but TEXT and TLEN stays. -/
def Obligations.UnpackTextOverflowFaults : Prop :=
  ∀ (s : State) (out : List Symbol) (c : Symbol) (rest : List Bool), s.pad.toNat ≤ 7 →
    s.keptStream = s.streamOf out ++ s.codeOf c ++ rest → (∀ d ∈ out, s.Emits d) → s.Emits c →
    out.length = 65535 →
    ∃ t, exec .unpack s = .next t ∧ EndedInFault s t (.textOverflow (s.streamOf out).length) ∧
      t.cause = 7#4 ∧ t.info.toNat = (s.streamOf out).length ∧
      SamePayload s t ∧ SameKey s t ∧ SameFreq s t ∧ SameTree s t ∧ SameTable s t ∧
      SameControl s t ∧ SamePins s t

/-- R281, in the reading of log 18 (no other entry is a prefix of the code of a symbol of the text): UNPACK
after a successful PACK gives the text back. -/
def Obligations.UnpackInvertsPack : Prop :=
  ∀ s : State, (∀ c ∈ s.textSymbols, s.codeOf c ≠ []) →
    (s.streamOf s.textSymbols).length ≤ 8 * Config.payMax →
    (∀ c ∈ s.textSymbols, ∀ b, b ≠ c → s.codeOf b ≠ [] → ¬ s.codeOf b <+: s.codeOf c) →
    ∃ t u, exec .pack s = .next t ∧ exec .unpack t = .next u ∧ u.done = true ∧ u.tlen = s.tlen ∧
      ∀ i, i < s.tlen.toNat → u.textAt i = s.textAt i

-- XOR ----------------------------------------------------------------------------------------------

/-- R292, R295: with KLEN not 0, byte i of the payload becomes PAY[i] xor KEY[i mod KLEN] for every
i < PLEN, EMPTY <- 1 exactly when PLEN = 0, and nothing else changes. -/
def Obligations.XorEnciphersPayload : Prop :=
  ∀ s : State, s.klen ≠ 0#9 →
    ∃ t, exec .xor s = .next t ∧ EndedWell t (decide (s.plen = 0#16)) ∧
      (∀ i, i < s.plen.toNat → t.payAt i = s.payAt i ^^^ s.keyAt (i % s.klen.toNat)) ∧
      (∀ i, s.plen.toNat ≤ i → t.payAt i = s.payAt i) ∧ t.plen = s.plen ∧ t.pad = s.pad ∧
      SameText s t ∧ SameKey s t ∧ SameFreq s t ∧ SameTree s t ∧ SameTable s t ∧
      SameControl s t ∧ SameFault s t ∧ SameOutside s t

/-- R291, R332: KLEN = 0 raises EmptyKey with INFO = 0, whatever PLEN is, and nothing else changes. -/
def Obligations.XorEmptyKeyFaults : Prop :=
  ∀ s : State, s.klen = 0#9 →
    ∃ t, exec .xor s = .next t ∧ EndedInFault s t .emptyKey ∧ t.cause = 1#4 ∧ t.info = 0#32 ∧
      SameData s t ∧ SameControl s t ∧ SameOutside s t

/-- R294: two XOR commands in a row restore the payload. -/
def Obligations.XorTwiceRestores : Prop :=
  ∀ s : State, s.klen ≠ 0#9 →
    ∃ t u, exec .xor s = .next t ∧ exec .xor t = .next u ∧ u.done = true ∧ u.err = s.err ∧
      SamePayload s u

-- The host port ------------------------------------------------------------------------------------

/-- R82, R90: an access that fails a check changes nothing of HXC; a rejected read is answered with data
nothing fixes (the model draws it: only its own counter moves, log 5). -/
def Obligations.RejectedAccessChangesNothing : Prop :=
  ∀ s : State, s.rstN = true →
    (∀ a v e, s.checkWrite a v = .error e →
      s.hostAccess (.write a v) = { s with resp := some .writeError }) ∧
    (∀ a e, s.checkRead a = .error e →
      s.hostAccess (.read a) =
        { s with resp := some (.readError (Config.freeReadData s.draws)), draws := s.draws + 1 })

/-- R95, R84: a read or a write of an unmapped address is rejected in either PHASE. -/
def Obligations.UnmappedAccessRejected : Prop :=
  ∀ (s : State) (a : Addr), s.rstN = true →
    ((0x0000C ≤ a.toNat ∧ a.toNat ≤ 0x000FF) ∨ (0x007FE ≤ a.toNat ∧ a.toNat ≤ 0x007FF) ∨
      (0x01000 ≤ a.toNat ∧ a.toNat ≤ 0x0FFFF) ∨ a.toNat = 0x1FFFF ∨ 0x2FFFF ≤ a.toNat) →
    s.hostAccess (.read a) = s.rejectRead ∧
    ∀ v, s.hostAccess (.write a v) = { s with resp := some .writeError }

/-- R91, first half: while BUSY exactly the reads of ID, CMD, STATUS, CTRL, CAUSE, INFO and the writes of
STATUS and CTRL are performed. -/
def Obligations.BusyAdmitsControlOnly : Prop :=
  ∀ s : State, s.rstN = true → s.phase = .busy → ∀ l : Location, l.wf = true →
    (l ∈ [.reg .id, .reg .cmd, .reg .status, .reg .ctrl, .reg .cause, .reg .info] →
      s.rd l = { s with resp := some (.value (s.readLocation l)) }) ∧
    (l ∉ [.reg .id, .reg .cmd, .reg .status, .reg .ctrl, .reg .cause, .reg .info] →
      s.rd l = s.rejectRead) ∧
    (∀ v, l ∈ [.reg .status, .reg .ctrl] → (s.wr l v).resp = some .written) ∧
    (∀ v, l ∉ [.reg .status, .reg .ctrl] → s.wr l v = { s with resp := some .writeError })

/-- R94: writes to ID, CAUSE, INFO, ROOT, NNODE and NODE are rejected and every other location is written
where the other checks pass; while IDLE every location can be read. R83, with R30, R31, R38 to R41: a read
of a read-only register or of an operand gives its value with upper bits 0. NODE words are in
NodeWordLayout, STATUS in StatusWordBits, CTRL in SoftResetRestoresReset. -/
def Obligations.ReadOnlyLocations : Prop :=
  (∀ s : State, s.Ready → ∀ (l : Location) (v : Word), l.wf = true →
    ((l ∈ [.reg .id, .reg .cause, .reg .info, .reg .root, .reg .nnode] ∨ ∃ h k, l = .node h k) →
      s.wr l v = { s with resp := some .writeError }) ∧
    (¬ (l ∈ [.reg .id, .reg .cause, .reg .info, .reg .root, .reg .nnode] ∨ ∃ h k, l = .node h k) →
      valueFits l v = true → (s.wr l v).resp = some .written)) ∧
  ∀ s : State, s.rstN = true → s.phase = .idle →
    (∀ l : Location, l.wf = true → (s.rd l).resp = some (.value (s.see l))) ∧
    s.see (.reg .id) = 0x48584301#32 ∧ s.see (.reg .cmd) = 0#32 ∧
    (s.see (.reg .cause)).toNat = s.cause.toNat ∧ s.see (.reg .info) = s.info ∧
    (s.see (.reg .root)).getLsbD 31 = s.rootValid ∧
    (s.see (.reg .root)).extractLsb' 9 22 = 0#22 ∧ (s.see (.reg .root)).extractLsb' 0 9 = s.rootH ∧
    (s.see (.reg .nnode)).toNat = s.nnode.toNat ∧
    (s.see (.reg .tlen)).toNat = s.tlen.toNat ∧ (s.see (.reg .plen)).toNat = s.plen.toNat ∧
    s.see (.reg .pad) = s.pad ∧ (s.see (.reg .klen)).toNat = s.klen.toNat ∧
    (∀ c, (s.see (.freq c)).toNat = (s.freqAt c).toNat) ∧
    (∀ c, (s.see (.clen c)).toNat = (s.clenAt c).toNat) ∧
    (∀ c k, s.see (.cbit c k) = s.cbitAt c k.toNat) ∧
    (∀ i, (s.see (.key i)).toNat = (s.keyAt i.toNat).toNat) ∧
    (∀ i, i.toNat < Config.textMax → (s.see (.text i)).toNat = (s.textAt i.toNat).toNat) ∧
    ∀ i, i.toNat < Config.payMax → (s.see (.pay i)).toNat = (s.payAt i.toNat).toNat

/-- R93: which data each writable location takes: 16 bits for TLEN, PLEN and FREQ, 8 bits for CLEN, KEY, TEXT
and PAY, at most 256 for KLEN, anything for PAD, CBIT, CMD, STATUS and CTRL. -/
def Obligations.WriteValueCheck : Prop :=
  ∀ (s : State) (v : Word), s.Ready →
    (∀ l : Location, (l = .reg .tlen ∨ l = .reg .plen ∨ ∃ c, l = .freq c) →
      ((s.wr l v).resp = some .written ↔ v.toNat < 65536)) ∧
    (∀ l : Location, l.wf = true →
      ((∃ c, l = .clen c) ∨ (∃ i, l = .key i) ∨ (∃ i, l = .text i) ∨ ∃ i, l = .pay i) →
      ((s.wr l v).resp = some .written ↔ v.toNat < 256)) ∧
    ((s.wr (.reg .klen) v).resp = some .written ↔ v.toNat ≤ 256) ∧
    (∀ l : Location, (l ∈ [.reg .pad, .reg .cmd, .reg .status, .reg .ctrl] ∨ ∃ c k, l = .cbit c k) →
      (s.wr l v).resp = some .written)

/-- R93, R83, R105: a performed write of an ordinary location is stored exactly: the location reads back the
value, and every other location reads as before. -/
def Obligations.WriteReadsBackExactly : Prop :=
  ∀ (s : State) (l : Location) (v : Word), s.Ready → l.wf = true →
    l ∉ [.reg .cmd, .reg .status, .reg .ctrl] → (s.wr l v).resp = some .written →
    (s.wr l v).see l = v ∧
    ∀ m : Location, m.wf = true → m ≠ l → (s.wr l v).see m = s.see m

/-- R102: no read has a side effect: only the port's answer (and the model's draw counter) can differ, and a
second read gives what a first gives. -/
def Obligations.ReadHasNoSideEffect : Prop :=
  ∀ (s : State) (a : Addr),
    (∃ r d, s.hostAccess (.read a) = { s with resp := r, draws := d }) ∧
    ∀ l : Location, s.checkRead (addrOf l) = .ok l →
      State.see (s.hostAccess (.read a)) l = s.see l

/-- R32, R33: the bits of STATUS as the port reads them. -/
def Obligations.StatusWordBits : Prop :=
  ∀ s : State, s.rstN = true →
    ((s.see (.reg .status)).getLsbD 0 = true ↔ s.phase = .busy) ∧
    (s.see (.reg .status)).getLsbD 1 = s.done ∧ (s.see (.reg .status)).getLsbD 2 = s.err ∧
    (s.see (.reg .status)).getLsbD 3 = s.empty ∧
    ∀ i, 4 ≤ i → (s.see (.reg .status)).getLsbD i = false

/-- R32, R34, R35, R344: a write to STATUS clears DONE by data bit 1, clears ERR with CAUSE and INFO by data
bit 2, ignores every other bit and sets none. -/
def Obligations.StatusWriteClears : Prop :=
  ∀ (s : State) (v : Word), s.rstN = true →
    s.wr (.reg .status) v =
      { s with
        done := s.done && !v.getLsbD 1
        err := s.err && !v.getLsbD 2
        cause := if v.getLsbD 2 then 0#4 else s.cause
        info := if v.getLsbD 2 then 0#32 else s.info
        resp := some .written }

/-- R92: right after a CMD write is accepted STATUS reads BUSY = 1, DONE = 0, ERR = 0 and EMPTY as before,
CAUSE, INFO and CMD read 0, and ID and CTRL read as always. -/
def Obligations.BusyRegisterValues : Prop :=
  ∀ (s : State) (w : Word), s.Ready → s.StatusOk →
    State.see (s.wr (.reg .cmd) w) (.reg .status) = (if s.empty then 9#32 else 1#32) ∧
    State.see (s.wr (.reg .cmd) w) (.reg .cause) = 0#32 ∧
    State.see (s.wr (.reg .cmd) w) (.reg .info) = 0#32 ∧
    State.see (s.wr (.reg .cmd) w) (.reg .cmd) = 0#32 ∧
    State.see (s.wr (.reg .cmd) w) (.reg .id) = 0x48584301#32 ∧
    State.see (s.wr (.reg .cmd) w) (.reg .ctrl) = s.see (.reg .ctrl)

-- Reset and interrupt ------------------------------------------------------------------------------

/-- R381, R382: a CTRL write with bit 31 set is performed in either PHASE and leaves the reset state, CTRL
reading 0, a latched command abandoned. R37: one with bit 31 clear is performed in either PHASE, stores
bits 1:0 as IE_ERR and IE_DONE, ignores the rest and changes nothing else; CTRL reads the two enables and
0 in every other bit. -/
def Obligations.SoftResetRestoresReset : Prop :=
  ∀ (s : State) (v : Word), s.rstN = true →
    (v.getLsbD 31 = true →
      (s.wr (.reg .ctrl) v).resp = some .written ∧ (s.wr (.reg .ctrl) v).InReset ∧
      State.see (s.wr (.reg .ctrl) v) (.reg .ctrl) = 0#32 ∧ (s.wr (.reg .ctrl) v).irq = false ∧
      engineStep (s.wr (.reg .ctrl) v) = .next (s.wr (.reg .ctrl) v)) ∧
    (v.getLsbD 31 = false →
      s.wr (.reg .ctrl) v =
        { s with ieDone := v.getLsbD 0, ieErr := v.getLsbD 1, resp := some .written }) ∧
    (s.see (.reg .ctrl)).getLsbD 0 = s.ieDone ∧ (s.see (.reg .ctrl)).getLsbD 1 = s.ieErr ∧
    ∀ i, 2 ≤ i → (s.see (.reg .ctrl)).getLsbD i = false

/-- R380: driving rst_n low, from any state, and driving it high again leave the reset state with irq = 0;
while it is low an access is not performed and gets no response. The pin as a turn is the model's
form (log 13). -/
def Obligations.HardResetHoldsReset : Prop :=
  ∀ (s : State) (rest : List Turn), s.turns = .rstN false :: rest →
    ∃ t, step s = .next t ∧ t.rstN = false ∧ t.InReset ∧ t.irq = false ∧
      (∀ a, t.hostAccess a = { t with resp := none }) ∧
      (t.driveReset true).rstN = true ∧ (t.driveReset true).InReset ∧ (t.driveReset true).irq = false

/-- R350: irq is high exactly for an enabled pending source, at every moment. -/
def Obligations.IrqFollowsStatus : Prop :=
  ∀ s : State,
    s.irq = true ↔ (s.done = true ∧ s.ieDone = true) ∨ (s.err = true ∧ s.ieErr = true)

-- Host programs ------------------------------------------------------------------------------------

/-- R312: ENCODE of the empty text with a key gives no bytes, the empty table and padding 0, EMPTY = 1, and
DECODE of that gives the empty text; with the empty key it ends with EmptyKey. The pseudo-commands as
functions are the model's form (log 21), here and below. -/
def Obligations.EncodeEmptyText : Prop :=
  ∀ s : State, s.Ready →
    (∀ k : List Byte, k ≠ [] → k.length ≤ Config.keyMax →
      (runEncode [] k s).report = .finished ∧ (runEncode [] k s).state.empty = true ∧
      (runEncode [] k s).state.encoded = { cipher := [], table := [], padding := 0#32 } ∧
      (runDecode [] k [] 0 s).report = .finished ∧ (runDecode [] k [] 0 s).state.decoded = []) ∧
    (runEncode [] [] s).report = .fault 1#32 0#32

/-- R313: ENCODE "aaaa" with key K gives the table with the one code "0", padding 4 and the one byte K[0], and
DECODE of that gives "aaaa". ENCODE and DECODE as functions are the model's form (log 21). -/
def Obligations.EncodeSingleSymbol : Prop :=
  ∀ (s : State) (b : Byte) (k : List Byte), s.Ready → k.length < Config.keyMax →
    (runEncode [0x61#8, 0x61#8, 0x61#8, 0x61#8] (b :: k) s).report = .finished ∧
    (runEncode [0x61#8, 0x61#8, 0x61#8, 0x61#8] (b :: k) s).state.encoded =
      { cipher := [b], table := [(0x61#8, [false])], padding := 4#32 } ∧
    (runDecode [b] (b :: k) [(0x61#8, [false])] 4 s).report = .finished ∧
    (runDecode [b] (b :: k) [(0x61#8, [false])] 4 s).state.decoded = [0x61#8, 0x61#8, 0x61#8, 0x61#8]

/-- R307: from a ready state ENCODE finishes, or ends with EmptyKey (only for the empty key), or with
PayloadOverflow; with nothing else. ENCODE as a function is the model's form (log 21). -/
def Obligations.EncodeEndsOnlyInNamedFaults : Prop :=
  ∀ (s : State) (t : List Symbol) (k : List Byte), s.Ready → textFits t = true → keyFits k = true →
    (runEncode t k s).report = .finished ∨
    (k = [] ∧ (runEncode t k s).report = .fault 1#32 0#32) ∨
    ∃ i, (runEncode t k s).report = .fault 6#32 i

/-- R311: two runs of ENCODE with equal text and key, from any two ready states, end alike and, where they
finish, give equal ciphertext, table and padding. ENCODE as a function is the model's form (log 21). -/
def Obligations.EncodeIndependentOfStart : Prop :=
  ∀ (s₁ s₂ : State) (t : List Symbol) (k : List Byte), s₁.Ready → s₂.Ready →
    (runEncode t k s₁).report = (runEncode t k s₂).report ∧
    ((runEncode t k s₁).report = .finished →
      (runEncode t k s₁).state.encoded = (runEncode t k s₂).state.encoded)

/-- R310: DECODE, from any ready state, of what a finished ENCODE gave finishes and yields the text. ENCODE
and DECODE as functions are the model's form (log 21). -/
def Obligations.DecodeInvertsEncodeProgram : Prop :=
  ∀ (s u : State) (t : List Symbol) (k : List Byte), s.Ready → u.Ready → k ≠ [] →
    (runEncode t k s).report = .finished →
    (runDecode (runEncode t k s).state.encoded.cipher k (runEncode t k s).state.encoded.table
      ((runEncode t k s).state.encoded.padding.toNat : Int) u).report = .finished ∧
    (runDecode (runEncode t k s).state.encoded.cipher k (runEncode t k s).state.encoded.table
      ((runEncode t k s).state.encoded.padding.toNat : Int) u).state.decoded = t
end

