-- ==== Sys2Proof/Laws/Memory.lean ====
section
/-! SUPPORT. The laws of the arrays: what a read finds after a write, and that every operation keeps the
canonical form `Memory.wf`. -/

namespace Sys2Proof.Machine

variable {α : Type}

theorem lookupCell_insertCell_same (i : Nat) (v : α) (l : List (Nat × α)) :
    lookupCell i (insertCell i v l) = some v := by
  induction l with
  | nil => simp [insertCell, lookupCell]
  | cons c rest ih =>
    obtain ⟨j, w⟩ := c
    simp only [insertCell]
    split
    · simp [lookupCell]
    · split
      · simp [lookupCell]
      · next h => simp [lookupCell, Ne.symm h, ih]

theorem lookupCell_insertCell_other {i k : Nat} (h : k ≠ i) (v : α) (l : List (Nat × α)) :
    lookupCell k (insertCell i v l) = lookupCell k l := by
  induction l with
  | nil => simp [insertCell, lookupCell, Ne.symm h]
  | cons c rest ih =>
    obtain ⟨j, w⟩ := c
    simp only [insertCell]
    split
    · simp [lookupCell, Ne.symm h]
    · split
      · next e => subst e; simp [lookupCell, Ne.symm h]
      · simp only [lookupCell, ih]

theorem lookupCell_eraseCell_same (i : Nat) (l : List (Nat × α)) :
    lookupCell i (eraseCell i l) = none := by
  induction l with
  | nil => simp [eraseCell, lookupCell]
  | cons c rest ih =>
    obtain ⟨j, w⟩ := c
    by_cases e : j = i
    · subst e; simpa [eraseCell] using ih
    · simpa [eraseCell, lookupCell, e] using ih

theorem lookupCell_eraseCell_other {i k : Nat} (h : k ≠ i) (l : List (Nat × α)) :
    lookupCell k (eraseCell i l) = lookupCell k l := by
  induction l with
  | nil => simp [eraseCell, lookupCell]
  | cons c rest ih =>
    obtain ⟨j, w⟩ := c
    by_cases e : j = i
    · subst e; simpa [eraseCell, lookupCell, Ne.symm h] using ih
    · simp only [eraseCell, ne_eq, decide_not] at ih ⊢
      simp [e, lookupCell, ih]

theorem insertCell_mem {i : Nat} {v : α} {l : List (Nat × α)} {c : Nat × α}
    (h : c ∈ insertCell i v l) : c = (i, v) ∨ c ∈ l := by
  induction l with
  | nil => simpa [insertCell] using h
  | cons d rest ih =>
    obtain ⟨j, w⟩ := d
    simp only [insertCell] at h
    split at h
    · simpa using h
    · split at h
      · simp only [List.mem_cons] at h ⊢; tauto
      · simp only [List.mem_cons] at h ⊢
        rcases h with h | h
        · tauto
        · rcases ih h with h | h <;> tauto

theorem insertCell_rising {i : Nat} {v : α} {l : List (Nat × α)}
    (h : l.Pairwise (fun a b => a.1 < b.1)) :
    (insertCell i v l).Pairwise (fun a b => a.1 < b.1) := by
  induction l with
  | nil => simp [insertCell]
  | cons d rest ih =>
    obtain ⟨j, w⟩ := d
    rw [List.pairwise_cons] at h
    simp only [insertCell]
    split
    · next hij =>
      refine List.pairwise_cons.2 ⟨?_, List.pairwise_cons.2 h⟩
      intro c hc
      rcases List.mem_cons.1 hc with rfl | hc
      · exact hij
      · exact lt_trans hij (h.1 c hc)
    · split
      · next e => subst e; exact List.pairwise_cons.2 h
      · next h1 h2 =>
        refine List.pairwise_cons.2 ⟨?_, ih h.2⟩
        intro c hc
        rcases insertCell_mem hc with rfl | hc
        · show j < i; omega
        · exact h.1 c hc

theorem lookupCell_none_of_below {i : Nat} {l : List (Nat × α)} (h : ∀ c ∈ l, i < c.1) :
    lookupCell i l = none := by
  induction l with
  | nil => rfl
  | cons c rest ih =>
    obtain ⟨j, w⟩ := c
    have hj : i < j := h (j, w) (by simp)
    simp only [lookupCell]
    rw [if_neg (by omega)]
    exact ih fun c hc => h c (by simp [hc])

/-- Rising lists that list the same values at the same indices are the same list. -/
theorem cells_ext {l m : List (Nat × α)} (hl : l.Pairwise (fun a b => a.1 < b.1))
    (hm : m.Pairwise (fun a b => a.1 < b.1)) (h : ∀ i, lookupCell i l = lookupCell i m) : l = m := by
  induction l generalizing m with
  | nil =>
    cases m with
    | nil => rfl
    | cons d rest =>
      have := h d.1
      simp [lookupCell] at this
  | cons c l ih =>
    obtain ⟨i, v⟩ := c
    cases m with
    | nil =>
      have := h i
      simp [lookupCell] at this
    | cons d m =>
      obtain ⟨j, w⟩ := d
      rw [List.pairwise_cons] at hl hm
      have hij : i = j := by
        rcases Nat.lt_trichotomy i j with hlt | heq | hgt
        · have := h i
          rw [lookupCell_none_of_below (l := (j, w) :: m)] at this
          · simp [lookupCell] at this
          · intro c hc
            rcases List.mem_cons.1 hc with rfl | hc
            · exact hlt
            · exact lt_trans hlt (hm.1 c hc)
        · exact heq
        · have := h j
          rw [lookupCell_none_of_below (l := (i, v) :: l)] at this
          · simp [lookupCell] at this
          · intro c hc
            rcases List.mem_cons.1 hc with rfl | hc
            · exact hgt
            · exact lt_trans hgt (hl.1 c hc)
      subst hij
      have hv : v = w := by simpa [lookupCell] using h i
      subst hv
      rw [ih hl.2 hm.2 fun k => ?_]
      by_cases hk : i = k
      · subst hk
        rw [lookupCell_none_of_below hl.1, lookupCell_none_of_below hm.1]
      · simpa [lookupCell, hk] using h k

section Access

variable [Inhabited α] [DecidableEq α]

@[simp] theorem Memory.write_fill (m : Memory α) (i : Nat) (v : α) : (m.write i v).fill = m.fill := by
  unfold Memory.write; split <;> (try split) <;> simp_all

@[simp] theorem Memory.writeFrom_fill (m : Memory α) (i : Nat) (vs : List α) :
    (m.writeFrom i vs).fill = m.fill := by
  induction vs generalizing m i with
  | nil => rfl
  | cons v vs ih => simp [Memory.writeFrom, ih]

/-- Reading an element back after writing it. -/
@[simp] theorem Memory.read_write_same (free : Nat → Nat → α) (m : Memory α) (i : Nat) (v : α) :
    (m.write i v).read free i = v := by
  unfold Memory.write
  split
  · split
    · next e h => simp [Memory.read, lookupCell_eraseCell_same, e, Fill.value, h]
    · simp [Memory.read, lookupCell_insertCell_same]
  · simp [Memory.read, lookupCell_insertCell_same]

/-- A write leaves every other element alone. -/
theorem Memory.read_write_other (free : Nat → Nat → α) (m : Memory α) {i k : Nat} (h : k ≠ i) (v : α) :
    (m.write i v).read free k = m.read free k := by
  unfold Memory.write
  split
  · split <;> simp [Memory.read, lookupCell_eraseCell_other h, lookupCell_insertCell_other h]
  · simp [Memory.read, lookupCell_insertCell_other h]

theorem Memory.read_write (free : Nat → Nat → α) (m : Memory α) (i k : Nat) (v : α) :
    (m.write i v).read free k = if k = i then v else m.read free k := by
  split
  · next h => subst h; simp
  · next h => exact Memory.read_write_other free m h v

/-- Everything consecutive writes do to one element: those inside the range read as written, the others
as before. -/
theorem Memory.read_writeFrom (free : Nat → Nat → α) (m : Memory α) (i k : Nat) (vs : List α) :
    (m.writeFrom i vs).read free k =
      if i ≤ k ∧ k < i + vs.length then vs.getD (k - i) default else m.read free k := by
  induction vs generalizing m i with
  | nil => simp only [Memory.writeFrom, List.length_nil]; rw [if_neg (by omega)]
  | cons v vs ih =>
    simp only [Memory.writeFrom, ih, List.length_cons, Memory.read_write]
    by_cases h : k = i
    · subst h
      simp
    · by_cases hr : i + 1 ≤ k ∧ k < i + 1 + vs.length
      · have e : k - i = (k - (i + 1)) + 1 := by omega
        rw [if_pos hr, if_pos (by omega), e]
        rfl
      · rw [if_neg hr, if_neg h, if_neg (by omega)]

theorem Memory.read_writeFrom_zero (free : Nat → Nat → α) (m : Memory α) (k : Nat) (vs : List α) :
    (m.writeFrom 0 vs).read free k = if k < vs.length then vs.getD k default else m.read free k := by
  rw [Memory.read_writeFrom]
  simp

end Access

@[simp] theorem Memory.read_zeros [Inhabited α] (free : Nat → Nat → α) (i : Nat) :
    (Memory.zeros : Memory α).read free i = default := rfl

@[simp] theorem Memory.read_unspecified [Inhabited α] (free : Nat → Nat → α) (d i : Nat) :
    (Memory.unspecified d : Memory α).read free i = free d i := rfl

section Canonical

variable [Inhabited α] [DecidableEq α]

/-- The canonical form, spelled out. -/
theorem Memory.wf_iff (size : Nat) (m : Memory α) :
    m.wf size = true ↔
      m.cells.Pairwise (fun a b => a.1 < b.1) ∧ (∀ c ∈ m.cells, c.1 < size) ∧
        (m.fill = .zero → ∀ c ∈ m.cells, c.2 ≠ default) := by
  unfold Memory.wf
  cases hf : m.fill <;> simp [and_assoc]

/-- Equal memories are equal data: two arrays in canonical form whose unlisted elements read 0 and whose
elements all read alike are the same. -/
theorem Memory.ext_of_read {size : Nat} {l m : Memory α} (hl : l.wf size = true) (hm : m.wf size = true)
    (fl : l.fill = .zero) (fm : m.fill = .zero) (free : Nat → Nat → α)
    (h : ∀ i, l.read free i = m.read free i) : l = m := by
  obtain ⟨rl, -, zl⟩ := (Memory.wf_iff size l).1 hl
  obtain ⟨rm, -, zm⟩ := (Memory.wf_iff size m).1 hm
  have listed : ∀ {n : List (Nat × α)} {i : Nat} {v : α}, lookupCell i n = some v → (i, v) ∈ n := by
    intro n i v hv
    induction n with
    | nil => simp [lookupCell] at hv
    | cons c rest ih =>
      obtain ⟨j, w⟩ := c
      simp only [lookupCell] at hv
      split at hv
      · next e => subst e; simp_all
      · exact List.mem_cons_of_mem _ (ih hv)
  obtain ⟨f, cl⟩ := l
  obtain ⟨g, cm⟩ := m
  simp only at fl fm rl rm zl zm
  subst fl
  subst fm
  congr 1
  refine cells_ext rl rm fun i => ?_
  have hi := h i
  simp only [Memory.read, Fill.value] at hi
  cases el : lookupCell i cl <;> cases em : lookupCell i cm <;> simp only [el, em, Option.getD] at hi
  · rfl
  · exact absurd hi.symm (zm rfl _ (listed em))
  · exact absurd hi (zl rfl _ (listed el))
  · rw [hi]

theorem Memory.wf_zeros (size : Nat) : (Memory.zeros : Memory α).wf size = true := by
  simp [Memory.wf_iff, Memory.zeros]

theorem Memory.wf_unspecified (size d : Nat) : (Memory.unspecified d : Memory α).wf size = true := by
  simp [Memory.wf_iff, Memory.unspecified]

/-- A write inside the array keeps the canonical form. -/
theorem Memory.wf_write {size : Nat} {m : Memory α} (h : m.wf size = true) {i : Nat} (hi : i < size)
    (v : α) : (m.write i v).wf size = true := by
  obtain ⟨hr, hs, hz⟩ := (Memory.wf_iff size m).1 h
  have erased : ∀ c ∈ eraseCell i m.cells, c ∈ m.cells := fun c hc => (List.mem_filter.1 hc).1
  refine (Memory.wf_iff size _).2 ?_
  unfold Memory.write
  split
  · next hf =>
    split
    · exact ⟨hr.sublist List.filter_sublist, fun c hc => hs c (erased c hc),
        fun _ c hc => hz hf c (erased c hc)⟩
    · next hv =>
      refine ⟨insertCell_rising hr, fun c hc => ?_, fun _ c hc => ?_⟩
      · rcases insertCell_mem hc with rfl | hc
        · exact hi
        · exact hs c hc
      · rcases insertCell_mem hc with rfl | hc
        · exact hv
        · exact hz hf c hc
  · next hf =>
    refine ⟨insertCell_rising hr, fun c hc => ?_, fun e => ?_⟩
    · rcases insertCell_mem hc with rfl | hc
      · exact hi
      · exact hs c hc
    · simp [hf] at e

/-- Consecutive writes inside the array keep the canonical form. -/
theorem Memory.wf_writeFrom {size : Nat} {m : Memory α} (h : m.wf size = true) {i : Nat} {vs : List α}
    (hi : i + vs.length ≤ size) : (m.writeFrom i vs).wf size = true := by
  induction vs generalizing m i with
  | nil => exact h
  | cons v vs ih =>
    simp only [List.length_cons] at hi
    exact ih (Memory.wf_write h (by omega) v) (by omega)

end Canonical

end Sys2Proof.Machine
end

