-- ==== Sys2Proof/Laws/State.lean ====
section
/-! SUPPORT. One lemma per field per update of State, so that no later proof unfolds an update. -/

namespace Sys2Proof.Machine

section

variable (s : State) (f : HxcFault)

@[simp] theorem State.raise_rstN : (s.raise f).rstN = s.rstN := rfl
@[simp] theorem State.raise_phase : (s.raise f).phase = .idle := rfl
@[simp] theorem State.raise_cmdLatch : (s.raise f).cmdLatch = s.cmdLatch := rfl
@[simp] theorem State.raise_done : (s.raise f).done = s.done := rfl
@[simp] theorem State.raise_err : (s.raise f).err = true := rfl
@[simp] theorem State.raise_empty : (s.raise f).empty = s.empty := rfl
@[simp] theorem State.raise_ieDone : (s.raise f).ieDone = s.ieDone := rfl
@[simp] theorem State.raise_ieErr : (s.raise f).ieErr = s.ieErr := rfl
@[simp] theorem State.raise_cause : (s.raise f).cause = f.code := rfl
@[simp] theorem State.raise_info : (s.raise f).info = f.infoWord := rfl
@[simp] theorem State.raise_tlen : (s.raise f).tlen = s.tlen := rfl
@[simp] theorem State.raise_plen : (s.raise f).plen = s.plen := rfl
@[simp] theorem State.raise_pad : (s.raise f).pad = s.pad := rfl
@[simp] theorem State.raise_klen : (s.raise f).klen = s.klen := rfl
@[simp] theorem State.raise_rootValid : (s.raise f).rootValid = s.rootValid := rfl
@[simp] theorem State.raise_rootH : (s.raise f).rootH = s.rootH := rfl
@[simp] theorem State.raise_nnode : (s.raise f).nnode = s.nnode := rfl
@[simp] theorem State.raise_text : (s.raise f).text = s.text := rfl
@[simp] theorem State.raise_pay : (s.raise f).pay = s.pay := rfl
@[simp] theorem State.raise_key : (s.raise f).key = s.key := rfl
@[simp] theorem State.raise_freq : (s.raise f).freq = s.freq := rfl
@[simp] theorem State.raise_clen : (s.raise f).clen = s.clen := rfl
@[simp] theorem State.raise_cbit : (s.raise f).cbit = s.cbit := rfl
@[simp] theorem State.raise_node : (s.raise f).node = s.node := rfl
@[simp] theorem State.raise_resp : (s.raise f).resp = s.resp := rfl
@[simp] theorem State.raise_turns : (s.raise f).turns = s.turns := rfl
@[simp] theorem State.raise_draws : (s.raise f).draws = s.draws := rfl

end

section

variable (s : State)

@[simp] theorem State.acknowledge_rstN : s.acknowledge.rstN = s.rstN := rfl
@[simp] theorem State.acknowledge_phase : s.acknowledge.phase = s.phase := rfl
@[simp] theorem State.acknowledge_cmdLatch : s.acknowledge.cmdLatch = s.cmdLatch := rfl
@[simp] theorem State.acknowledge_done : s.acknowledge.done = s.done := rfl
@[simp] theorem State.acknowledge_err : s.acknowledge.err = false := rfl
@[simp] theorem State.acknowledge_empty : s.acknowledge.empty = s.empty := rfl
@[simp] theorem State.acknowledge_ieDone : s.acknowledge.ieDone = s.ieDone := rfl
@[simp] theorem State.acknowledge_ieErr : s.acknowledge.ieErr = s.ieErr := rfl
@[simp] theorem State.acknowledge_cause : s.acknowledge.cause = 0#4 := rfl
@[simp] theorem State.acknowledge_info : s.acknowledge.info = 0#32 := rfl
@[simp] theorem State.acknowledge_tlen : s.acknowledge.tlen = s.tlen := rfl
@[simp] theorem State.acknowledge_plen : s.acknowledge.plen = s.plen := rfl
@[simp] theorem State.acknowledge_pad : s.acknowledge.pad = s.pad := rfl
@[simp] theorem State.acknowledge_klen : s.acknowledge.klen = s.klen := rfl
@[simp] theorem State.acknowledge_rootValid : s.acknowledge.rootValid = s.rootValid := rfl
@[simp] theorem State.acknowledge_rootH : s.acknowledge.rootH = s.rootH := rfl
@[simp] theorem State.acknowledge_nnode : s.acknowledge.nnode = s.nnode := rfl
@[simp] theorem State.acknowledge_text : s.acknowledge.text = s.text := rfl
@[simp] theorem State.acknowledge_pay : s.acknowledge.pay = s.pay := rfl
@[simp] theorem State.acknowledge_key : s.acknowledge.key = s.key := rfl
@[simp] theorem State.acknowledge_freq : s.acknowledge.freq = s.freq := rfl
@[simp] theorem State.acknowledge_clen : s.acknowledge.clen = s.clen := rfl
@[simp] theorem State.acknowledge_cbit : s.acknowledge.cbit = s.cbit := rfl
@[simp] theorem State.acknowledge_node : s.acknowledge.node = s.node := rfl
@[simp] theorem State.acknowledge_resp : s.acknowledge.resp = s.resp := rfl
@[simp] theorem State.acknowledge_turns : s.acknowledge.turns = s.turns := rfl
@[simp] theorem State.acknowledge_draws : s.acknowledge.draws = s.draws := rfl

end

section

variable (s : State)

@[simp] theorem State.spoilPayload_rstN : s.spoilPayload.rstN = s.rstN := rfl
@[simp] theorem State.spoilPayload_phase : s.spoilPayload.phase = s.phase := rfl
@[simp] theorem State.spoilPayload_cmdLatch : s.spoilPayload.cmdLatch = s.cmdLatch := rfl
@[simp] theorem State.spoilPayload_done : s.spoilPayload.done = s.done := rfl
@[simp] theorem State.spoilPayload_err : s.spoilPayload.err = s.err := rfl
@[simp] theorem State.spoilPayload_empty : s.spoilPayload.empty = s.empty := rfl
@[simp] theorem State.spoilPayload_ieDone : s.spoilPayload.ieDone = s.ieDone := rfl
@[simp] theorem State.spoilPayload_ieErr : s.spoilPayload.ieErr = s.ieErr := rfl
@[simp] theorem State.spoilPayload_cause : s.spoilPayload.cause = s.cause := rfl
@[simp] theorem State.spoilPayload_info : s.spoilPayload.info = s.info := rfl
@[simp] theorem State.spoilPayload_tlen : s.spoilPayload.tlen = s.tlen := rfl
@[simp] theorem State.spoilPayload_plen : s.spoilPayload.plen = Config.freePlen s.draws := rfl
@[simp] theorem State.spoilPayload_pad : s.spoilPayload.pad = Config.freePad s.draws := rfl
@[simp] theorem State.spoilPayload_klen : s.spoilPayload.klen = s.klen := rfl
@[simp] theorem State.spoilPayload_rootValid : s.spoilPayload.rootValid = s.rootValid := rfl
@[simp] theorem State.spoilPayload_rootH : s.spoilPayload.rootH = s.rootH := rfl
@[simp] theorem State.spoilPayload_nnode : s.spoilPayload.nnode = s.nnode := rfl
@[simp] theorem State.spoilPayload_text : s.spoilPayload.text = s.text := rfl
@[simp] theorem State.spoilPayload_pay : s.spoilPayload.pay = Memory.unspecified s.draws := rfl
@[simp] theorem State.spoilPayload_key : s.spoilPayload.key = s.key := rfl
@[simp] theorem State.spoilPayload_freq : s.spoilPayload.freq = s.freq := rfl
@[simp] theorem State.spoilPayload_clen : s.spoilPayload.clen = s.clen := rfl
@[simp] theorem State.spoilPayload_cbit : s.spoilPayload.cbit = s.cbit := rfl
@[simp] theorem State.spoilPayload_node : s.spoilPayload.node = s.node := rfl
@[simp] theorem State.spoilPayload_resp : s.spoilPayload.resp = s.resp := rfl
@[simp] theorem State.spoilPayload_turns : s.spoilPayload.turns = s.turns := rfl
@[simp] theorem State.spoilPayload_draws : s.spoilPayload.draws = s.draws + 1 := rfl

end

section

variable (s : State)

@[simp] theorem State.spoilText_rstN : s.spoilText.rstN = s.rstN := rfl
@[simp] theorem State.spoilText_phase : s.spoilText.phase = s.phase := rfl
@[simp] theorem State.spoilText_cmdLatch : s.spoilText.cmdLatch = s.cmdLatch := rfl
@[simp] theorem State.spoilText_done : s.spoilText.done = s.done := rfl
@[simp] theorem State.spoilText_err : s.spoilText.err = s.err := rfl
@[simp] theorem State.spoilText_empty : s.spoilText.empty = s.empty := rfl
@[simp] theorem State.spoilText_ieDone : s.spoilText.ieDone = s.ieDone := rfl
@[simp] theorem State.spoilText_ieErr : s.spoilText.ieErr = s.ieErr := rfl
@[simp] theorem State.spoilText_cause : s.spoilText.cause = s.cause := rfl
@[simp] theorem State.spoilText_info : s.spoilText.info = s.info := rfl
@[simp] theorem State.spoilText_tlen : s.spoilText.tlen = Config.freeTlen s.draws := rfl
@[simp] theorem State.spoilText_plen : s.spoilText.plen = s.plen := rfl
@[simp] theorem State.spoilText_pad : s.spoilText.pad = s.pad := rfl
@[simp] theorem State.spoilText_klen : s.spoilText.klen = s.klen := rfl
@[simp] theorem State.spoilText_rootValid : s.spoilText.rootValid = s.rootValid := rfl
@[simp] theorem State.spoilText_rootH : s.spoilText.rootH = s.rootH := rfl
@[simp] theorem State.spoilText_nnode : s.spoilText.nnode = s.nnode := rfl
@[simp] theorem State.spoilText_text : s.spoilText.text = Memory.unspecified s.draws := rfl
@[simp] theorem State.spoilText_pay : s.spoilText.pay = s.pay := rfl
@[simp] theorem State.spoilText_key : s.spoilText.key = s.key := rfl
@[simp] theorem State.spoilText_freq : s.spoilText.freq = s.freq := rfl
@[simp] theorem State.spoilText_clen : s.spoilText.clen = s.clen := rfl
@[simp] theorem State.spoilText_cbit : s.spoilText.cbit = s.cbit := rfl
@[simp] theorem State.spoilText_node : s.spoilText.node = s.node := rfl
@[simp] theorem State.spoilText_resp : s.spoilText.resp = s.resp := rfl
@[simp] theorem State.spoilText_turns : s.spoilText.turns = s.turns := rfl
@[simp] theorem State.spoilText_draws : s.spoilText.draws = s.draws + 1 := rfl

end

section

variable (s : State) (e : Bool)

@[simp] theorem State.finish_rstN : (s.finish e).rstN = s.rstN := rfl
@[simp] theorem State.finish_phase : (s.finish e).phase = .idle := rfl
@[simp] theorem State.finish_cmdLatch : (s.finish e).cmdLatch = s.cmdLatch := rfl
@[simp] theorem State.finish_done : (s.finish e).done = true := rfl
@[simp] theorem State.finish_err : (s.finish e).err = s.err := rfl
@[simp] theorem State.finish_empty : (s.finish e).empty = e := rfl
@[simp] theorem State.finish_ieDone : (s.finish e).ieDone = s.ieDone := rfl
@[simp] theorem State.finish_ieErr : (s.finish e).ieErr = s.ieErr := rfl
@[simp] theorem State.finish_cause : (s.finish e).cause = s.cause := rfl
@[simp] theorem State.finish_info : (s.finish e).info = s.info := rfl
@[simp] theorem State.finish_tlen : (s.finish e).tlen = s.tlen := rfl
@[simp] theorem State.finish_plen : (s.finish e).plen = s.plen := rfl
@[simp] theorem State.finish_pad : (s.finish e).pad = s.pad := rfl
@[simp] theorem State.finish_klen : (s.finish e).klen = s.klen := rfl
@[simp] theorem State.finish_rootValid : (s.finish e).rootValid = s.rootValid := rfl
@[simp] theorem State.finish_rootH : (s.finish e).rootH = s.rootH := rfl
@[simp] theorem State.finish_nnode : (s.finish e).nnode = s.nnode := rfl
@[simp] theorem State.finish_text : (s.finish e).text = s.text := rfl
@[simp] theorem State.finish_pay : (s.finish e).pay = s.pay := rfl
@[simp] theorem State.finish_key : (s.finish e).key = s.key := rfl
@[simp] theorem State.finish_freq : (s.finish e).freq = s.freq := rfl
@[simp] theorem State.finish_clen : (s.finish e).clen = s.clen := rfl
@[simp] theorem State.finish_cbit : (s.finish e).cbit = s.cbit := rfl
@[simp] theorem State.finish_node : (s.finish e).node = s.node := rfl
@[simp] theorem State.finish_resp : (s.finish e).resp = s.resp := rfl
@[simp] theorem State.finish_turns : (s.finish e).turns = s.turns := rfl
@[simp] theorem State.finish_draws : (s.finish e).draws = s.draws := rfl

end

section

variable (s : State) (w : Word)

@[simp] theorem State.accept_rstN : (s.accept w).rstN = s.rstN := rfl
@[simp] theorem State.accept_phase : (s.accept w).phase = .busy := rfl
@[simp] theorem State.accept_cmdLatch : (s.accept w).cmdLatch = w := rfl
@[simp] theorem State.accept_done : (s.accept w).done = false := rfl
@[simp] theorem State.accept_err : (s.accept w).err = s.err := rfl
@[simp] theorem State.accept_empty : (s.accept w).empty = s.empty := rfl
@[simp] theorem State.accept_ieDone : (s.accept w).ieDone = s.ieDone := rfl
@[simp] theorem State.accept_ieErr : (s.accept w).ieErr = s.ieErr := rfl
@[simp] theorem State.accept_cause : (s.accept w).cause = s.cause := rfl
@[simp] theorem State.accept_info : (s.accept w).info = s.info := rfl
@[simp] theorem State.accept_tlen : (s.accept w).tlen = s.tlen := rfl
@[simp] theorem State.accept_plen : (s.accept w).plen = s.plen := rfl
@[simp] theorem State.accept_pad : (s.accept w).pad = s.pad := rfl
@[simp] theorem State.accept_klen : (s.accept w).klen = s.klen := rfl
@[simp] theorem State.accept_rootValid : (s.accept w).rootValid = s.rootValid := rfl
@[simp] theorem State.accept_rootH : (s.accept w).rootH = s.rootH := rfl
@[simp] theorem State.accept_nnode : (s.accept w).nnode = s.nnode := rfl
@[simp] theorem State.accept_text : (s.accept w).text = s.text := rfl
@[simp] theorem State.accept_pay : (s.accept w).pay = s.pay := rfl
@[simp] theorem State.accept_key : (s.accept w).key = s.key := rfl
@[simp] theorem State.accept_freq : (s.accept w).freq = s.freq := rfl
@[simp] theorem State.accept_clen : (s.accept w).clen = s.clen := rfl
@[simp] theorem State.accept_cbit : (s.accept w).cbit = s.cbit := rfl
@[simp] theorem State.accept_node : (s.accept w).node = s.node := rfl
@[simp] theorem State.accept_resp : (s.accept w).resp = s.resp := rfl
@[simp] theorem State.accept_turns : (s.accept w).turns = s.turns := rfl
@[simp] theorem State.accept_draws : (s.accept w).draws = s.draws := rfl

end

section

variable (s : State)

@[simp] theorem State.cleared_rstN : s.cleared.rstN = s.rstN := rfl
@[simp] theorem State.cleared_phase : s.cleared.phase = s.phase := rfl
@[simp] theorem State.cleared_cmdLatch : s.cleared.cmdLatch = s.cmdLatch := rfl
@[simp] theorem State.cleared_done : s.cleared.done = s.done := rfl
@[simp] theorem State.cleared_err : s.cleared.err = s.err := rfl
@[simp] theorem State.cleared_empty : s.cleared.empty = s.empty := rfl
@[simp] theorem State.cleared_ieDone : s.cleared.ieDone = s.ieDone := rfl
@[simp] theorem State.cleared_ieErr : s.cleared.ieErr = s.ieErr := rfl
@[simp] theorem State.cleared_cause : s.cleared.cause = s.cause := rfl
@[simp] theorem State.cleared_info : s.cleared.info = s.info := rfl
@[simp] theorem State.cleared_tlen : s.cleared.tlen = 0#16 := rfl
@[simp] theorem State.cleared_plen : s.cleared.plen = 0#16 := rfl
@[simp] theorem State.cleared_pad : s.cleared.pad = 0#32 := rfl
@[simp] theorem State.cleared_klen : s.cleared.klen = 0#9 := rfl
@[simp] theorem State.cleared_rootValid : s.cleared.rootValid = false := rfl
@[simp] theorem State.cleared_rootH : s.cleared.rootH = 0#9 := rfl
@[simp] theorem State.cleared_nnode : s.cleared.nnode = 0#10 := rfl
@[simp] theorem State.cleared_text : s.cleared.text = s.text := rfl
@[simp] theorem State.cleared_pay : s.cleared.pay = s.pay := rfl
@[simp] theorem State.cleared_key : s.cleared.key = s.key := rfl
@[simp] theorem State.cleared_freq : s.cleared.freq = Memory.zeros := rfl
@[simp] theorem State.cleared_clen : s.cleared.clen = Memory.zeros := rfl
@[simp] theorem State.cleared_cbit : s.cleared.cbit = Memory.zeros := rfl
@[simp] theorem State.cleared_node : s.cleared.node = s.node := rfl
@[simp] theorem State.cleared_resp : s.cleared.resp = s.resp := rfl
@[simp] theorem State.cleared_turns : s.cleared.turns = s.turns := rfl
@[simp] theorem State.cleared_draws : s.cleared.draws = s.draws := rfl

end

section

variable (s : State) (ds : List Bool)

@[simp] theorem State.storePayload_rstN : (s.storePayload ds).rstN = s.rstN := rfl
@[simp] theorem State.storePayload_phase : (s.storePayload ds).phase = s.phase := rfl
@[simp] theorem State.storePayload_cmdLatch : (s.storePayload ds).cmdLatch = s.cmdLatch := rfl
@[simp] theorem State.storePayload_done : (s.storePayload ds).done = s.done := rfl
@[simp] theorem State.storePayload_err : (s.storePayload ds).err = s.err := rfl
@[simp] theorem State.storePayload_empty : (s.storePayload ds).empty = s.empty := rfl
@[simp] theorem State.storePayload_ieDone : (s.storePayload ds).ieDone = s.ieDone := rfl
@[simp] theorem State.storePayload_ieErr : (s.storePayload ds).ieErr = s.ieErr := rfl
@[simp] theorem State.storePayload_cause : (s.storePayload ds).cause = s.cause := rfl
@[simp] theorem State.storePayload_info : (s.storePayload ds).info = s.info := rfl
@[simp] theorem State.storePayload_tlen : (s.storePayload ds).tlen = s.tlen := rfl
@[simp] theorem State.storePayload_plen : (s.storePayload ds).plen = BitVec.ofNat 16 ((ds.length + padCount ds.length) / 8) := rfl
@[simp] theorem State.storePayload_pad : (s.storePayload ds).pad = BitVec.ofNat 32 (padCount ds.length) := rfl
@[simp] theorem State.storePayload_klen : (s.storePayload ds).klen = s.klen := rfl
@[simp] theorem State.storePayload_rootValid : (s.storePayload ds).rootValid = s.rootValid := rfl
@[simp] theorem State.storePayload_rootH : (s.storePayload ds).rootH = s.rootH := rfl
@[simp] theorem State.storePayload_nnode : (s.storePayload ds).nnode = s.nnode := rfl
@[simp] theorem State.storePayload_text : (s.storePayload ds).text = s.text := rfl
@[simp] theorem State.storePayload_pay : (s.storePayload ds).pay = s.pay.writeFrom 0 (packBytes ds) := rfl
@[simp] theorem State.storePayload_key : (s.storePayload ds).key = s.key := rfl
@[simp] theorem State.storePayload_freq : (s.storePayload ds).freq = s.freq := rfl
@[simp] theorem State.storePayload_clen : (s.storePayload ds).clen = s.clen := rfl
@[simp] theorem State.storePayload_cbit : (s.storePayload ds).cbit = s.cbit := rfl
@[simp] theorem State.storePayload_node : (s.storePayload ds).node = s.node := rfl
@[simp] theorem State.storePayload_resp : (s.storePayload ds).resp = s.resp := rfl
@[simp] theorem State.storePayload_turns : (s.storePayload ds).turns = s.turns := rfl
@[simp] theorem State.storePayload_draws : (s.storePayload ds).draws = s.draws := rfl

end

section

variable (s : State) (out : List Symbol)

@[simp] theorem State.storeText_rstN : (s.storeText out).rstN = s.rstN := rfl
@[simp] theorem State.storeText_phase : (s.storeText out).phase = s.phase := rfl
@[simp] theorem State.storeText_cmdLatch : (s.storeText out).cmdLatch = s.cmdLatch := rfl
@[simp] theorem State.storeText_done : (s.storeText out).done = s.done := rfl
@[simp] theorem State.storeText_err : (s.storeText out).err = s.err := rfl
@[simp] theorem State.storeText_empty : (s.storeText out).empty = s.empty := rfl
@[simp] theorem State.storeText_ieDone : (s.storeText out).ieDone = s.ieDone := rfl
@[simp] theorem State.storeText_ieErr : (s.storeText out).ieErr = s.ieErr := rfl
@[simp] theorem State.storeText_cause : (s.storeText out).cause = s.cause := rfl
@[simp] theorem State.storeText_info : (s.storeText out).info = s.info := rfl
@[simp] theorem State.storeText_tlen : (s.storeText out).tlen = BitVec.ofNat 16 out.length := rfl
@[simp] theorem State.storeText_plen : (s.storeText out).plen = s.plen := rfl
@[simp] theorem State.storeText_pad : (s.storeText out).pad = s.pad := rfl
@[simp] theorem State.storeText_klen : (s.storeText out).klen = s.klen := rfl
@[simp] theorem State.storeText_rootValid : (s.storeText out).rootValid = s.rootValid := rfl
@[simp] theorem State.storeText_rootH : (s.storeText out).rootH = s.rootH := rfl
@[simp] theorem State.storeText_nnode : (s.storeText out).nnode = s.nnode := rfl
@[simp] theorem State.storeText_text : (s.storeText out).text = s.text.writeFrom 0 out := rfl
@[simp] theorem State.storeText_pay : (s.storeText out).pay = s.pay := rfl
@[simp] theorem State.storeText_key : (s.storeText out).key = s.key := rfl
@[simp] theorem State.storeText_freq : (s.storeText out).freq = s.freq := rfl
@[simp] theorem State.storeText_clen : (s.storeText out).clen = s.clen := rfl
@[simp] theorem State.storeText_cbit : (s.storeText out).cbit = s.cbit := rfl
@[simp] theorem State.storeText_node : (s.storeText out).node = s.node := rfl
@[simp] theorem State.storeText_resp : (s.storeText out).resp = s.resp := rfl
@[simp] theorem State.storeText_turns : (s.storeText out).turns = s.turns := rfl
@[simp] theorem State.storeText_draws : (s.storeText out).draws = s.draws := rfl

end

section

variable (s : State) (e : Symbol × Code)

@[simp] theorem State.setCode_rstN : (s.setCode e).rstN = s.rstN := rfl
@[simp] theorem State.setCode_phase : (s.setCode e).phase = s.phase := rfl
@[simp] theorem State.setCode_cmdLatch : (s.setCode e).cmdLatch = s.cmdLatch := rfl
@[simp] theorem State.setCode_done : (s.setCode e).done = s.done := rfl
@[simp] theorem State.setCode_err : (s.setCode e).err = s.err := rfl
@[simp] theorem State.setCode_empty : (s.setCode e).empty = s.empty := rfl
@[simp] theorem State.setCode_ieDone : (s.setCode e).ieDone = s.ieDone := rfl
@[simp] theorem State.setCode_ieErr : (s.setCode e).ieErr = s.ieErr := rfl
@[simp] theorem State.setCode_cause : (s.setCode e).cause = s.cause := rfl
@[simp] theorem State.setCode_info : (s.setCode e).info = s.info := rfl
@[simp] theorem State.setCode_tlen : (s.setCode e).tlen = s.tlen := rfl
@[simp] theorem State.setCode_plen : (s.setCode e).plen = s.plen := rfl
@[simp] theorem State.setCode_pad : (s.setCode e).pad = s.pad := rfl
@[simp] theorem State.setCode_klen : (s.setCode e).klen = s.klen := rfl
@[simp] theorem State.setCode_rootValid : (s.setCode e).rootValid = s.rootValid := rfl
@[simp] theorem State.setCode_rootH : (s.setCode e).rootH = s.rootH := rfl
@[simp] theorem State.setCode_nnode : (s.setCode e).nnode = s.nnode := rfl
@[simp] theorem State.setCode_text : (s.setCode e).text = s.text := rfl
@[simp] theorem State.setCode_pay : (s.setCode e).pay = s.pay := rfl
@[simp] theorem State.setCode_key : (s.setCode e).key = s.key := rfl
@[simp] theorem State.setCode_freq : (s.setCode e).freq = s.freq := rfl
@[simp] theorem State.setCode_clen : (s.setCode e).clen = s.clen.write e.1.toNat (BitVec.ofNat 8 e.2.length) := rfl
@[simp] theorem State.setCode_cbit : (s.setCode e).cbit = s.cbit.writeFrom (cbitIndex e.1 0) ((List.range Config.cbitWords).map (codeWord e.2)) := rfl
@[simp] theorem State.setCode_node : (s.setCode e).node = s.node := rfl
@[simp] theorem State.setCode_resp : (s.setCode e).resp = s.resp := rfl
@[simp] theorem State.setCode_turns : (s.setCode e).turns = s.turns := rfl
@[simp] theorem State.setCode_draws : (s.setCode e).draws = s.draws := rfl

end

section

variable (s : State)

@[simp] theorem State.emptyTable_rstN : s.emptyTable.rstN = s.rstN := rfl
@[simp] theorem State.emptyTable_phase : s.emptyTable.phase = s.phase := rfl
@[simp] theorem State.emptyTable_cmdLatch : s.emptyTable.cmdLatch = s.cmdLatch := rfl
@[simp] theorem State.emptyTable_done : s.emptyTable.done = s.done := rfl
@[simp] theorem State.emptyTable_err : s.emptyTable.err = s.err := rfl
@[simp] theorem State.emptyTable_empty : s.emptyTable.empty = s.empty := rfl
@[simp] theorem State.emptyTable_ieDone : s.emptyTable.ieDone = s.ieDone := rfl
@[simp] theorem State.emptyTable_ieErr : s.emptyTable.ieErr = s.ieErr := rfl
@[simp] theorem State.emptyTable_cause : s.emptyTable.cause = s.cause := rfl
@[simp] theorem State.emptyTable_info : s.emptyTable.info = s.info := rfl
@[simp] theorem State.emptyTable_tlen : s.emptyTable.tlen = s.tlen := rfl
@[simp] theorem State.emptyTable_plen : s.emptyTable.plen = s.plen := rfl
@[simp] theorem State.emptyTable_pad : s.emptyTable.pad = s.pad := rfl
@[simp] theorem State.emptyTable_klen : s.emptyTable.klen = s.klen := rfl
@[simp] theorem State.emptyTable_rootValid : s.emptyTable.rootValid = s.rootValid := rfl
@[simp] theorem State.emptyTable_rootH : s.emptyTable.rootH = s.rootH := rfl
@[simp] theorem State.emptyTable_nnode : s.emptyTable.nnode = s.nnode := rfl
@[simp] theorem State.emptyTable_text : s.emptyTable.text = s.text := rfl
@[simp] theorem State.emptyTable_pay : s.emptyTable.pay = s.pay := rfl
@[simp] theorem State.emptyTable_key : s.emptyTable.key = s.key := rfl
@[simp] theorem State.emptyTable_freq : s.emptyTable.freq = s.freq := rfl
@[simp] theorem State.emptyTable_clen : s.emptyTable.clen = Memory.zeros := rfl
@[simp] theorem State.emptyTable_cbit : s.emptyTable.cbit = Memory.zeros := rfl
@[simp] theorem State.emptyTable_node : s.emptyTable.node = s.node := rfl
@[simp] theorem State.emptyTable_resp : s.emptyTable.resp = s.resp := rfl
@[simp] theorem State.emptyTable_turns : s.emptyTable.turns = s.turns := rfl
@[simp] theorem State.emptyTable_draws : s.emptyTable.draws = s.draws := rfl

end

section

variable (d : Nat)

@[simp] theorem State.afterReset_rstN : (State.afterReset d).rstN = true := rfl
@[simp] theorem State.afterReset_phase : (State.afterReset d).phase = .idle := rfl
@[simp] theorem State.afterReset_cmdLatch : (State.afterReset d).cmdLatch = 0#32 := rfl
@[simp] theorem State.afterReset_done : (State.afterReset d).done = false := rfl
@[simp] theorem State.afterReset_err : (State.afterReset d).err = false := rfl
@[simp] theorem State.afterReset_empty : (State.afterReset d).empty = false := rfl
@[simp] theorem State.afterReset_ieDone : (State.afterReset d).ieDone = false := rfl
@[simp] theorem State.afterReset_ieErr : (State.afterReset d).ieErr = false := rfl
@[simp] theorem State.afterReset_cause : (State.afterReset d).cause = 0#4 := rfl
@[simp] theorem State.afterReset_info : (State.afterReset d).info = 0#32 := rfl
@[simp] theorem State.afterReset_tlen : (State.afterReset d).tlen = 0#16 := rfl
@[simp] theorem State.afterReset_plen : (State.afterReset d).plen = 0#16 := rfl
@[simp] theorem State.afterReset_pad : (State.afterReset d).pad = 0#32 := rfl
@[simp] theorem State.afterReset_klen : (State.afterReset d).klen = 0#9 := rfl
@[simp] theorem State.afterReset_rootValid : (State.afterReset d).rootValid = false := rfl
@[simp] theorem State.afterReset_rootH : (State.afterReset d).rootH = 0#9 := rfl
@[simp] theorem State.afterReset_nnode : (State.afterReset d).nnode = 0#10 := rfl
@[simp] theorem State.afterReset_text : (State.afterReset d).text = Memory.unspecified d := rfl
@[simp] theorem State.afterReset_pay : (State.afterReset d).pay = Memory.unspecified d := rfl
@[simp] theorem State.afterReset_key : (State.afterReset d).key = Memory.unspecified d := rfl
@[simp] theorem State.afterReset_freq : (State.afterReset d).freq = Memory.zeros := rfl
@[simp] theorem State.afterReset_clen : (State.afterReset d).clen = Memory.zeros := rfl
@[simp] theorem State.afterReset_cbit : (State.afterReset d).cbit = Memory.unspecified d := rfl
@[simp] theorem State.afterReset_node : (State.afterReset d).node = Memory.unspecified d := rfl
@[simp] theorem State.afterReset_resp : (State.afterReset d).resp = none := rfl
@[simp] theorem State.afterReset_turns : (State.afterReset d).turns = [] := rfl
@[simp] theorem State.afterReset_draws : (State.afterReset d).draws = d + 1 := rfl

end

section

variable (s : State)

@[simp] theorem State.resetNow_rstN : s.resetNow.rstN = s.rstN := rfl
@[simp] theorem State.resetNow_phase : s.resetNow.phase = .idle := rfl
@[simp] theorem State.resetNow_cmdLatch : s.resetNow.cmdLatch = 0#32 := rfl
@[simp] theorem State.resetNow_done : s.resetNow.done = false := rfl
@[simp] theorem State.resetNow_err : s.resetNow.err = false := rfl
@[simp] theorem State.resetNow_empty : s.resetNow.empty = false := rfl
@[simp] theorem State.resetNow_ieDone : s.resetNow.ieDone = false := rfl
@[simp] theorem State.resetNow_ieErr : s.resetNow.ieErr = false := rfl
@[simp] theorem State.resetNow_cause : s.resetNow.cause = 0#4 := rfl
@[simp] theorem State.resetNow_info : s.resetNow.info = 0#32 := rfl
@[simp] theorem State.resetNow_tlen : s.resetNow.tlen = 0#16 := rfl
@[simp] theorem State.resetNow_plen : s.resetNow.plen = 0#16 := rfl
@[simp] theorem State.resetNow_pad : s.resetNow.pad = 0#32 := rfl
@[simp] theorem State.resetNow_klen : s.resetNow.klen = 0#9 := rfl
@[simp] theorem State.resetNow_rootValid : s.resetNow.rootValid = false := rfl
@[simp] theorem State.resetNow_rootH : s.resetNow.rootH = 0#9 := rfl
@[simp] theorem State.resetNow_nnode : s.resetNow.nnode = 0#10 := rfl
@[simp] theorem State.resetNow_text : s.resetNow.text = Memory.unspecified s.draws := rfl
@[simp] theorem State.resetNow_pay : s.resetNow.pay = Memory.unspecified s.draws := rfl
@[simp] theorem State.resetNow_key : s.resetNow.key = Memory.unspecified s.draws := rfl
@[simp] theorem State.resetNow_freq : s.resetNow.freq = Memory.zeros := rfl
@[simp] theorem State.resetNow_clen : s.resetNow.clen = Memory.zeros := rfl
@[simp] theorem State.resetNow_cbit : s.resetNow.cbit = Memory.unspecified s.draws := rfl
@[simp] theorem State.resetNow_node : s.resetNow.node = Memory.unspecified s.draws := rfl
@[simp] theorem State.resetNow_resp : s.resetNow.resp = s.resp := rfl
@[simp] theorem State.resetNow_turns : s.resetNow.turns = s.turns := rfl
@[simp] theorem State.resetNow_draws : s.resetNow.draws = s.draws + 1 := rfl

end

section

variable (s : State) (b : BuildState)

@[simp] theorem State.plant_rstN : (s.plant b).rstN = s.rstN := by
  unfold State.plant; split <;> rfl
@[simp] theorem State.plant_phase : (s.plant b).phase = s.phase := by
  unfold State.plant; split <;> rfl
@[simp] theorem State.plant_cmdLatch : (s.plant b).cmdLatch = s.cmdLatch := by
  unfold State.plant; split <;> rfl
@[simp] theorem State.plant_done : (s.plant b).done = s.done := by
  unfold State.plant; split <;> rfl
@[simp] theorem State.plant_err : (s.plant b).err = s.err := by
  unfold State.plant; split <;> rfl
@[simp] theorem State.plant_empty : (s.plant b).empty = s.empty := by
  unfold State.plant; split <;> rfl
@[simp] theorem State.plant_ieDone : (s.plant b).ieDone = s.ieDone := by
  unfold State.plant; split <;> rfl
@[simp] theorem State.plant_ieErr : (s.plant b).ieErr = s.ieErr := by
  unfold State.plant; split <;> rfl
@[simp] theorem State.plant_cause : (s.plant b).cause = s.cause := by
  unfold State.plant; split <;> rfl
@[simp] theorem State.plant_info : (s.plant b).info = s.info := by
  unfold State.plant; split <;> rfl
@[simp] theorem State.plant_tlen : (s.plant b).tlen = s.tlen := by
  unfold State.plant; split <;> rfl
@[simp] theorem State.plant_plen : (s.plant b).plen = s.plen := by
  unfold State.plant; split <;> rfl
@[simp] theorem State.plant_pad : (s.plant b).pad = s.pad := by
  unfold State.plant; split <;> rfl
@[simp] theorem State.plant_klen : (s.plant b).klen = s.klen := by
  unfold State.plant; split <;> rfl
@[simp] theorem State.plant_text : (s.plant b).text = s.text := by
  unfold State.plant; split <;> rfl
@[simp] theorem State.plant_pay : (s.plant b).pay = s.pay := by
  unfold State.plant; split <;> rfl
@[simp] theorem State.plant_key : (s.plant b).key = s.key := by
  unfold State.plant; split <;> rfl
@[simp] theorem State.plant_freq : (s.plant b).freq = s.freq := by
  unfold State.plant; split <;> rfl
@[simp] theorem State.plant_clen : (s.plant b).clen = s.clen := by
  unfold State.plant; split <;> rfl
@[simp] theorem State.plant_cbit : (s.plant b).cbit = s.cbit := by
  unfold State.plant; split <;> rfl
@[simp] theorem State.plant_node : (s.plant b).node = b.node := by
  unfold State.plant; split <;> rfl
@[simp] theorem State.plant_resp : (s.plant b).resp = s.resp := by
  unfold State.plant; split <;> rfl
@[simp] theorem State.plant_turns : (s.plant b).turns = s.turns := by
  unfold State.plant; split <;> rfl
@[simp] theorem State.plant_draws : (s.plant b).draws = s.draws := by
  unfold State.plant; split <;> rfl

theorem State.plant_null (h : b.queue = []) :
    (s.plant b).rootValid = false ∧ (s.plant b).rootH = 0#9 ∧ (s.plant b).nnode = 0#10 := by
  unfold State.plant; rw [h]; exact ⟨rfl, rfl, rfl⟩

theorem State.plant_root {r : PqEntry} {rest : List PqEntry} (h : b.queue = r :: rest) :
    (s.plant b).rootValid = true ∧ (s.plant b).rootH = r.handle ∧
      (s.plant b).nnode = BitVec.ofNat 10 b.next := by
  unfold State.plant; rw [h]; exact ⟨rfl, rfl, rfl⟩

end

section

variable (s : State) (es : List (Symbol × Code))

@[simp] theorem State.setCodes_rstN : (es.foldl State.setCode s).rstN = s.rstN := by
  induction es generalizing s with
  | nil => rfl
  | cons e es ih => simp [ih]
@[simp] theorem State.setCodes_phase : (es.foldl State.setCode s).phase = s.phase := by
  induction es generalizing s with
  | nil => rfl
  | cons e es ih => simp [ih]
@[simp] theorem State.setCodes_cmdLatch : (es.foldl State.setCode s).cmdLatch = s.cmdLatch := by
  induction es generalizing s with
  | nil => rfl
  | cons e es ih => simp [ih]
@[simp] theorem State.setCodes_done : (es.foldl State.setCode s).done = s.done := by
  induction es generalizing s with
  | nil => rfl
  | cons e es ih => simp [ih]
@[simp] theorem State.setCodes_err : (es.foldl State.setCode s).err = s.err := by
  induction es generalizing s with
  | nil => rfl
  | cons e es ih => simp [ih]
@[simp] theorem State.setCodes_empty : (es.foldl State.setCode s).empty = s.empty := by
  induction es generalizing s with
  | nil => rfl
  | cons e es ih => simp [ih]
@[simp] theorem State.setCodes_ieDone : (es.foldl State.setCode s).ieDone = s.ieDone := by
  induction es generalizing s with
  | nil => rfl
  | cons e es ih => simp [ih]
@[simp] theorem State.setCodes_ieErr : (es.foldl State.setCode s).ieErr = s.ieErr := by
  induction es generalizing s with
  | nil => rfl
  | cons e es ih => simp [ih]
@[simp] theorem State.setCodes_cause : (es.foldl State.setCode s).cause = s.cause := by
  induction es generalizing s with
  | nil => rfl
  | cons e es ih => simp [ih]
@[simp] theorem State.setCodes_info : (es.foldl State.setCode s).info = s.info := by
  induction es generalizing s with
  | nil => rfl
  | cons e es ih => simp [ih]
@[simp] theorem State.setCodes_tlen : (es.foldl State.setCode s).tlen = s.tlen := by
  induction es generalizing s with
  | nil => rfl
  | cons e es ih => simp [ih]
@[simp] theorem State.setCodes_plen : (es.foldl State.setCode s).plen = s.plen := by
  induction es generalizing s with
  | nil => rfl
  | cons e es ih => simp [ih]
@[simp] theorem State.setCodes_pad : (es.foldl State.setCode s).pad = s.pad := by
  induction es generalizing s with
  | nil => rfl
  | cons e es ih => simp [ih]
@[simp] theorem State.setCodes_klen : (es.foldl State.setCode s).klen = s.klen := by
  induction es generalizing s with
  | nil => rfl
  | cons e es ih => simp [ih]
@[simp] theorem State.setCodes_rootValid : (es.foldl State.setCode s).rootValid = s.rootValid := by
  induction es generalizing s with
  | nil => rfl
  | cons e es ih => simp [ih]
@[simp] theorem State.setCodes_rootH : (es.foldl State.setCode s).rootH = s.rootH := by
  induction es generalizing s with
  | nil => rfl
  | cons e es ih => simp [ih]
@[simp] theorem State.setCodes_nnode : (es.foldl State.setCode s).nnode = s.nnode := by
  induction es generalizing s with
  | nil => rfl
  | cons e es ih => simp [ih]
@[simp] theorem State.setCodes_text : (es.foldl State.setCode s).text = s.text := by
  induction es generalizing s with
  | nil => rfl
  | cons e es ih => simp [ih]
@[simp] theorem State.setCodes_pay : (es.foldl State.setCode s).pay = s.pay := by
  induction es generalizing s with
  | nil => rfl
  | cons e es ih => simp [ih]
@[simp] theorem State.setCodes_key : (es.foldl State.setCode s).key = s.key := by
  induction es generalizing s with
  | nil => rfl
  | cons e es ih => simp [ih]
@[simp] theorem State.setCodes_freq : (es.foldl State.setCode s).freq = s.freq := by
  induction es generalizing s with
  | nil => rfl
  | cons e es ih => simp [ih]
@[simp] theorem State.setCodes_node : (es.foldl State.setCode s).node = s.node := by
  induction es generalizing s with
  | nil => rfl
  | cons e es ih => simp [ih]
@[simp] theorem State.setCodes_resp : (es.foldl State.setCode s).resp = s.resp := by
  induction es generalizing s with
  | nil => rfl
  | cons e es ih => simp [ih]
@[simp] theorem State.setCodes_turns : (es.foldl State.setCode s).turns = s.turns := by
  induction es generalizing s with
  | nil => rfl
  | cons e es ih => simp [ih]
@[simp] theorem State.setCodes_draws : (es.foldl State.setCode s).draws = s.draws := by
  induction es generalizing s with
  | nil => rfl
  | cons e es ih => simp [ih]

end

end Sys2Proof.Machine
end

