-- ==== Sys2Proof/Laws/Operands.lean ====
section
/-! SUPPORT. The laws of the operand forms: digits in words and bytes, codes in the table, bits of the
payload stream. -/

namespace Sys2Proof.Machine

theorem natOfDigits_lt (ds : List Bool) : natOfDigits ds < 2 ^ ds.length := by
  induction ds with
  | nil => simp [natOfDigits]
  | cons d ds ih =>
    have := d.toNat_le
    simp only [natOfDigits, List.length_cons, pow_succ]
    omega

/-- Bit j of the number is digit j. -/
theorem testBit_natOfDigits (ds : List Bool) (j : Nat) :
    (natOfDigits ds).testBit j = ds.getD j false := by
  induction ds generalizing j with
  | nil => simp [natOfDigits]
  | cons d ds ih =>
    cases j with
    | zero => cases d <;> simp [natOfDigits, Nat.testBit_zero, Nat.add_mul_mod_self_left]
    | succ j =>
      have h : (natOfDigits (d :: ds)) / 2 = natOfDigits ds := by
        simp only [natOfDigits]; cases d <;> simp; omega
      rw [Nat.testBit_succ, h, ih]
      simp

/-- Digit 32 k + j of a code is bit j of its word k, 0 beyond the code (R131). -/
theorem getLsbD_codeWord (c : Code) (k : Nat) {j : Nat} (h : j < 32) :
    (codeWord c k).getLsbD j = c.getD (32 * k + j) false := by
  simp only [codeWord, BitVec.getLsbD_ofNat, testBit_natOfDigits, h, decide_true, Bool.true_and]
  simp only [List.getD_eq_getElem?_getD, List.getElem?_take, List.getElem?_drop]
  simp [h]

/-- Digit j of eight is bit 7 - j of their byte (R97). -/
theorem getLsbD_byteOfDigits {ds : List Bool} (h : ds.length = 8) {j : Nat} (hj : j < 8) :
    (byteOfDigits ds).getLsbD (7 - j) = ds.getD j false := by
  have h7 : 7 - j < 8 := by omega
  simp only [byteOfDigits, BitVec.getLsbD_ofNat, testBit_natOfDigits, h7, decide_true, Bool.true_and]
  simp only [List.getD_eq_getElem?_getD]
  rw [List.getElem?_reverse (by omega)]
  have e : ds.length - 1 - (7 - j) = j := by omega
  rw [e]

@[simp] theorem length_bytesOfDigits (n : Nat) (ds : List Bool) : (bytesOfDigits n ds).length = n := by
  induction n generalizing ds with
  | zero => rfl
  | succ n ih => simp [bytesOfDigits, ih]

theorem getD_bytesOfDigits {n k : Nat} (h : k < n) (ds : List Bool) :
    (bytesOfDigits n ds).getD k default = byteOfDigits ((ds.drop (8 * k)).take 8) := by
  induction n generalizing k ds with
  | zero => omega
  | succ n ih =>
    cases k with
    | zero => simp [bytesOfDigits]
    | succ k =>
      have := ih (k := k) (by omega) (ds.drop 8)
      simp only [bytesOfDigits, List.getD_cons_succ, this, List.drop_drop]
      congr 3
      omega

theorem padCount_lt (n : Nat) : padCount n < 8 := by unfold padCount; omega

theorem padCount_mod (n : Nat) : (n + padCount n) % 8 = 0 := by unfold padCount; omega

theorem length_packBytes (ds : List Bool) :
    (packBytes ds).length = (ds.length + padCount ds.length) / 8 := by
  simp [packBytes]

/-- Bit p of the packed bytes is digit p of the stream, and 0 in the filler (R141). -/
theorem getLsbD_packBytes (ds : List Bool) {p : Nat} (h : p < 8 * (packBytes ds).length) :
    ((packBytes ds).getD (p / 8) default).getLsbD (7 - p % 8) = ds.getD p false := by
  have hl := length_packBytes ds
  have hm := padCount_mod ds.length
  have hp : p / 8 < (ds.length + padCount ds.length) / 8 := by omega
  have hlen : (List.take 8 (List.drop (8 * (p / 8))
      (ds ++ List.replicate (padCount ds.length) false))).length = 8 := by
    simp only [List.length_take, List.length_drop, List.length_append, List.length_replicate]
    omega
  rw [packBytes, getD_bytesOfDigits hp, getLsbD_byteOfDigits hlen (Nat.mod_lt _ (by omega))]
  simp only [List.getD_eq_getElem?_getD, List.getElem?_take, List.getElem?_drop]
  rw [if_pos (Nat.mod_lt _ (by omega)), Nat.div_add_mod, List.getElem?_append]
  split
  · rfl
  · next hn =>
    rw [List.getElem?_replicate, List.getElem?_eq_none (by omega : ds.length ≤ p)]
    split <;> rfl

@[simp] theorem State.length_codeOf (s : State) (c : Symbol) :
    (s.codeOf c).length = (s.clenAt c).toNat := by
  simp [State.codeOf]

theorem State.codeOf_eq_nil (s : State) (c : Symbol) : s.codeOf c = [] ↔ s.clenAt c = 0#8 := by
  rw [← List.length_eq_zero_iff, State.length_codeOf]
  constructor
  · intro h; exact BitVec.eq_of_toNat_eq h
  · intro h; rw [h]; rfl

/-- The code of a symbol is made of CLEN and CBIT alone. -/
theorem State.codeOf_congr {s t : State} (hl : t.clen = s.clen) (hb : t.cbit = s.cbit) :
    t.codeOf = s.codeOf := by
  have digits : ∀ c, t.digitAt c = s.digitAt c := fun c => by
    funext j
    simp only [State.digitAt, State.cbitAt, hb]
  funext c
  simp only [State.codeOf, State.clenAt, digits, hl]

theorem cbitIndex_lt (c : Symbol) {k : Nat} (h : k < 8) : cbitIndex c k < 2048 := by
  have := c.isLt
  simp only [cbitIndex, Config.cbitWords]
  omega

theorem State.clenAt_setCode (s : State) (e : Symbol × Code) (c : Symbol) :
    (s.setCode e).clenAt c = if c = e.1 then BitVec.ofNat 8 e.2.length else s.clenAt c := by
  simp only [State.clenAt, State.setCode_clen, Memory.read_write]
  by_cases h : c = e.1
  · simp [h]
  · have : c.toNat ≠ e.1.toNat := fun e' => h (BitVec.eq_of_toNat_eq e')
    simp [h, this]

theorem State.cbitAt_setCode (s : State) (e : Symbol × Code) (c : Symbol) {k : Nat} (hk : k < 8) :
    (s.setCode e).cbitAt c k = if c = e.1 then codeWord e.2 k else s.cbitAt c k := by
  have hc := c.isLt
  have he := e.1.isLt
  simp only [State.cbitAt, State.setCode_cbit, Memory.read_writeFrom, List.length_map,
    List.length_range, cbitIndex, Config.cbitWords, Nat.add_zero]
  by_cases h : c = e.1
  · subst h
    rw [if_pos rfl, if_pos ⟨by omega, by omega⟩, Nat.add_sub_cancel_left,
      List.getD_eq_getElem?_getD, List.getElem?_map, List.getElem?_range hk]
    rfl
  · have : c.toNat ≠ e.1.toNat := fun e' => h (BitVec.eq_of_toNat_eq e')
    rw [if_neg h, if_neg (by omega)]

/-- `setcode(c, code)` gives symbol c that code and leaves every other symbol's (R230). -/
theorem State.codeOf_setCode (s : State) (e : Symbol × Code) (he : e.2.length ≤ Config.codeMax)
    (c : Symbol) : (s.setCode e).codeOf c = if c = e.1 then e.2 else s.codeOf c := by
  have hcode : e.2.length < 256 := by simp only [Config.codeMax] at he; omega
  have digit : ∀ (t : State) j, t.digitAt c j = (t.cbitAt c (j / 32)).getLsbD (j % 32) := fun _ _ => rfl
  by_cases h : c = e.1
  · rw [if_pos h]
    have hl : ((s.setCode e).clenAt c).toNat = e.2.length := by
      rw [State.clenAt_setCode, if_pos h, BitVec.toNat_ofNat, Nat.mod_eq_of_lt hcode]
    refine List.ext_getElem (by rw [State.length_codeOf, hl]) fun j h1 h2 => ?_
    have hj : j / 32 < 8 := by omega
    simp only [State.codeOf, List.getElem_map, List.getElem_range, digit]
    rw [State.cbitAt_setCode s e c hj, if_pos h, getLsbD_codeWord _ _ (Nat.mod_lt _ (by omega)),
      Nat.div_add_mod, List.getD_eq_getElem?_getD, List.getElem?_eq_getElem h2]
    rfl
  · have hl : (s.setCode e).clenAt c = s.clenAt c := by rw [State.clenAt_setCode, if_neg h]
    rw [if_neg h]
    simp only [State.codeOf, hl]
    refine List.map_congr_left fun j hj => ?_
    have hc := (s.clenAt c).isLt
    have hj' := List.mem_range.1 hj
    have : j / 32 < 8 := by omega
    rw [digit, digit, State.cbitAt_setCode s e c this, if_neg h]

/-- Where the digits beyond a table's codes are 0, they are 0 after `setcode` as well (R230, R235). -/
theorem State.digitAt_setCode_beyond {s : State}
    (hs : ∀ c j, (s.clenAt c).toNat ≤ j → j < 256 → s.digitAt c j = false)
    {e : Symbol × Code} (he : e.2.length ≤ Config.codeMax) :
    ∀ c j, ((s.setCode e).clenAt c).toNat ≤ j → j < 256 → (s.setCode e).digitAt c j = false := by
  intro c j hj hlt
  have hk : j / 32 < 8 := by omega
  simp only [Config.codeMax] at he
  rw [State.clenAt_setCode] at hj
  rw [State.digitAt, State.cbitAt_setCode _ _ _ hk]
  by_cases hc : c = e.1
  · rw [if_pos hc, BitVec.toNat_ofNat, Nat.mod_eq_of_lt (by omega)] at hj
    rw [if_pos hc, getLsbD_codeWord _ _ (Nat.mod_lt _ (by omega)), Nat.div_add_mod,
      List.getD_eq_getElem?_getD, List.getElem?_eq_none hj]
    rfl
  · rw [if_neg hc] at hj ⊢
    exact hs c j hj hlt

@[simp] theorem State.length_textSymbols (s : State) : s.textSymbols.length = s.tlen.toNat := by
  simp [State.textSymbols]

@[simp] theorem State.length_keptStream (s : State) : s.keptStream.length = s.keptBits := by
  simp [State.keptStream]

/-- Bit p of the payload after PACK stored a stream that fits (R252). -/
theorem State.payBit_storePayload (s : State) (ds : List Bool) {p : Nat}
    (h : p < 8 * (packBytes ds).length) : (s.storePayload ds).payBit p = ds.getD p false := by
  have hp : p / 8 < (packBytes ds).length := by omega
  simp only [State.payBit, State.payAt, State.storePayload_pay, Memory.read_writeFrom_zero, if_pos hp]
  exact getLsbD_packBytes ds h

theorem State.plen_storePayload (s : State) (ds : List Bool) (h : ds.length ≤ 8 * Config.payMax) :
    (s.storePayload ds).plen.toNat = (packBytes ds).length := by
  have := padCount_mod ds.length
  have := padCount_lt ds.length
  rw [State.storePayload_plen, length_packBytes, BitVec.toNat_ofNat]
  simp only [Config.payMax] at h
  omega

theorem State.pad_storePayload (s : State) (ds : List Bool) :
    (s.storePayload ds).pad.toNat = padCount ds.length := by
  have := padCount_lt ds.length
  rw [State.storePayload_pad, BitVec.toNat_ofNat]
  omega

/-- The kept bits of a stored stream are the stream: the filler is what is dropped (R141, R273). -/
theorem State.keptStream_storePayload (s : State) (ds : List Bool) (h : ds.length ≤ 8 * Config.payMax) :
    (s.storePayload ds).keptStream = ds := by
  have hb : (s.storePayload ds).keptBits = ds.length := by
    have := padCount_mod ds.length
    rw [State.keptBits, State.plen_storePayload s ds h, State.pad_storePayload, length_packBytes]
    omega
  refine List.ext_getElem (by rw [State.length_keptStream, hb]) fun p h1 h2 => ?_
  have hl := length_packBytes ds
  have := padCount_mod ds.length
  simp only [State.keptStream, List.getElem_map, List.getElem_range]
  rw [State.payBit_storePayload s ds (by omega), List.getD_eq_getElem?_getD,
    List.getElem?_eq_getElem h2]
  rfl

end Sys2Proof.Machine
end

