-- ==== Sys2Proof/Laws/Streams.lean ====
section
/-! SUPPORT. What PACK's and UNPACK's walks over a stream can do, said once each. -/

namespace Sys2Proof.Machine

section Pack

variable {code : Symbol → Code}

/-- PACK's stream when every symbol has an entry and all digits fit: the codes in order (R141). -/
theorem packStream_ok {i n : Nat} {ts : List Symbol} (he : ∀ c ∈ ts, code c ≠ [])
    (hf : n + ((ts.map code).flatten).length ≤ 8 * Config.payMax) :
    packStream code i n ts = .ok ((ts.map code).flatten) := by
  induction ts generalizing i n with
  | nil => rfl
  | cons c ts ih =>
    have hc : code c ≠ [] := he c (by simp)
    simp only [List.map_cons, List.flatten_cons, List.length_append] at hf
    rw [packStream, if_neg (by simpa using hc), if_neg (by omega),
      ih (fun d hd => he d (by simp [hd])) (by omega)]
    rfl

/-- The first symbol without an entry faults, if all before it fit (R253). -/
theorem packStream_missing {i n : Nat} {pre post : List Symbol} {c : Symbol}
    (he : ∀ d ∈ pre, code d ≠ []) (hf : n + ((pre.map code).flatten).length ≤ 8 * Config.payMax)
    (hc : code c = []) :
    packStream code i n (pre ++ c :: post) = .error (.missingCode (i + pre.length)) := by
  induction pre generalizing i n with
  | nil => simp [packStream, hc]
  | cons d pre ih =>
    have hd : code d ≠ [] := he d (by simp)
    simp only [List.map_cons, List.flatten_cons, List.length_append] at hf
    rw [List.cons_append, packStream, if_neg (by simpa using hd), if_neg (by omega),
      ih (fun d hd => he d (by simp [hd])) (by omega), List.length_cons]
    simp only [Nat.add_assoc, Nat.add_comm 1]

/-- The first symbol whose code does not fit faults, if all before it have entries and fit (R254). -/
theorem packStream_overflow {i n : Nat} {pre post : List Symbol} {c : Symbol}
    (he : ∀ d ∈ pre, code d ≠ []) (hf : n + ((pre.map code).flatten).length ≤ 8 * Config.payMax)
    (hc : code c ≠ [])
    (ho : 8 * Config.payMax < n + ((pre.map code).flatten).length + (code c).length) :
    packStream code i n (pre ++ c :: post) = .error (.payloadOverflow (i + pre.length)) := by
  induction pre generalizing i n with
  | nil =>
    simp only [List.map_nil, List.flatten_nil, List.length_nil, Nat.add_zero] at ho
    rw [List.nil_append, packStream, if_neg (by simpa using hc), if_pos (by omega)]
    rfl
  | cons d pre ih =>
    have hd : code d ≠ [] := he d (by simp)
    simp only [List.map_cons, List.flatten_cons, List.length_append] at hf ho
    rw [List.cons_append, packStream, if_neg (by simpa using hd), if_neg (by omega),
      ih (fun d hd => he d (by simp [hd])) (by omega) (by omega), List.length_cons]
    simp only [Nat.add_assoc, Nat.add_comm 1]

/-- Everything PACK's walk can answer: the codes in order, all present and fitting, or one of its faults. -/
theorem packStream_cases (code : Symbol → Code) (i n : Nat) (ts : List Symbol) :
    (packStream code i n ts = .ok ((ts.map code).flatten) ∧ (∀ c ∈ ts, code c ≠ []) ∧
      (ts ≠ [] → n + ((ts.map code).flatten).length ≤ 8 * Config.payMax)) ∨
    (∃ j, packStream code i n ts = .error (.missingCode j)) ∨
    (∃ j, packStream code i n ts = .error (.payloadOverflow j)) := by
  induction ts generalizing i n with
  | nil => exact .inl ⟨rfl, by simp, by simp⟩
  | cons c ts ih =>
    rw [packStream]
    by_cases hc : (code c).length = 0
    · exact .inr (.inl ⟨i, by rw [if_pos hc]⟩)
    · by_cases ho : n + (code c).length > 8 * Config.payMax
      · exact .inr (.inr ⟨i, by rw [if_neg hc, if_pos ho]⟩)
      · rw [if_neg hc, if_neg ho]
        rcases ih (i + 1) (n + (code c).length) with ⟨h, he, hf⟩ | ⟨j, h⟩ | ⟨j, h⟩
        · refine .inl ⟨by rw [h]; rfl, ?_, ?_⟩
          · intro d hd
            rcases List.mem_cons.1 hd with rfl | hd
            · simpa using hc
            · exact he d hd
          · intro _
            simp only [List.map_cons, List.flatten_cons, List.length_append]
            cases ts with
            | nil => simp only [List.map_nil, List.flatten_nil, List.length_nil]; omega
            | cons e es => have := hf (by simp); omega
        · exact .inr (.inl ⟨j, by rw [h]⟩)
        · exact .inr (.inr ⟨j, by rw [h]⟩)

end Pack

section Unpack

variable {found : Code → Option Symbol}

/-- The walk over digits that complete no match: it ends in UnknownSymbolInCode at the candidate's start
(R277). -/
theorem unpackWalk_unmatched {p start t : Nat} {cand rest : List Bool}
    (hn : ∀ k, 0 < k → k ≤ rest.length → found (cand ++ rest.take k) = none)
    (hne : cand ++ rest ≠ []) :
    unpackWalk found p start t cand rest = .error (.unknownSymbolInCode start) := by
  induction rest generalizing p cand with
  | nil =>
    have : cand ≠ [] := by simpa using hne
    simp [unpackWalk, this]
  | cons b rest ih =>
    have h1 : found (cand ++ [b]) = none := by simpa using hn 1 (by omega) (by simp)
    rw [unpackWalk, h1]
    refine ih (fun k hk hl => ?_) (by simp)
    simpa using hn (k + 1) (by omega) (by simpa using hl)

/-- The walk over the digits of one code: no candidate on the way matches, the whole code does, and the
symbol is emitted or, when TEXT is full, TextOverflow is raised (R274, R278). -/
theorem unpackWalk_matched {p start t : Nat} {cand more bits : List Bool} {c : Symbol}
    (hn : ∀ k, 0 < k → k < more.length → found (cand ++ more.take k) = none)
    (hne : more ≠ []) (hc : found (cand ++ more) = some c) :
    unpackWalk found p start t cand (more ++ bits) =
      if t = Config.textMax then .error (.textOverflow start)
      else
        match unpackWalk found (p + more.length) (p + more.length) (t + 1) [] bits with
        | .ok out => .ok (c :: out)
        | .error f => .error f := by
  induction more generalizing p cand with
  | nil => exact absurd rfl hne
  | cons b more ih =>
    cases more with
    | nil =>
      rw [List.cons_append, List.nil_append, unpackWalk, hc]
      rfl
    | cons b' more =>
      have h1 : found (cand ++ [b]) = none := by simpa using hn 1 (by omega) (by simp)
      have hrec := ih (p := p + 1) (cand := cand ++ [b])
        (fun k hk hl => by simpa using hn (k + 1) (by omega) (by simpa using hl)) (by simp)
        (by simpa using hc)
      rw [List.cons_append, unpackWalk, h1]
      have e : p + 1 + (b' :: more).length = p + (b :: b' :: more).length := by
        simp only [List.length_cons]; omega
      simp only [hrec, e]

/-- Everything UNPACK's walk can answer: symbols that fit in TEXT, or one of its late faults. -/
theorem unpackWalk_cases (found : Code → Option Symbol) (p start t : Nat) (cand bits : List Bool)
    (ht : t ≤ Config.textMax) :
    (∃ out, unpackWalk found p start t cand bits = .ok out ∧ t + out.length ≤ Config.textMax) ∨
    (∃ q, unpackWalk found p start t cand bits = .error (.unknownSymbolInCode q)) ∨
    (∃ q, unpackWalk found p start t cand bits = .error (.textOverflow q)) := by
  induction bits generalizing p start t cand with
  | nil =>
    by_cases h : cand = []
    · exact .inl ⟨[], by simp [unpackWalk, h], by simpa using ht⟩
    · exact .inr (.inl ⟨start, by simp [unpackWalk, h]⟩)
  | cons b bits ih =>
    rw [unpackWalk]
    cases hf : found (cand ++ [b]) with
    | none => exact ih (p + 1) start t (cand ++ [b]) ht
    | some c =>
      by_cases hm : t = Config.textMax
      · exact .inr (.inr ⟨start, by simp [hm]⟩)
      · simp only [if_neg hm]
        rcases ih (p + 1) (p + 1) (t + 1) [] (by omega) with ⟨out, h, hl⟩ | ⟨q, h⟩ | ⟨q, h⟩
        · exact .inl ⟨c :: out, by rw [h], by simp only [List.length_cons]; omega⟩
        · exact .inr (.inl ⟨q, by rw [h]⟩)
        · exact .inr (.inr ⟨q, by rw [h]⟩)

end Unpack

end Sys2Proof.Machine
end

