-- ==== Sys2Proof/Laws/Search.lean ====
section
/-! SUPPORT. The 256 symbols in order, and what UNPACK's search for a match finds (R270, R276). -/

namespace Sys2Proof.Machine

theorem mem_allSymbols (c : Symbol) : c ∈ allSymbols :=
  List.mem_map.2 ⟨c.toNat, List.mem_range.2 c.isLt, by simp⟩

theorem allSymbols_rising : allSymbols.Pairwise (fun a b => a.toNat < b.toNat) := by
  unfold allSymbols
  rw [List.pairwise_map]
  refine List.Pairwise.imp_of_mem ?_ List.pairwise_lt_range
  intro a b ha hb hab
  have := List.mem_range.1 ha
  have := List.mem_range.1 hb
  simp only [Config.nSym] at *
  simp only [BitVec.toNat_ofNat]
  omega

theorem length_allSymbols : allSymbols.length = 256 := by
  simp [allSymbols, Config.nSym]

/-- An entry is the candidate exactly when the symbol's code is, and is a code at all. -/
theorem State.entryIs_iff (s : State) (cand : Code) (c : Symbol) :
    s.entryIs cand c = true ↔ s.codeOf c = cand ∧ cand ≠ [] := by
  simp only [State.entryIs, Bool.and_eq_true, decide_eq_true_eq]
  constructor
  · rintro ⟨⟨h1, h2⟩, h3⟩
    refine ⟨h3, ?_⟩
    rintro rfl
    simp only [List.length_nil] at h1
    omega
  · rintro ⟨rfl, h⟩
    rw [← State.length_codeOf]
    exact ⟨⟨rfl, List.length_pos_iff.2 h⟩, rfl⟩

theorem State.matchLeast_eq_none (s : State) (cand : Code) :
    s.matchLeast cand = none ↔ ∀ b, s.codeOf b ≠ [] → s.codeOf b ≠ cand := by
  simp only [State.matchLeast, List.find?_eq_none]
  constructor
  · intro h b hb he
    exact h b (mem_allSymbols b) ((State.entryIs_iff ..).2 ⟨he, he ▸ hb⟩)
  · intro h b _ hb
    obtain ⟨h1, h2⟩ := (State.entryIs_iff ..).1 hb
    exact h b (h1 ▸ h2) h1

/-- The symbol found is the least whose code is the candidate. -/
theorem State.matchLeast_eq_some (s : State) (cand : Code) (c : Symbol) :
    s.matchLeast cand = some c ↔
      s.codeOf c = cand ∧ cand ≠ [] ∧ ∀ b, s.codeOf b = cand → c.toNat ≤ b.toNat := by
  have hs := allSymbols_rising
  constructor
  · intro h
    obtain ⟨h1, as, bs, hsplit, hno⟩ := List.find?_eq_some_iff_append.1 h
    obtain ⟨hc, hne⟩ := (State.entryIs_iff ..).1 h1
    refine ⟨hc, hne, fun b hb => ?_⟩
    have hm := mem_allSymbols b
    rw [hsplit] at hm hs
    rcases List.mem_append.1 hm with hm | hm
    · have := hno b hm
      rw [(State.entryIs_iff s cand b).2 ⟨hb, hne⟩] at this
      cases this
    · rcases List.mem_cons.1 hm with rfl | hm
      · exact le_refl _
      · exact le_of_lt ((List.pairwise_cons.1 (List.pairwise_append.1 hs).2.1).1 b hm)
  · rintro ⟨hc, hne, hl⟩
    cases hm : s.matchLeast cand with
    | none =>
      exact absurd hc ((State.matchLeast_eq_none s cand).1 hm c (hc ▸ hne))
    | some b =>
      obtain ⟨h1, as, bs, hsplit, hno⟩ := List.find?_eq_some_iff_append.1 hm
      obtain ⟨hb, -⟩ := (State.entryIs_iff ..).1 h1
      have hcb := hl b hb
      have hmem := mem_allSymbols c
      rw [hsplit] at hmem hs
      rcases List.mem_append.1 hmem with hmem | hmem
      · have := hno c hmem
        rw [(State.entryIs_iff s cand c).2 ⟨hc, hne⟩] at this
        cases this
      · rcases List.mem_cons.1 hmem with rfl | hmem
        · rfl
        · have := (List.pairwise_cons.1 (List.pairwise_append.1 hs).2.1).1 c hmem
          omega

end Sys2Proof.Machine
end

