-- ==== Sys2Proof/Laws/Driver.lean ====
section
/-! SUPPORT. What the driver's checks and its programs can answer, said once each. -/

namespace Sys2Proof.Machine

/-- ENCODE: refused untouched, or its lines are played (R303, R306). -/
theorem runEncode_cases (t : List Symbol) (k : List Byte) (s : State) :
    (textFits t = false ∧ runEncode t k s = refuseInput s .textTooLong) ∨
    (textFits t = true ∧ keyFits k = false ∧ runEncode t k s = refuseInput s .keyTooLong) ∨
    (textFits t = true ∧ keyFits k = true ∧ runEncode t k s = play s (encodeLines t k)) := by
  unfold runEncode encodeInputError
  cases textFits t <;> cases keyFits k <;> simp

/-- DECODE: refused untouched, or its lines are played (R304, R306). -/
theorem runDecode_cases (b k : List Byte) (table : List (Symbol × Code)) (p : Int) (s : State) :
    (payloadFits b = false ∧ runDecode b k table p s = refuseInput s .ciphertextTooLong) ∨
    (payloadFits b = true ∧ keyFits k = false ∧ runDecode b k table p s = refuseInput s .keyTooLong) ∨
    (payloadFits b = true ∧ keyFits k = true ∧ tableFits table = false ∧
      runDecode b k table p s = refuseInput s .malformedTable) ∨
    (payloadFits b = true ∧ keyFits k = true ∧ tableFits table = true ∧
      runDecode b k table p s = play s (decodeLines b k table p)) := by
  unfold runDecode decodeInputError
  cases payloadFits b <;> cases keyFits k <;> cases tableFits table <;> simp

/-- A program in two parts: the second runs exactly when the first finishes (R300; log 23). -/
theorem play_append (s : State) (l m : List HostLine) :
    play s (l ++ m) = if (play s l).report = .finished then play (play s l).state m else play s l := by
  induction l generalizing s with
  | nil => simp [play]
  | cons x l ih =>
    simp only [List.cons_append, play]
    by_cases h : (playLine s x).report = .finished
    · simp only [if_pos h, ih]
    · simp only [if_neg h]

/-- The digits of a printed code are the code's (R133). -/
theorem readDigits_printCode (d : Code) : readDigits (printCode d) = some d := by
  induction d with
  | nil => rfl
  | cons b d ih =>
    have h : readDigits (printCode (b :: d)) =
        match readDigit (if b then '1' else '0'), readDigits (printCode d) with
        | some x, some xs => some (x :: xs)
        | _, _ => none := rfl
    rw [h, ih]
    cases b <;> rfl

theorem readSymbol_toNat (c : Symbol) : readSymbol c.toNat = .ok c := by
  have h : c.toNat < Config.nSym := c.isLt
  rw [readSymbol, if_pos h]
  simp

/-- The table a software layer gives out is read back as it was (R133, R302). -/
theorem readTable_strings (r : Encoded) : readTable r.strings = .ok r.table := by
  obtain ⟨b, t, p⟩ := r
  unfold Encoded.strings
  induction t with
  | nil => rfl
  | cons e t ih =>
    simp only at ih
    simp only [List.map_cons, readTable, readSymbol_toNat, readDigits_printCode, ih]

/-- So DECODE behind the software interface, of what ENCODE gave out, is DECODE of the table itself. -/
theorem softwareDecode_strings (b k : List Byte) (r : Encoded) (p : Int) (s : State) :
    softwareDecode b k r.strings p s = runDecode b k r.table p s := by
  rw [softwareDecode, readTable_strings]

end Sys2Proof.Machine
end

