-- ==== Sys2Proof/Laws/PerInstr.lean ====
section
/-! SUPPORT. Statements about every command as syntax: a family here, one lemma per constructor. -/

/-- The command's word is defined and decodes to the command itself (spec/30_encoding.md R121). -/
def Sys2Proof.Laws.RoundTrip.Statement (i : Sys2Proof.Instr) : Prop :=
  Sys2Proof.commandWordDefined (Sys2Proof.encode i) = true ∧
    Sys2Proof.decode (Sys2Proof.encode i) = .ok i ∧
    Sys2Proof.decodeTableWord 32 (Sys2Proof.encode i).toNat = some i

theorem Sys2Proof.Laws.RoundTrip.nop : Sys2Proof.Laws.RoundTrip.Statement .nop := by
  refine ⟨?_, ?_, ?_⟩ <;> rfl

theorem Sys2Proof.Laws.RoundTrip.clr : Sys2Proof.Laws.RoundTrip.Statement .clr := by
  refine ⟨?_, ?_, ?_⟩ <;> rfl

theorem Sys2Proof.Laws.RoundTrip.cnt : Sys2Proof.Laws.RoundTrip.Statement .cnt := by
  refine ⟨?_, ?_, ?_⟩ <;> rfl

theorem Sys2Proof.Laws.RoundTrip.build : Sys2Proof.Laws.RoundTrip.Statement .build := by
  refine ⟨?_, ?_, ?_⟩ <;> rfl

theorem Sys2Proof.Laws.RoundTrip.gen : Sys2Proof.Laws.RoundTrip.Statement .gen := by
  refine ⟨?_, ?_, ?_⟩ <;> rfl

theorem Sys2Proof.Laws.RoundTrip.pack : Sys2Proof.Laws.RoundTrip.Statement .pack := by
  refine ⟨?_, ?_, ?_⟩ <;> rfl

theorem Sys2Proof.Laws.RoundTrip.unpack : Sys2Proof.Laws.RoundTrip.Statement .unpack := by
  refine ⟨?_, ?_, ?_⟩ <;> rfl

theorem Sys2Proof.Laws.RoundTrip.xor : Sys2Proof.Laws.RoundTrip.Statement .xor := by
  refine ⟨?_, ?_, ?_⟩ <;> rfl
end

