-- ==== Sys2Proof/Laws/Step.lean ====
section
/-! SUPPORT. What each command, each access and each step can answer, said once; and what follows for the
end of every command. -/

namespace Sys2Proof.Machine

/-- GEN: the null tree, a walked tree, or the arena with a cycle (R234, R230; log 9). -/
theorem execGen_cases (s : State) :
    (s.rootValid = false ∧ exec .gen s = .next (s.emptyTable.finish true)) ∨
    (s.rootValid = true ∧ ∃ es, treeCodes s.nodeAt s.rootH = some es ∧
      exec .gen s = .next ((es.foldl State.setCode s.emptyTable).finish false)) ∨
    (s.rootValid = true ∧ treeCodes s.nodeAt s.rootH = none ∧ exec .gen s = .fault .brokenTree) := by
  cases hv : s.rootValid with
  | false => exact .inl ⟨rfl, by simp [exec, execGen, State.treeEmpty, hv]⟩
  | true =>
    cases ht : treeCodes s.nodeAt s.rootH with
    | none => exact .inr (.inr ⟨rfl, rfl, by simp [exec, execGen, hv, ht]⟩)
    | some es => exact .inr (.inl ⟨rfl, es, rfl, by simp [exec, execGen, State.treeEmpty, hv, ht]⟩)

/-- PACK: the packed stream, or a late fault (R250). -/
theorem execPack_cases (s : State) :
    (∃ ds, packStream s.codeOf 0 0 s.textSymbols = .ok ds ∧
      exec .pack s = .next ((s.storePayload ds).finish s.textEmpty)) ∨
    (∃ f, packStream s.codeOf 0 0 s.textSymbols = .error f ∧
      exec .pack s = .next (s.spoilPayload.raise f)) := by
  cases h : packStream s.codeOf 0 0 s.textSymbols with
  | ok ds => exact .inl ⟨ds, rfl, by simp only [exec, execPack, h]⟩
  | error f => exact .inr ⟨f, rfl, by simp only [exec, execPack, h]⟩

/-- UNPACK: InvalidPadding, the emitted text, or a late fault (R270). -/
theorem execUnpack_cases (s : State) :
    (7 < s.pad.toNat ∧ exec .unpack s = .next (s.raise (.invalidPadding s.pad))) ∨
    (s.pad.toNat ≤ 7 ∧ ∃ out, unpackWalk s.matchLeast 0 0 0 [] s.keptStream = .ok out ∧
      exec .unpack s = .next ((s.storeText out).finish (emittedNone out))) ∨
    (s.pad.toNat ≤ 7 ∧ ∃ f, unpackWalk s.matchLeast 0 0 0 [] s.keptStream = .error f ∧
      exec .unpack s = .next (s.spoilText.raise f)) := by
  by_cases hp : s.pad.toNat > 7
  · exact .inl ⟨hp, by simp only [exec, execUnpack, if_pos hp]⟩
  · cases h : unpackWalk s.matchLeast 0 0 0 [] s.keptStream with
    | ok out => exact .inr (.inl ⟨by omega, out, rfl, by simp only [exec, execUnpack, if_neg hp, h]⟩)
    | error f => exact .inr (.inr ⟨by omega, f, rfl, by simp only [exec, execUnpack, if_neg hp, h]⟩)

/-- XOR: EmptyKey, or the enciphered payload (R290). -/
theorem execXor_cases (s : State) :
    (s.klen = 0#9 ∧ exec .xor s = .next (s.raise .emptyKey)) ∨
    (s.klen ≠ 0#9 ∧ exec .xor s =
      .next ({ s with pay := s.pay.writeFrom 0 ((List.range s.plen.toNat).map s.cipherByte) }.finish
        s.payEmpty)) := by
  by_cases h : s.klen = 0#9
  · exact .inl ⟨h, by simp only [exec, execXor, if_pos h]⟩
  · exact .inr ⟨h, by simp only [exec, execXor, if_neg h]⟩

/-- A fault PACK or UNPACK can raise. -/
theorem HxcFault.code_mem (f : HxcFault) : f.code ∈ [1#4, 2#4, 3#4, 5#4, 6#4, 7#4, 8#4] := by
  cases f <;> simp [HxcFault.code]

/-- Every command that answers a next state ends well or in a fault (R163, R164), and leaves CTRL,
CMDLATCH, KEY and everything outside HXC but the draw counter alone (R61, R341). -/
theorem exec_ends {i : Instr} {s t : State} (h : exec i s = .next t) :
    ((t.done = true ∧ SameFault s t ∧ t.draws = s.draws) ∨
      (∃ f : HxcFault, EndedInFault s t f)) ∧
    t.phase = .idle ∧ SameControl s t ∧ t.klen = (if i = .clr then 0#9 else s.klen) ∧ t.key = s.key ∧
    t.rstN = s.rstN ∧ t.resp = s.resp ∧ t.turns = s.turns := by
  cases i with
  | nop => cases h; exact ⟨.inl ⟨rfl, ⟨rfl, rfl, rfl⟩, rfl⟩, rfl, ⟨rfl, rfl, rfl⟩, rfl, rfl, rfl, rfl, rfl⟩
  | clr => cases h; exact ⟨.inl ⟨rfl, ⟨rfl, rfl, rfl⟩, rfl⟩, rfl, ⟨rfl, rfl, rfl⟩, rfl, rfl, rfl, rfl, rfl⟩
  | cnt => cases h; exact ⟨.inl ⟨rfl, ⟨rfl, rfl, rfl⟩, rfl⟩, rfl, ⟨rfl, rfl, rfl⟩, rfl, rfl, rfl, rfl, rfl⟩
  | build => cases h; simp [SameFault, SameControl]
  | gen =>
    rcases execGen_cases s with ⟨-, e⟩ | ⟨-, es, -, e⟩ | ⟨-, -, e⟩
    · rw [e] at h; cases h; simp [SameFault, SameControl]
    · rw [e] at h; cases h; simp [SameFault, SameControl]
    · rw [e] at h; cases h
  | pack =>
    rcases execPack_cases s with ⟨ds, -, e⟩ | ⟨f, -, e⟩ <;> rw [e] at h <;> cases h
    · exact ⟨.inl ⟨rfl, ⟨rfl, rfl, rfl⟩, rfl⟩, rfl, ⟨rfl, rfl, rfl⟩, rfl, rfl, rfl, rfl, rfl⟩
    · exact ⟨.inr ⟨f, rfl, rfl, rfl, rfl, rfl, rfl⟩, rfl, ⟨rfl, rfl, rfl⟩, rfl, rfl, rfl, rfl, rfl⟩
  | unpack =>
    rcases execUnpack_cases s with ⟨-, e⟩ | ⟨-, out, -, e⟩ | ⟨-, f, -, e⟩ <;> rw [e] at h <;> cases h
    · exact ⟨.inr ⟨.invalidPadding s.pad, rfl, rfl, rfl, rfl, rfl, rfl⟩, rfl, ⟨rfl, rfl, rfl⟩, rfl, rfl, rfl, rfl, rfl⟩
    · exact ⟨.inl ⟨rfl, ⟨rfl, rfl, rfl⟩, rfl⟩, rfl, ⟨rfl, rfl, rfl⟩, rfl, rfl, rfl, rfl, rfl⟩
    · exact ⟨.inr ⟨f, rfl, rfl, rfl, rfl, rfl, rfl⟩, rfl, ⟨rfl, rfl, rfl⟩, rfl, rfl, rfl, rfl, rfl⟩
  | xor =>
    rcases execXor_cases s with ⟨-, e⟩ | ⟨-, e⟩ <;> rw [e] at h <;> cases h
    · exact ⟨.inr ⟨.emptyKey, rfl, rfl, rfl, rfl, rfl, rfl⟩, rfl, ⟨rfl, rfl, rfl⟩, rfl, rfl, rfl, rfl, rfl⟩
    · exact ⟨.inl ⟨rfl, ⟨rfl, rfl, rfl⟩, rfl⟩, rfl, ⟨rfl, rfl, rfl⟩, rfl, rfl, rfl, rfl, rfl⟩

/-- No command is refused: every one has its meaning. -/
theorem exec_not_refused (i : Instr) (s : State) (r : Refusal) : exec i s ≠ .refused r := by
  intro h
  cases i with
  | nop => cases h
  | clr => cases h
  | cnt => cases h
  | build => cases h
  | gen =>
    rcases execGen_cases s with ⟨-, e⟩ | ⟨-, es, -, e⟩ | ⟨-, -, e⟩ <;> rw [e] at h <;> cases h
  | pack => rcases execPack_cases s with ⟨ds, -, e⟩ | ⟨f, -, e⟩ <;> rw [e] at h <;> cases h
  | unpack =>
    rcases execUnpack_cases s with ⟨-, e⟩ | ⟨-, out, -, e⟩ | ⟨-, f, -, e⟩ <;> rw [e] at h <;> cases h
  | xor => rcases execXor_cases s with ⟨-, e⟩ | ⟨-, e⟩ <;> rw [e] at h <;> cases h

/-- The engine's turn: no step, a decoded command, or IllegalCommand (R162, R165). -/
theorem engineStep_cases (s : State) :
    ((s.rstN = false ∨ s.phase = .idle) ∧ engineStep s = .next s) ∨
    (s.rstN = true ∧ s.phase = .busy ∧ ∃ i, decode s.cmdLatch = .ok i ∧ engineStep s = exec i s) ∨
    (s.rstN = true ∧ s.phase = .busy ∧ (∃ e, decode s.cmdLatch = .error e) ∧
      engineStep s = .next (s.raise (.illegalCommand s.cmdLatch))) := by
  cases hr : s.rstN with
  | false => exact .inl ⟨.inl rfl, by simp [engineStep, hr]⟩
  | true =>
    cases hp : s.phase with
    | idle => exact .inl ⟨.inr rfl, by simp [engineStep, State.busy, hp]⟩
    | busy =>
      cases hd : decode s.cmdLatch with
      | ok i => exact .inr (.inl ⟨rfl, rfl, i, rfl, by simp [engineStep, State.busy, hr, hp, hd]⟩)
      | error e =>
        exact .inr (.inr ⟨rfl, rfl, ⟨e, rfl⟩, by simp [engineStep, State.busy, hr, hp, hd]⟩)

/-- One access: no answer during reset, an answered read, or a write performed or rejected whole (R82, R380). -/
theorem hostAccess_cases (s : State) (a : Access) :
    (s.rstN = false ∧ s.hostAccess a = { s with resp := none }) ∨
    (s.rstN = true ∧ ∃ addr, a = .read addr ∧
      ((∃ l, s.checkRead addr = .ok l ∧
          s.hostAccess a = { s with resp := some (.value (s.readLocation l)) }) ∨
        (∃ e, s.checkRead addr = .error e ∧ s.hostAccess a = s.rejectRead))) ∨
    (s.rstN = true ∧ ∃ addr v, a = .write addr v ∧
      ((∃ l, s.checkWrite addr v = .ok l ∧
          s.hostAccess a = { s.writeLocation v l with resp := some .written }) ∨
        (∃ e, s.checkWrite addr v = .error e ∧
          s.hostAccess a = { s with resp := some .writeError }))) := by
  cases hr : s.rstN with
  | false => exact .inl ⟨rfl, by simp [State.hostAccess, hr]⟩
  | true =>
    cases a with
    | read addr =>
      refine .inr (.inl ⟨rfl, addr, rfl, ?_⟩)
      cases hc : s.checkRead addr with
      | ok l => exact .inl ⟨l, rfl, by simp only [State.hostAccess, hr, if_true, State.hostRead, hc]⟩
      | error e => exact .inr ⟨e, rfl, by simp only [State.hostAccess, hr, if_true, State.hostRead, hc]⟩
    | write addr v =>
      refine .inr (.inr ⟨rfl, addr, v, rfl, ?_⟩)
      cases hc : s.checkWrite addr v with
      | ok l => exact .inl ⟨l, rfl, by simp only [State.hostAccess, hr, if_true, State.hostWrite, hc]⟩
      | error e => exact .inr ⟨e, rfl, by simp only [State.hostAccess, hr, if_true, State.hostWrite, hc]⟩

/-- What a write that passes its checks has passed (R90). -/
theorem checkWrite_ok {s : State} {a : Addr} {v : Word} {l : Location} (h : s.checkWrite a v = .ok l) :
    locate a = some l ∧ s.phaseAllowsWrite l = true ∧ hostWritable l = true ∧ valueFits l v = true := by
  unfold State.checkWrite at h
  cases hl : locate a with
  | none => rw [hl] at h; cases h
  | some m =>
    rw [hl] at h
    simp only at h
    split at h
    · cases h
    · split at h
      · cases h
      · split at h
        · cases h
        · cases h
          exact ⟨rfl, by simp_all⟩

/-- What a read that passes its checks has passed (R90). -/
theorem checkRead_ok {s : State} {a : Addr} {l : Location} (h : s.checkRead a = .ok l) :
    locate a = some l ∧ s.phaseAllowsRead l = true := by
  unfold State.checkRead at h
  cases hl : locate a with
  | none => rw [hl] at h; cases h
  | some m =>
    rw [hl] at h
    simp only at h
    split at h
    · next hp => cases h; exact ⟨rfl, hp⟩
    · cases h

/-- One step: the turn taken is the head of `turns`, or the engine's. -/
theorem step_cases (s : State) :
    (s.turns = [] ∧ step s = engineStep s) ∨
    (∃ rest, s.turns = .engine :: rest ∧ step s = engineStep { s with turns := rest }) ∨
    (∃ a rest, s.turns = .host a :: rest ∧
      step s = .next (State.hostAccess { s with turns := rest } a)) ∨
    (∃ level rest, s.turns = .rstN level :: rest ∧
      step s = .next (State.driveReset { s with turns := rest } level)) := by
  unfold step
  cases hs : s.turns with
  | nil => exact .inl ⟨rfl, rfl⟩
  | cons t rest =>
    cases t with
    | engine => exact .inr (.inl ⟨rest, rfl, rfl⟩)
    | host a => exact .inr (.inr (.inl ⟨a, rest, rfl, rfl⟩))
    | rstN l => exact .inr (.inr (.inr ⟨l, rest, rfl, rfl⟩))

end Sys2Proof.Machine
end

