-- ==== Sys2Proof/Laws/Tree.lean ====
section
/-! SUPPORT. What the priority queue, one node's creation and GEN's walk can do, said once each. -/

namespace Sys2Proof.Machine

section Queue

/-- The order of the queue's keys (R204), as a proposition. -/
theorem PqEntry.less_iff (a b : PqEntry) :
    a.less b = true ↔ a.freq.toNat < b.freq.toNat ∨
      (a.freq.toNat = b.freq.toNat ∧ a.handle.toNat < b.handle.toNat) := by
  simp [PqEntry.less]

theorem PqEntry.less_trans {a b c : PqEntry} (h : a.less b = true) (k : b.less c = true) :
    a.less c = true := by
  rw [PqEntry.less_iff] at *
  omega

/-- Keys of different handles are never equal: the order is total (R204). -/
theorem PqEntry.less_total {a b : PqEntry} (h : a.handle ≠ b.handle) (n : ¬ a.less b = true) :
    b.less a = true := by
  have : a.handle.toNat ≠ b.handle.toNat := fun e => h (BitVec.eq_of_toNat_eq e)
  rw [PqEntry.less_iff] at *
  omega

/-- Inserting adds exactly the one member. -/
theorem pqInsert_perm (e : PqEntry) (q : List PqEntry) : (pqInsert e q).Perm (e :: q) := by
  induction q with
  | nil => exact List.Perm.refl _
  | cons x q ih =>
    rw [pqInsert]
    split
    · exact List.Perm.refl _
    · exact (ih.cons x).trans (List.Perm.swap e x q)

theorem mem_pqInsert {e x : PqEntry} {q : List PqEntry} : x ∈ pqInsert e q ↔ x = e ∨ x ∈ q :=
  (pqInsert_perm e q).mem_iff.trans List.mem_cons

theorem length_pqInsert (e : PqEntry) (q : List PqEntry) : (pqInsert e q).length = q.length + 1 :=
  (pqInsert_perm e q).length_eq

/-- Inserting a new handle keeps the queue in rising order of keys, so that its head is the least (R204). -/
theorem pqInsert_rising {e : PqEntry} {q : List PqEntry}
    (hq : q.Pairwise (fun a b => a.less b = true)) (hn : ∀ x ∈ q, x.handle ≠ e.handle) :
    (pqInsert e q).Pairwise (fun a b => a.less b = true) := by
  induction q with
  | nil => simp [pqInsert]
  | cons x q ih =>
    rw [List.pairwise_cons] at hq
    rw [pqInsert]
    split
    · next h =>
      refine List.pairwise_cons.2 ⟨fun y hy => ?_, List.pairwise_cons.2 hq⟩
      rcases List.mem_cons.1 hy with rfl | hy
      · exact h
      · exact PqEntry.less_trans h (hq.1 y hy)
    · next h =>
      refine List.pairwise_cons.2 ⟨fun y hy => ?_, ih hq.2 fun y hy => hn y (List.mem_cons_of_mem _ hy)⟩
      rcases mem_pqInsert.1 hy with rfl | hy
      · exact PqEntry.less_total (fun e' => hn x (by simp) e'.symm) h
      · exact hq.1 y hy

variable (b : BuildState) (r : Node)

@[simp] theorem BuildState.add_next : (b.add r).next = b.next + 1 := rfl

@[simp] theorem BuildState.add_node : (b.add r).node = b.node.write b.next r := rfl

@[simp] theorem BuildState.add_queue :
    (b.add r).queue = pqInsert { freq := r.freq, handle := BitVec.ofNat 9 b.next } b.queue := rfl

end Queue

section Walk

variable {node : Handle → Node}

/-- GEN's walk at a leaf, and at an internal node with levels left (R230). -/
theorem walk_leaf {h : Handle} (l : (node h).leaf = true) (n : Nat) (pre : Code) :
    walk node n h pre = some [((node h).sym, pre)] := by
  cases n <;> simp [walk, l]

theorem walk_internal {h : Handle} {n : Nat} {pre : Code} {a b : List (Symbol × Code)}
    (l : (node h).leaf = false) (ha : walk node n (node h).left (pre ++ [false]) = some a)
    (hb : walk node n (node h).right (pre ++ [true]) = some b) :
    walk node (n + 1) h pre = some (a ++ b) := by
  rw [walk, l, ha, hb]
  rfl

/-- Where children have smaller handles the walk ends within as many levels as the handle's number (R52 (b)). -/
theorem walk_completes {m : Nat}
    (hb : ∀ h : Handle, h.toNat < m → (node h).leaf = false →
      (node h).left.toNat < h.toNat ∧ (node h).right.toNat < h.toNat)
    (n : Nat) (h : Handle) (hn : h.toNat ≤ n) (hm : h.toNat < m) (pre : Code) :
    ∃ es, walk node n h pre = some es := by
  induction n generalizing h pre with
  | zero =>
    cases l : (node h).leaf with
    | true => exact ⟨_, walk_leaf l 0 pre⟩
    | false =>
      have := hb h hm l
      omega
  | succ n ih =>
    cases l : (node h).leaf with
    | true => exact ⟨_, walk_leaf l _ pre⟩
    | false =>
      obtain ⟨h1, h2⟩ := hb h hm l
      obtain ⟨a, ha⟩ := ih (node h).left (by omega) (by omega) (pre ++ [false])
      obtain ⟨b, hb'⟩ := ih (node h).right (by omega) (by omega) (pre ++ [true])
      exact ⟨a ++ b, walk_internal l ha hb'⟩

/-- Every entry the walk records is a leaf's symbol under the prefix it started from. -/
theorem walk_extends {n : Nat} {h : Handle} {pre : Code} {es : List (Symbol × Code)}
    (hw : walk node n h pre = some es) : ∀ e ∈ es, pre <+: e.2 ∧ e.2.length ≤ pre.length + n := by
  induction n generalizing h pre es with
  | zero =>
    rw [walk] at hw
    split at hw
    · cases hw
      simp
    · cases hw
  | succ n ih =>
    rw [walk] at hw
    split at hw
    · cases hw
      simp
    · split at hw
      · next a b ha hb =>
        cases hw
        intro e he
        rcases List.mem_append.1 he with he | he
        · obtain ⟨h1, h2⟩ := ih ha e he
          simp only [List.length_append, List.length_singleton] at h2
          exact ⟨(List.prefix_append _ _).trans h1, by omega⟩
        · obtain ⟨h1, h2⟩ := ih hb e he
          simp only [List.length_append, List.length_singleton] at h2
          exact ⟨(List.prefix_append _ _).trans h1, by omega⟩
      · cases hw

end Walk

end Sys2Proof.Machine
end

