-- ==== Sys2Proof/Tests/Slice0.lean ====
section
/-! SUPPORT. Tests with values from spec/95_test_vectors.md (its vector's name stands beside each) and the
smoke tests of WellFormed. The commands' tests are in Commands.lean and StreamCommands.lean, the
witnesses of the obligations in Witnesses.lean and WitnessesPort.lean. -/

namespace Sys2Proof.Tests

open Sys2Proof.Machine

-- Small states -------------------------------------------------------------------------------------

/-- The state after reset with the five unspecified arrays loaded with zeros. -/
def plain : State :=
  { State.reset with
    text := Memory.zeros, pay := Memory.zeros, key := Memory.zeros, cbit := Memory.zeros
    node := Memory.zeros }

def withText (s : State) (t : List Symbol) : State :=
  { s with text := s.text.writeFrom 0 t, tlen := BitVec.ofNat 16 t.length }

def withPay (s : State) (b : List Byte) (pad : Word) : State :=
  { s with pay := s.pay.writeFrom 0 b, plen := BitVec.ofNat 16 b.length, pad := pad }

def withKey (s : State) (k : List Byte) : State :=
  { s with key := s.key.writeFrom 0 k, klen := BitVec.ofNat 9 k.length }

def withFreq (s : State) (es : List (Symbol × Count)) : State :=
  es.foldl (fun s e => { s with freq := s.freq.write e.1.toNat e.2 }) s

def withTable (s : State) (es : List (Symbol × Code)) : State := es.foldl State.setCode s

/-- An arena loaded node by node, its root the last. -/
def withTree (s : State) (ns : List Node) : State :=
  { s with
    node := s.node.writeFrom 0 ns, nnode := BitVec.ofNat 10 ns.length, rootValid := true
    rootH := BitVec.ofNat 9 (ns.length - 1) }

/-- A command has been accepted and the engine is BUSY with it. -/
def latched (s : State) (w : Word) : State := s.accept w

/-- The outcome is a next state, and `p` holds of it. -/
def ran (o : Host.Outcome State Fault Refusal) (p : State → Bool) : Bool :=
  match o with
  | .next t => p t
  | .fault _ => false
  | .refused _ => false

/-- The tree of E3: leaves 0x61 and 0x62 under node 2. -/
def treeE3 : List Node :=
  [leafNode 0x61#8 1#24, leafNode 0x62#8 1#24, internalNode 2#24 0#9 1#9]

-- Decoding: the words of the opcode map, bit by bit (30_encoding.md R121) -------------------------------

theorem test_decode_nop : decode 0b00000000000000000000000000000000#32 = .ok .nop := by decide
theorem test_decode_clr : decode 0b00000000000000000000000000000001#32 = .ok .clr := by decide
theorem test_decode_cnt : decode 0b00000000000000000000000000000010#32 = .ok .cnt := by decide
theorem test_decode_build : decode 0b00000000000000000000000000000011#32 = .ok .build := by decide
theorem test_decode_gen : decode 0b00000000000000000000000000000100#32 = .ok .gen := by decide
theorem test_decode_pack : decode 0b00000000000000000000000000000101#32 = .ok .pack := by decide
theorem test_decode_unpack : decode 0b00000000000000000000000000000110#32 = .ok .unpack := by decide
theorem test_decode_xor : decode 0b00000000000000000000000000000111#32 = .ok .xor := by decide

/-- A10 to A12: undefined words, by the reason they are. -/
theorem test_decode_undefined :
    decode 0x00000008#32 = .error .undefinedOperation ∧
    decode 0x000000FF#32 = .error .undefinedOperation ∧
    decode 0x00000103#32 = .error .zeroFieldNotZero ∧
    decode 0xFFFFFFFF#32 = .error .zeroFieldNotZero := by decide

theorem test_table_word :
    decodeTableWord 32 3 = some .build ∧ decodeTableWord 32 8 = none ∧
    decodeTableWord 32 0x80000003 = none := by decide

/-- The host's question: the word placed by withFetchWord runs as the first instruction after reset (A4). -/
theorem test_fetch_word_runs :
    ran (step (State.reset.withFetchWord 32 0)) (fun t => t.statusWord == 2#32) = true ∧
    ran (step (State.reset.withFetchWord 32 3)) (fun t => t.statusWord == 0xA#32) = true := by
  decide +kernel

-- WellFormed: what each check refuses ------------------------------------------------------------------

theorem test_wf_command_word :
    commandWordDefined 0x00000103#32 = false ∧ commandWordDefined 0x00000008#32 = false ∧
    commandWordDefined 0x00000007#32 = true := by decide

theorem test_wf_instr : Instr.wf .xor = true := by decide

theorem test_wf_location :
    Location.wf (.text 65535#16) = false ∧ Location.wf (.pay 65535#16) = false ∧
    Location.wf (.node 511#9 0#1) = false ∧ Location.wf (.text 65534#16) = true ∧
    Location.wf (.node 510#9 1#1) = true := by decide

theorem test_wf_code :
    Code.wf [] = false ∧ Code.wf (List.replicate 256 false) = false ∧
    Code.wf (List.replicate 255 false) = true := by
  simp only [Code.wf, List.length_replicate, List.length_nil, Config.codeMax]
  decide

theorem test_wf_text :
    textFits (List.replicate 65536 0#8) = false ∧ textFits (List.replicate 65535 0#8) = true := by
  simp only [textFits, List.length_replicate, Config.textMax]
  decide

theorem test_wf_payload :
    payloadFits (List.replicate 65536 0#8) = false ∧ payloadFits (List.replicate 65535 0#8) = true := by
  simp only [payloadFits, List.length_replicate, Config.payMax]
  decide

theorem test_wf_key :
    keyFits (List.replicate 257 0#8) = false ∧ keyFits (List.replicate 256 0#8) = true := by
  simp only [keyFits, List.length_replicate, Config.keyMax]
  decide

theorem test_wf_table :
    tableFits [(1#8, [true]), (1#8, [false])] = false ∧ tableFits [(1#8, [])] = false ∧
    tableFits [(1#8, [true]), (2#8, [false])] = true := by decide

-- The port -----------------------------------------------------------------------------------------

/-- A10: an undefined word. -/
theorem test_illegal_command :
    ran (step (latched plain 8#32)) (fun t => t.statusWord == 4#32 && t.cause == 8#4 && t.info == 8#32)
      = true := by
  decide

/-- A13, A14: a pending fault turns a CMD write away until it is acknowledged. -/
theorem test_pending_fault :
    ((plain.raise (.illegalCommand 8#32)).wr (.reg .cmd) 0#32).resp = some .writeError ∧
    State.see (plain.raise (.illegalCommand 8#32)).ack (.reg .status) = 0#32 ∧
    State.see (plain.raise (.illegalCommand 8#32)).ack (.reg .info) = 0#32 := by decide

/-- A17 to A19: values that do not fit. -/
theorem test_values :
    (plain.wr (.reg .tlen) 0x10000#32).resp = some .writeError ∧
    (plain.wr (.freq 0#8) 0x10000#32).resp = some .writeError ∧
    (plain.wr (.clen 0#8) 0x100#32).resp = some .writeError ∧
    State.see (plain.wr (.reg .klen) 256#32) (.reg .klen) = 256#32 ∧
    (plain.wr (.reg .klen) 257#32).resp = some .writeError := by decide

/-- A21, A22: the edges of the map. -/
theorem test_map_edges :
    locate 0x0000C#18 = none ∧ locate 0x007FE#18 = none ∧ locate 0x01000#18 = none ∧
    locate 0x1FFFF#18 = none ∧ locate 0x30000#18 = none ∧
    locate 0x1FFFE#18 = some (.text 65534#16) ∧ locate 0x2FFFE#18 = some (.pay 65534#16) ∧
    locate 0x007FD#18 = some (.node 510#9 1#1) ∧ locate 0x00FFF#18 = some (.cbit 255#8 7#3) := by
  decide

/-- A27, A23: CTRL's unnamed bits, and irq as a level. -/
theorem test_ctrl :
    State.see (plain.wr (.reg .ctrl) 0x7FFFFFFF#32) (.reg .ctrl) = 3#32 ∧
    State.irq ({ plain with done := true }.wr (.reg .ctrl) 1#32) = true := by decide

/-- Z3: a soft reset while BUILD is latched. -/
theorem test_soft_reset :
    ((latched plain 3#32).wr (.reg .ctrl) 0x80000000#32).phase = .idle ∧
    State.see ((latched plain 3#32).wr (.reg .ctrl) 0x80000000#32) (.reg .status) = 0#32 := by decide

/-- A reset pulse between two accesses: the second access finds CTRL at 0 again (R380). -/
theorem test_pin_reset :
    ran (step { plain with ieDone := true, turns := [.rstN false, .rstN true] })
      (fun t => t.ieDone == false && t.rstN == false && t.turns == [.rstN true]) = true := by decide

end Sys2Proof.Tests
end

