-- ==== Sys2Proof/Tests/Commands.lean ====
section
/-! SUPPORT. One or two tests for each of NOP, CLR, CNT, BUILD, GEN, with values from spec/95_test_vectors.md (its
vector's name stands beside each). -/

namespace Sys2Proof.Tests

open Sys2Proof.Machine

-- NOP, CLR, CNT ------------------------------------------------------------------------------------

/-- A30: NOP leaves EMPTY alone. -/
theorem test_nop : ran (exec .nop { plain with empty := true }) (fun t => t.statusWord == 0xA#32) = true := by
  decide

/-- A28: CLR on a loaded instance. -/
theorem test_clr :
    ran (exec .clr (withKey (withFreq (withText { plain with ieDone := true, empty := true } [0x61#8])
        [(0x61#8, 1#16)]) [0x6B#8]))
      (fun t => t.statusWord == 2#32 && t.ctrlWord == 1#32 && t.tlen == 0#16 && t.klen == 0#9 &&
        t.freqAt 0x61#8 == 0#16 && t.textAt 0 == 0x61#8 && t.keyAt 0 == 0x6B#8) = true := by
  decide +kernel

/-- N4, and N3's stale entry that is rewritten. -/
theorem test_cnt :
    ran (exec .cnt (withFreq (withText plain [0x00#8, 0xFF#8, 0x00#8]) [(0x61#8, 5#16)]))
      (fun t => t.freqAt 0#8 == 2#16 && t.freqAt 0xFF#8 == 1#16 && t.freqAt 0x61#8 == 0#16 &&
        t.statusWord == 2#32) = true := by
  decide +kernel

/-- N6: only the first TLEN elements count. -/
theorem test_cnt_length :
    ran (exec .cnt { withText plain [0x61#8, 0x62#8, 0x72#8, 0x61#8, 0x63#8] with tlen := 4#16 })
      (fun t => t.freqAt 0x61#8 == 2#16 && t.freqAt 0x62#8 == 1#16 && t.freqAt 0x63#8 == 0#16) = true := by
  decide +kernel

-- BUILD and GEN ------------------------------------------------------------------------------------

/-- B5: at equal frequency the leaf comes before the internal node. -/
theorem test_build_tie :
    ran (exec .build (withFreq plain [(0x61#8, 1#16), (0x62#8, 1#16), (0x63#8, 2#16)]))
      (fun t => nodeWord (t.nodeAt 3#9) 0#1 == 0x00000002#32 &&
        nodeWord (t.nodeAt 3#9) 1#1 == 0x00010000#32 &&
        nodeWord (t.nodeAt 4#9) 0#1 == 0x00000004#32 &&
        nodeWord (t.nodeAt 4#9) 1#1 == 0x00030002#32 && t.rootWord == 0x80000004#32) = true := by
  decide +kernel

/-- B4: the lighter leaf is LEFT, and a leaf's words. -/
theorem test_build_lighter_left :
    ran (exec .build (withFreq plain [(0x10#8, 7#16), (0xF0#8, 3#16)]))
      (fun t => nodeWord (t.nodeAt 0#9) 0#1 == 0x10000007#32 &&
        nodeWord (t.nodeAt 1#9) 1#1 == 0x80000000#32 &&
        nodeWord (t.nodeAt 2#9) 0#1 == 0x0000000A#32 &&
        nodeWord (t.nodeAt 2#9) 1#1 == 0x00000001#32 && t.nnode == 3#10) = true := by
  decide +kernel

/-- T2, E3: the code words. -/
theorem test_gen_words :
    ran (exec .gen (withTree plain treeE3))
      (fun t => t.clenAt 0x61#8 == 1#8 && t.cbitAt 0x61#8 0 == 0#32 && t.clenAt 0x62#8 == 1#8 &&
        t.cbitAt 0x62#8 0 == 1#32 && t.clenAt 0#8 == 0#8) = true := by
  decide +kernel

/-- G2: the single leaf, with a stale entry that goes. -/
theorem test_gen_single_leaf :
    ran (exec .gen (withTree (withTable plain [(0x62#8, [true])]) [leafNode 0x61#8 4#24]))
      (fun t => t.clenAt 0x61#8 == 1#8 && t.cbitAt 0x61#8 0 == 0#32 && t.clenAt 0x62#8 == 0#8 &&
        t.cbitAt 0x62#8 0 == 0#32 && t.statusWord == 2#32) = true := by
  decide +kernel

end Sys2Proof.Tests
end

