-- ==== Sys2Proof/Tests/Driver.lean ====
section
/-! SUPPORT. The driver's refusals, one test for each condition of spec/47_pipeline.md R306, and the strings of
spec/30_encoding.md R133. -/

namespace Sys2Proof.Tests

open Sys2Proof.Machine

theorem test_refuse_long_text (k : List Byte) :
    runEncode (List.replicate 65536 0#8) k plain = { state := plain, report := .refused .textTooLong } := by
  rcases runEncode_cases (List.replicate 65536 0#8) k plain with ⟨-, h⟩ | ⟨h, -⟩ | ⟨h, -⟩
  · exact h
  all_goals rw [test_wf_text.1] at h; cases h

theorem test_refuse_long_key :
    (runEncode [0x61#8] (List.replicate 257 0#8) plain).report = .refused .keyTooLong := by
  rcases runEncode_cases [0x61#8] (List.replicate 257 0#8) plain with ⟨h, -⟩ | ⟨-, -, h⟩ | ⟨-, h, -⟩
  · cases h
  · rw [h]; rfl
  · rw [test_wf_key.1] at h; cases h

theorem test_refuse_long_ciphertext :
    (runDecode (List.replicate 65536 0#8) [0x4B#8] [] 0 plain).report = .refused .ciphertextTooLong := by
  rcases runDecode_cases (List.replicate 65536 0#8) [0x4B#8] [] 0 plain with ⟨-, h⟩ | ⟨h, -⟩ | ⟨h, -⟩ | ⟨h, -⟩
  · rw [h]; rfl
  all_goals rw [test_wf_payload.1] at h; cases h

/-- An empty code, a code of 256 digits, a character that is no digit: a malformed table each. -/
theorem test_refuse_malformed_table :
    (softwareDecode [] [0x4B#8] [(0x61, [])] 0 plain).report = .refused .malformedTable ∧
    (softwareDecode [] [0x4B#8] [(0x61, List.replicate 256 '0')] 0 plain).report =
      .refused .malformedTable ∧
    (softwareDecode [] [0x4B#8] [(0x61, ['0', '2'])] 0 plain).report = .refused .malformedTable := by
  decide +kernel

theorem test_refuse_wide_symbol :
    (softwareDecode [] [0x4B#8] [(256, ['0'])] 0 plain).report = .refused .symbolNotByte ∧
    (softwareEncode [0x61, 0x3B1] [0x4B#8] plain).report = .refused .symbolNotByte := by decide +kernel

/-- R131's example "110": the string, its digits and its word. -/
theorem test_code_string :
    readDigits ['1', '1', '0'] = some [true, true, false] ∧ codeWord [true, true, false] 0 = 3#32 ∧
    printCode [true, true, false] = ['1', '1', '0'] := by decide

end Sys2Proof.Tests
end

