-- ==== Sys2Proof/Tests/StreamCommands.lean ====
section
/-! SUPPORT. Two tests for each of PACK, UNPACK, XOR, with values from spec/95_test_vectors.md (its vector's
name stands beside each). -/

namespace Sys2Proof.Tests

open Sys2Proof.Machine

-- PACK, UNPACK, XOR --------------------------------------------------------------------------------

/-- K10's table: 0x41 = "0", 0x42 = "1", 38 times "0", "1", as its port words. -/
def tableK10 : State :=
  { plain with
    clen := (plain.clen.write 0x41 1#8).write 0x42 40#8
    cbit := (plain.cbit.write (cbitIndex 0x42#8 0) 0x00000001#32).write (cbitIndex 0x42#8 1) 0x00000080#32 }

/-- K10: a code over two words. -/
theorem test_pack_long_code :
    ran (exec .pack (withText tableK10 [0x42#8, 0x41#8]))
      (fun t => t.pad == 7#32 && t.payBytes == [0x80#8, 0#8, 0#8, 0#8, 0x01#8, 0#8]) = true := by
  decide +kernel

/-- K6: MissingCode at index 2. -/
theorem test_pack_missing_code :
    ran (exec .pack (withText (withTable plain [(0x61#8, [false]), (0x62#8, [true])])
        [0x61#8, 0x62#8, 0x7A#8]))
      (fun t => t.statusWord == 4#32 && t.cause == 5#4 && t.info == 2#32) = true := by
  decide +kernel

/-- U12: the 40-digit candidate. -/
theorem test_unpack_long_code :
    ran (exec .unpack (withPay tableK10 [0x80#8, 0#8, 0#8, 0#8, 0x01#8, 0#8] 7#32))
      (fun t => t.textSymbols == [0x42#8, 0x41#8] && t.statusWord == 2#32) = true := by
  decide +kernel

/-- U8: the unfinished candidate starts at position 16. -/
theorem test_unpack_unknown :
    ran (exec .unpack (withPay (withTable plain [(0x61#8, [false]), (0x62#8, [true, true, false]),
        (0x63#8, [true, false, false]), (0x64#8, [true, false, true]), (0x72#8, [true, true, true])])
        [0x6E#8, 0x8A#8, 0xDC#8] 6#32))
      (fun t => t.statusWord == 4#32 && t.cause == 2#4 && t.info == 16#32) = true := by
  decide +kernel

/-- X2: the key repeats. -/
theorem test_xor_repeats :
    ran (exec .xor (withKey (withPay plain [1#8, 2#8, 3#8, 4#8, 5#8] 0#32) [0xF0#8, 0x0F#8]))
      (fun t => t.payBytes == [0xF1#8, 0x0D#8, 0xF3#8, 0x0B#8, 0xF5#8]) = true := by
  decide +kernel

/-- X6: EmptyKey, the payload unchanged. -/
theorem test_xor_empty_key :
    ran (exec .xor (withPay plain [0x6E#8] 0#32))
      (fun t => t.statusWord == 4#32 && t.cause == 1#4 && t.info == 0#32 && t.payAt 0 == 0x6E#8) = true := by
  decide +kernel

end Sys2Proof.Tests
end

