-- ==== Sys2Proof/Tests/Witnesses.lean ====
section
/-! SUPPORT. For every obligation with hypotheses, up to UNPACK's, a concrete state and operands that meet all of them
together, for one with several clauses one for each clause. `witness_<Name>` belongs to Obligations.<Name>. -/

namespace Sys2Proof.Tests

open Sys2Proof.Machine

-- Lemmas about the small states --------------------------------------------------------------------

/-- The codes of a table that lists one symbol. -/
theorem codeOf_oneEntry (c : Symbol) (d : Code) (h : d.length ≤ Config.codeMax) (b : Symbol) :
    (withTable plain [(c, d)]).codeOf b = if b = c then d else [] := by
  show (plain.setCode (c, d)).codeOf b = _
  rw [State.codeOf_setCode _ _ h]
  rfl

/-- The codes of a table that lists two symbols. -/
theorem codeOf_twoEntries (c₁ c₂ : Symbol) (d₁ d₂ : Code) (h₁ : d₁.length ≤ Config.codeMax)
    (h₂ : d₂.length ≤ Config.codeMax) (b : Symbol) :
    (withTable plain [(c₁, d₁), (c₂, d₂)]).codeOf b = if b = c₂ then d₂ else if b = c₁ then d₁ else [] := by
  show ((plain.setCode (c₁, d₁)).setCode (c₂, d₂)).codeOf b = _
  rw [State.codeOf_setCode _ _ h₂, State.codeOf_setCode _ _ h₁]
  rfl

theorem emits_of_only {s : State} {c : Symbol} (hc : s.codeOf c ≠ []) (h : ∀ b, b ≠ c → s.codeOf b = []) :
    s.Emits c := by
  refine ⟨hc, fun b hb _ => ?_⟩
  by_cases e : b = c
  · subst e; exact ⟨rfl, le_refl _⟩
  · exact absurd (h b e) hb

-- Steps and the lifecycle --------------------------------------------------------------------------

theorem witness_EngineStepRunsDecodedCommand :
    ((latched plain 3#32).rstN = true ∧ (latched plain 3#32).phase = .busy ∧
      decode (latched plain 3#32).cmdLatch = .ok .build ∧ (latched plain 3#32).turns = []) ∧
    (latched { plain with turns := [.engine, .engine] } 7#32).phase = .busy ∧
    decode (latched { plain with turns := [.engine, .engine] } 7#32).cmdLatch = .ok .xor ∧
    (latched { plain with turns := [.engine, .engine] } 7#32).turns = .engine :: [.engine] := by decide

theorem witness_IdleAndHostTurns :
    (plain.phase = .idle ∧ plain.turns = []) ∧
    { plain with turns := [.engine] }.turns = .engine :: [] ∧
    { plain with turns := [.host (.read 0#18)] }.turns = .host (.read 0#18) :: [] := by decide

theorem witness_CmdWriteAcceptedOrRejected :
    (plain.rstN = true ∧ plain.phase = .idle ∧ plain.err = false) ∧
    { plain with err := true }.rstN = true ∧ (latched plain 0#32).phase = .busy := by decide

theorem witness_UndefinedWordRaisesIllegalCommand :
    (latched plain 8#32).rstN = true ∧ (latched plain 8#32).phase = .busy ∧
    8 ≤ (latched plain 8#32).cmdLatch.toNat ∧ 8 ≤ (latched plain 0xFFFFFFFF#32).cmdLatch.toNat := by decide

theorem statusOk_plain : plain.StatusOk := by simp [State.StatusOk, plain, State.reset, State.afterReset]

theorem treeOk_null (s : State) (hv : s.rootValid = false) (hh : s.rootH = 0#9) (hn : s.nnode = 0#10) :
    s.TreeOk := by
  have none : ∀ h : Handle, ¬ h.toNat < s.nnode.toNat := by simp [hn]
  refine ⟨fun _ => ⟨hh, hn⟩, by simp [hv], fun h l => absurd l (none h), fun h l => absurd l (none h),
    fun h l => absurd l (none h), fun h l => absurd l (none h), fun h l => absurd l (none h),
    fun h l => absurd l (none h), fun h l => absurd l (none h), fun g h _ l => ?_⟩
  simp [State.leafCount, hn] at l

theorem witness_LatchedCommandEnds :
    (latched plain 4#32).rstN = true ∧ (latched plain 4#32).phase = .busy ∧
    (latched plain 4#32).StatusOk ∧ (latched plain 4#32).TreeOk :=
  ⟨rfl, rfl, by simp [State.StatusOk, latched, State.accept, plain, State.reset, State.afterReset],
    treeOk_null _ rfl rfl rfl⟩

/-- The three ways: a CMD write, an engine step, a reset (the pin, and a CTRL write). -/
theorem witness_PhaseChangesInThreeWays :
    ran (step { plain with turns := [.host (.write 1#18 0#32)] }) (fun t => t.phase == .busy) = true ∧
    ran (step (latched plain 0#32)) (fun t => t.phase == .idle) = true ∧
    ran (step { latched plain 0#32 with turns := [.rstN false] }) (fun t => t.phase == .idle) = true ∧
    ran (step { latched plain 0#32 with turns := [.host (.write 3#18 0x80000000#32)] })
      (fun t => t.phase == .idle) = true := by
  decide

-- Invariants ---------------------------------------------------------------------------------------

theorem witness_StepKeepsStatusOk : plain.StatusOk ∧ ∃ t, step plain = .next t :=
  ⟨statusOk_plain, _, rfl⟩

theorem witness_StepKeepsMemoryCanonical :
    plain.MemoryOk ∧ plain.LengthsOk ∧ ∃ t, step plain = .next t :=
  ⟨by simp only [State.MemoryOk]; decide, by simp only [State.LengthsOk]; decide, _, rfl⟩

/-- The arena of E3 on the plain state. -/
def treed : State := withTree plain treeE3

theorem treed_cases {h : Handle} (l : h.toNat < treed.nnode.toNat) : h = 0#9 ∨ h = 1#9 ∨ h = 2#9 := by
  have e : treed.nnode.toNat = 3 := by decide
  rw [e] at l
  have : h.toNat = 0 ∨ h.toNat = 1 ∨ h.toNat = 2 := by omega
  rcases this with h0 | h0 | h0
  · exact .inl (BitVec.eq_of_toNat_eq h0)
  · exact .inr (.inl (BitVec.eq_of_toNat_eq h0))
  · exact .inr (.inr (BitVec.eq_of_toNat_eq h0))

theorem treed_treeOk : treed.TreeOk := by
  have n0 : treed.nodeAt 0#9 = leafNode 0x61#8 1#24 := by decide
  have n1 : treed.nodeAt 1#9 = leafNode 0x62#8 1#24 := by decide
  have n2 : treed.nodeAt 2#9 = internalNode 2#24 0#9 1#9 := by decide
  refine ⟨fun h => absurd h (by decide), fun _ => by decide, fun h l => ?_, fun h l => ?_, fun h l => ?_,
    fun c l => ?_, fun p l => ?_, fun h l => ?_, fun h l => ?_, fun g h lt lh => ?_⟩
  · rcases treed_cases l with rfl | rfl | rfl <;> simp [n0, n1, n2, leafNode, internalNode]
  · rcases treed_cases l with rfl | rfl | rfl <;> simp [n0, n1, n2, leafNode, internalNode]
  · rcases treed_cases l with rfl | rfl | rfl <;> simp [n0, n1, n2, leafNode, internalNode]
  · intro hc
    refine ⟨2#9, ⟨by decide, ?_⟩, fun p hp => ?_⟩
    · rcases treed_cases l with rfl | rfl | rfl
      · simp [State.IsChild, n2, internalNode]
      · simp [State.IsChild, n2, internalNode]
      · exact absurd rfl hc
    · obtain ⟨lp, hl, -⟩ := hp
      rcases treed_cases lp with rfl | rfl | rfl
      · simp [n0, leafNode] at hl
      · simp [n1, leafNode] at hl
      · rfl
  · have hr : treed.rootH = 2#9 := by decide
    rcases treed_cases l with rfl | rfl | rfl <;>
      simp [State.IsChild, hr, n0, n1, n2, leafNode, internalNode]
  · rcases treed_cases l with rfl | rfl | rfl <;> simp [n0, n1, n2, leafNode, internalNode]
  · have hl : treed.leafCount = 2 := by decide
    rcases treed_cases l with rfl | rfl | rfl <;> simp [hl, n0, n1, n2, leafNode, internalNode]
  · have hl : treed.leafCount = 2 := by decide
    rw [hl] at lh
    have hg : g = 0#9 := BitVec.eq_of_toNat_eq (by simpa using (by omega : g.toNat = 0))
    have hh : h = 1#9 := BitVec.eq_of_toNat_eq (by simpa using (by omega : h.toNat = 1))
    subst hg; subst hh
    simp [n0, n1, leafNode]

theorem witness_StepKeepsTreeOk : treed.TreeOk ∧ ∃ t, step treed = .next t :=
  ⟨treed_treeOk, _, rfl⟩

/-- Steps that change the tree: CLR on the tree of E3, and a soft reset of it. -/
theorem witness_OnlyBuildClrAndResetChangeTree :
    (∃ t, step (latched treed 1#32) = .next t ∧ ¬ SameTree (latched treed 1#32) t) ∧
    ∃ t, step { treed with turns := [.host (.write 3#18 0x80000000#32)] } = .next t ∧
      ¬ SameTree { treed with turns := [.host (.write 3#18 0x80000000#32)] } t := by
  refine ⟨⟨_, rfl, fun h => ?_⟩, ⟨_, rfl, fun h => ?_⟩⟩ <;> exact absurd h.2.2.1 (by decide)

-- BUILD and GEN ------------------------------------------------------------------------------------

theorem freqAt_plain (c : Symbol) : plain.freqAt c = 0#16 := rfl

theorem freqAt_withFreq (s : State) (d : Symbol) (v : Count) (c : Symbol) :
    (withFreq s [(d, v)]).freqAt c = if c = d then v else s.freqAt c := by
  show (s.freq.write d.toNat v).read noFree c.toNat = _
  rw [Memory.read_write]
  by_cases h : c = d
  · simp [h]
  · rw [if_neg h, if_neg fun e => h (BitVec.eq_of_toNat_eq e)]; rfl

theorem witness_BuildNullTree : ∀ c, plain.freqAt c = 0#16 := freqAt_plain

/-- The one entry at its least and its greatest value. -/
theorem witness_BuildSingleLeaf :
    ((withFreq plain [(0#8, 1#16)]).freqAt 0#8 ≠ 0#16 ∧
      ∀ d, d ≠ 0#8 → (withFreq plain [(0#8, 1#16)]).freqAt d = 0#16) ∧
    (withFreq plain [(255#8, 65535#16)]).freqAt 255#8 ≠ 0#16 ∧
      ∀ d, d ≠ 255#8 → (withFreq plain [(255#8, 65535#16)]).freqAt d = 0#16 := by
  refine ⟨⟨by decide, fun d h => ?_⟩, by decide, fun d h => ?_⟩ <;>
    rw [freqAt_withFreq, if_neg h] <;> rfl

theorem witness_BuildPlantsRoot : (withFreq plain [(0x61#8, 1#16)]).presentSymbols ≠ [] := by
  refine List.ne_nil_of_mem (a := 0x61#8) (List.mem_filter.2 ⟨?_, by decide⟩)
  exact List.mem_map.2 ⟨0x61, List.mem_range.2 (by decide), rfl⟩

/-- A present symbol, and the leaf at its handle. -/
theorem witness_BuildLeavesInSymbolOrder :
    (withFreq plain [(0x61#8, 1#16)]).freqAt 0x61#8 ≠ 0#16 ∧
    ran (exec .build (withFreq plain [(0x61#8, 1#16)]))
      (fun t => decide ((0#9 : Handle).toNat < t.nnode.toNat) && (t.nodeAt 0#9).leaf) = true := by
  decide +kernel

/-- An internal node is made. -/
theorem witness_BuildMergesTwoLeast :
    ran (exec .build (withFreq plain [(0x61#8, 1#16), (0x62#8, 1#16)]))
      (fun t => decide ((2#9 : Handle).toNat < t.nnode.toNat) && !(t.nodeAt 2#9).leaf) = true := by
  decide +kernel

/-- Two states with the same FREQ and different texts. -/
theorem witness_BuildDependsOnFreqOnly :
    (∀ c, plain.freqAt c = (withText plain [0x61#8]).freqAt c) ∧ plain ≠ withText plain [0x61#8] :=
  ⟨fun _ => rfl, by decide⟩

theorem witness_GenNullTreeEmptyTable : plain.rootValid = false := rfl

theorem witness_GenSingleLeafCodeZero :
    (withTree plain [leafNode 0x61#8 4#24]).rootValid = true ∧
    ((withTree plain [leafNode 0x61#8 4#24]).nodeAt (withTree plain [leafNode 0x61#8 4#24]).rootH).leaf
      = true := by decide

theorem witness_GenCompletesAndKeepsRest :
    treed.rootValid = true ∧ treed.ChildrenBelow ∧ treed.RootInside :=
  ⟨by decide, treed_treeOk.2.2.2.1, fun _ => by decide⟩

/-- The tree of E3, and both its paths. -/
theorem witness_GenCodeIsPath :
    treed.TreeOk ∧ treed.rootValid = true ∧ (treed.nodeAt treed.rootH).leaf = false ∧
    treed.IsPath treed.rootH [false] 0#9 ∧ (treed.nodeAt 0#9).leaf = true ∧
    treed.IsPath treed.rootH [true] 1#9 ∧ (treed.nodeAt 1#9).leaf = true :=
  ⟨treed_treeOk, by decide, by decide, ⟨by decide, by simp only [State.IsPath]; decide⟩, by decide,
    ⟨by decide, by simp only [State.IsPath]; decide⟩, by decide⟩

/-- The tree of E3 and a path to a leaf; the null tree. -/
theorem witness_GenTablePrefixFree :
    (treed.TreeOk ∧ treed.rootValid = true ∧ treed.IsPath treed.rootH [true] 1#9 ∧
      (treed.nodeAt 1#9).leaf = true) ∧ plain.TreeOk :=
  ⟨⟨treed_treeOk, witness_GenCodeIsPath.2.1, witness_GenCodeIsPath.2.2.2.2.2.1,
    witness_GenCodeIsPath.2.2.2.2.2.2⟩, treeOk_null _ rfl rfl rfl⟩

/-- Two states with the same tree and different tables. -/
theorem witness_GenDependsOnTreeOnly :
    treed.ChildrenBelow ∧ treed.RootInside ∧
    treed.rootValid = (treed.setCode (0#8, [true])).rootValid ∧
    treed.rootH = (treed.setCode (0#8, [true])).rootH ∧ treed.nnode = (treed.setCode (0#8, [true])).nnode ∧
    (∀ h : Handle, h.toNat < treed.nnode.toNat →
      treed.nodeAt h = (treed.setCode (0#8, [true])).nodeAt h) ∧
    treed.clenAt 0#8 ≠ (treed.setCode (0#8, [true])).clenAt 0#8 :=
  ⟨treed_treeOk.2.2.2.1, fun _ => by decide, rfl, rfl, rfl, fun _ _ => rfl, by decide⟩

-- PACK ---------------------------------------------------------------------------------------------

/-- Table a = "0", b = "1". -/
def tableAB : State := withTable plain [(0x61#8, [false]), (0x62#8, [true])]

theorem codeOf_tableAB (b : Symbol) :
    tableAB.codeOf b = if b = 0x62#8 then [true] else if b = 0x61#8 then [false] else [] :=
  codeOf_twoEntries _ _ _ _ (by decide) (by decide) b

theorem codeOf_withText (s : State) (t : List Symbol) (b : Symbol) : (withText s t).codeOf b = s.codeOf b := rfl

theorem text_ab : (withText tableAB [0x61#8, 0x62#8]).textSymbols = [0x61#8, 0x62#8] := by decide +kernel

theorem streamOf_ab (t : List Symbol) :
    (withText tableAB [0x61#8, 0x62#8]).streamOf t = tableAB.streamOf t := rfl

theorem witness_PackStoresBitStream :
    (∀ c ∈ (withText tableAB [0x61#8, 0x62#8]).textSymbols,
      (withText tableAB [0x61#8, 0x62#8]).codeOf c ≠ []) ∧
    ((withText tableAB [0x61#8, 0x62#8]).streamOf
      (withText tableAB [0x61#8, 0x62#8]).textSymbols).length ≤ 8 * Config.payMax := by
  rw [text_ab, streamOf_ab]
  constructor
  · intro c hc
    rw [codeOf_withText, codeOf_tableAB]
    simp only [List.mem_cons, List.not_mem_nil, or_false] at hc
    rcases hc with rfl | rfl <;> decide
  · simp only [State.streamOf, List.map_cons, List.map_nil, codeOf_tableAB]
    decide

/-- K6's shape: the third symbol has no entry. -/
theorem witness_PackMissingCodeFaults :
    (withText tableAB [0x61#8, 0x62#8, 0x7A#8]).textSymbols = [0x61#8, 0x62#8] ++ 0x7A#8 :: [] ∧
    (∀ d ∈ [0x61#8, 0x62#8], (withText tableAB [0x61#8, 0x62#8, 0x7A#8]).codeOf d ≠ []) ∧
    ((withText tableAB [0x61#8, 0x62#8, 0x7A#8]).streamOf [0x61#8, 0x62#8]).length ≤ 8 * Config.payMax ∧
    (withText tableAB [0x61#8, 0x62#8, 0x7A#8]).codeOf 0x7A#8 = [] := by
  refine ⟨by decide +kernel, fun d hd => ?_, ?_, by rw [codeOf_withText, codeOf_tableAB]; decide⟩
  · rw [codeOf_withText, codeOf_tableAB]
    simp only [List.mem_cons, List.not_mem_nil, or_false] at hd
    rcases hd with rfl | rfl <;> decide
  · show (tableAB.streamOf _).length ≤ _
    simp only [State.streamOf, List.map_cons, List.map_nil, codeOf_tableAB]
    decide

/-- K9: 65535 symbols of a 9-digit code, every TEXT element 0. -/
def nineDigits : State :=
  { withTable plain [(0#8, List.replicate 9 true)] with text := Memory.zeros, tlen := 65535#16 }

theorem codeOf_nineDigits (b : Symbol) :
    nineDigits.codeOf b = if b = 0#8 then List.replicate 9 true else [] :=
  (congrFun (State.codeOf_congr (s := withTable plain [(0#8, List.replicate 9 true)]) (t := nineDigits) rfl rfl) b).trans
    (codeOf_oneEntry _ _ (by decide) b)

theorem text_nineDigits : nineDigits.textSymbols = List.replicate 65535 0#8 := by
  show (List.range 65535).map (fun _ => 0#8) = _
  rw [List.map_const', List.length_range]

theorem length_stream_nineDigits (n : Nat) :
    (nineDigits.streamOf (List.replicate n 0#8)).length = n * 9 := by
  have h : nineDigits.codeOf 0#8 = List.replicate 9 true := codeOf_nineDigits 0#8
  rw [State.streamOf, List.map_replicate, List.length_flatten, List.map_replicate, h]
  simp

theorem witness_PackOverflowFaults :
    nineDigits.textSymbols = List.replicate 58253 0#8 ++ 0#8 :: List.replicate 7281 0#8 ∧
    (∀ d ∈ List.replicate 58253 0#8, nineDigits.codeOf d ≠ []) ∧
    (nineDigits.streamOf (List.replicate 58253 0#8)).length ≤ 524280 ∧ nineDigits.codeOf 0#8 ≠ [] ∧
    524280 < (nineDigits.streamOf (List.replicate 58253 0#8)).length + (nineDigits.codeOf 0#8).length := by
  have h : nineDigits.codeOf 0#8 = List.replicate 9 true := codeOf_nineDigits 0#8
  refine ⟨?_, fun d hd => ?_, ?_, by rw [h]; decide, ?_⟩
  · rw [text_nineDigits, ← List.replicate_succ, List.replicate_append_replicate]
  · rw [List.eq_of_mem_replicate hd, h]; decide
  · rw [length_stream_nineDigits]; decide
  · rw [length_stream_nineDigits, h]; decide

-- UNPACK -------------------------------------------------------------------------------------------

/-- The payload 0x40 with 6 filler bits, kept digits 0 1, under the table a = "0", b = "1". -/
def packedAB : State := withPay tableAB [0x40#8] 6#32

theorem codeOf_packedAB (b : Symbol) :
    packedAB.codeOf b = if b = 0x62#8 then [true] else if b = 0x61#8 then [false] else [] :=
  codeOf_tableAB b

theorem emits_packedAB (c : Symbol) (hc : c = 0x61#8 ∨ c = 0x62#8) : packedAB.Emits c := by
  refine ⟨by rw [codeOf_packedAB]; rcases hc with rfl | rfl <;> decide, fun b hb hp => ?_⟩
  rw [codeOf_packedAB] at hb
  by_cases h2 : b = 0x62#8
  · rw [codeOf_packedAB, codeOf_packedAB] at hp ⊢
    rcases hc with rfl | rfl <;> subst h2 <;> revert hp <;> decide
  · by_cases h1 : b = 0x61#8
    · rw [codeOf_packedAB, codeOf_packedAB] at hp ⊢
      rcases hc with rfl | rfl <;> subst h1 <;> revert hp <;> decide
    · simp [h1, h2] at hb

theorem kept_packedAB : packedAB.keptStream = [false, true] := by decide +kernel

theorem witness_UnpackEmitsGreedyText :
    packedAB.pad.toNat ≤ 7 ∧ packedAB.keptStream = packedAB.streamOf [0x61#8, 0x62#8] ∧
    (∀ c ∈ [0x61#8, 0x62#8], packedAB.Emits c) ∧ [0x61#8, 0x62#8].length ≤ Config.textMax := by
  refine ⟨by decide, ?_, fun c hc => emits_packedAB c (by simpa using hc), by decide⟩
  rw [kept_packedAB]
  simp only [State.streamOf, List.map_cons, List.map_nil, codeOf_packedAB]
  decide

/-- PAD at its least invalid value and at its greatest value. -/
theorem witness_UnpackInvalidPadding :
    7 < (withPay plain [] 8#32).pad.toNat ∧ 7 < (withPay plain [] 0xFFFFFFFF#32).pad.toNat := by decide

/-- U10's shape: the payload 0x10 with 4 filler bits, kept digits 0 0 0 1, under the table a = "0". -/
def unfinished : State := withPay (withTable plain [(0x61#8, [false])]) [0x10#8] 4#32

theorem codeOf_unfinished (b : Symbol) : unfinished.codeOf b = if b = 0x61#8 then [false] else [] :=
  (congrFun (State.codeOf_congr (s := withTable plain [(0x61#8, [false])]) (t := unfinished) rfl rfl) b).trans
    (codeOf_oneEntry _ _ (by decide) b)

theorem emits_unfinished : unfinished.Emits 0x61#8 :=
  emits_of_only (by rw [codeOf_unfinished]; decide) fun b h => by rw [codeOf_unfinished, if_neg h]

theorem witness_UnpackUnknownSymbolFaults :
    unfinished.pad.toNat ≤ 7 ∧
    unfinished.keptStream = unfinished.streamOf [0x61#8, 0x61#8, 0x61#8] ++ [true] ∧
    (∀ c ∈ [0x61#8, 0x61#8, 0x61#8], unfinished.Emits c) ∧
    [0x61#8, 0x61#8, 0x61#8].length ≤ Config.textMax ∧ [true] ≠ [] ∧ unfinished.NoMatchIn [true] := by
  refine ⟨by decide, ?_, fun c hc => ?_, by decide, by decide, fun b hb => ?_⟩
  · simp only [State.streamOf, List.map_cons, List.map_nil, codeOf_unfinished]
    decide +kernel
  · simp only [List.mem_cons, List.not_mem_nil, or_false, or_self] at hc
    rw [hc]; exact emits_unfinished
  · rw [codeOf_unfinished] at hb ⊢
    split
    · decide
    · next h => simp [h] at hb

/-- U13: 8192 payload bytes 0x00 under the table a = "0". -/
def tooLong : State :=
  { withTable plain [(0x61#8, [false])] with pay := Memory.zeros, plen := 8192#16, pad := 0#32 }

theorem codeOf_tooLong (b : Symbol) : tooLong.codeOf b = if b = 0x61#8 then [false] else [] :=
  (congrFun (State.codeOf_congr (s := withTable plain [(0x61#8, [false])]) (t := tooLong) rfl rfl) b).trans
    (codeOf_oneEntry _ _ (by decide) b)

theorem stream_tooLong (n : Nat) :
    tooLong.streamOf (List.replicate n 0x61#8) = List.replicate n false := by
  have h : tooLong.codeOf 0x61#8 = [false] := codeOf_tooLong 0x61#8
  rw [State.streamOf, List.map_replicate, h]
  induction n with
  | zero => rfl
  | succ n ih => rw [List.replicate_succ, List.flatten_cons, ih]; rfl

theorem witness_UnpackTextOverflowFaults :
    tooLong.pad.toNat ≤ 7 ∧
    tooLong.keptStream =
      tooLong.streamOf (List.replicate 65535 0x61#8) ++ tooLong.codeOf 0x61#8 ++ [] ∧
    (∀ d ∈ List.replicate 65535 0x61#8, tooLong.Emits d) ∧ tooLong.Emits 0x61#8 ∧
    (List.replicate 65535 0x61#8).length = 65535 := by
  have hc : tooLong.codeOf 0x61#8 = [false] := codeOf_tooLong 0x61#8
  have he : tooLong.Emits 0x61#8 :=
    emits_of_only (by rw [hc]; decide) fun b h => by rw [codeOf_tooLong, if_neg h]
  refine ⟨by decide, ?_, fun d hd => by rw [List.eq_of_mem_replicate hd]; exact he, he,
    List.length_replicate⟩
  have kept : tooLong.keptStream = List.replicate 65536 false := by
    have hb : tooLong.keptBits = 65536 := by decide
    have z : ∀ p, tooLong.payBit p = false := fun p => by
      show (0#8).getLsbD _ = false
      simp
    rw [State.keptStream, hb, funext z, List.map_const', List.length_range]
  rw [kept, stream_tooLong, hc, List.append_nil]
  exact List.replicate_succ' (n := 65535)

theorem witness_UnpackInvertsPack :
    (∀ c ∈ (withText tableAB [0x61#8, 0x62#8]).textSymbols,
      (withText tableAB [0x61#8, 0x62#8]).codeOf c ≠ []) ∧
    ((withText tableAB [0x61#8, 0x62#8]).streamOf
      (withText tableAB [0x61#8, 0x62#8]).textSymbols).length ≤ 8 * Config.payMax ∧
    ∀ c ∈ (withText tableAB [0x61#8, 0x62#8]).textSymbols, ∀ b, b ≠ c →
      (withText tableAB [0x61#8, 0x62#8]).codeOf b ≠ [] →
      ¬ (withText tableAB [0x61#8, 0x62#8]).codeOf b <+: (withText tableAB [0x61#8, 0x62#8]).codeOf c := by
  refine ⟨witness_PackStoresBitStream.1, witness_PackStoresBitStream.2, fun c hc b hbc hb hp => ?_⟩
  rw [text_ab] at hc
  have hc' : c = 0x61#8 ∨ c = 0x62#8 := by simpa using hc
  obtain ⟨-, h⟩ := emits_packedAB c hc'
  obtain ⟨he, -⟩ := h b hb hp
  rw [codeOf_withText] at hb
  rw [codeOf_packedAB, codeOf_packedAB] at he
  rw [codeOf_tableAB] at hb
  by_cases h2 : b = 0x62#8
  · rcases hc' with rfl | rfl
    · subst h2; simp at he
    · exact hbc h2
  · by_cases h1 : b = 0x61#8
    · rcases hc' with rfl | rfl
      · exact hbc h1
      · subst h1; simp at he
    · simp [h1, h2] at hb

end Sys2Proof.Tests
end

