-- ==== Sys2Proof/Tests/WitnessesPort.lean ====
section
/-! SUPPORT. The witnesses of the obligations about XOR, the port, reset, irq and host programs. -/

namespace Sys2Proof.Tests

open Sys2Proof.Machine

-- XOR ----------------------------------------------------------------------------------------------

/-- A key of one byte and a key of 256 bytes. -/
theorem witness_XorEnciphersPayload :
    (withKey plain [0x4B#8]).klen ≠ 0#9 ∧ { plain with klen := 256#9 }.klen ≠ 0#9 := by decide

theorem witness_XorEmptyKeyFaults : plain.klen = 0#9 := rfl

theorem witness_XorTwiceRestores : (withKey plain [0x4B#8]).klen ≠ 0#9 := by decide

-- The host port ------------------------------------------------------------------------------------

theorem witness_RejectedAccessChangesNothing :
    plain.rstN = true ∧ plain.checkWrite 0x0000C#18 0#32 = .error .unmapped ∧
    plain.checkWrite 0x00000#18 0#32 = .error .direction ∧
    plain.checkWrite 0x00009#18 257#32 = .error .value ∧
    (latched plain 0#32).checkRead 0x00006#18 = .error .phase := by decide

/-- The ends of every unmapped range. -/
theorem witness_UnmappedAccessRejected :
    plain.rstN = true ∧ ∀ a ∈ [0x0000C#18, 0x000FF#18, 0x007FE#18, 0x007FF#18, 0x01000#18, 0x0FFFF#18,
        0x1FFFF#18, 0x2FFFF#18, 0x3FFFF#18],
      (0x0000C ≤ a.toNat ∧ a.toNat ≤ 0x000FF) ∨ (0x007FE ≤ a.toNat ∧ a.toNat ≤ 0x007FF) ∨
        (0x01000 ≤ a.toNat ∧ a.toNat ≤ 0x0FFFF) ∨ a.toNat = 0x1FFFF ∨ 0x2FFFF ≤ a.toNat :=
  ⟨rfl, by simp⟩

theorem witness_BusyAdmitsControlOnly :
    (latched plain 0#32).rstN = true ∧ (latched plain 0#32).phase = .busy ∧
    Location.wf (.reg .id) = true ∧ Location.wf (.reg .ctrl) = true ∧
    Location.wf (.text 65534#16) = true := by decide

theorem ready_plain : plain.Ready := ⟨rfl, rfl, rfl⟩

theorem witness_ReadOnlyLocations :
    plain.Ready ∧ Location.wf (.node 510#9 1#1) = true ∧ Location.wf (.reg .klen) = true ∧
    valueFits (.reg .klen) 256#32 = true ∧
    (plain.raise (.invalidPadding 8#32)).rstN = true ∧ (plain.raise (.invalidPadding 8#32)).phase = .idle ∧
    State.see (plain.raise (.invalidPadding 8#32)) (.reg .info) = 8#32 := ⟨ready_plain, by decide⟩

theorem witness_NodeWordLayout :
    plain.rstN = true ∧ plain.phase = .idle ∧ (510#9 : Handle).toNat < Config.nodeMax := by decide

/-- Every class of location at the greatest value it takes and the least it does not. -/
theorem witness_WriteValueCheck :
    plain.Ready ∧ (65535#32).toNat < 65536 ∧ ¬ (65536#32).toNat < 65536 ∧ (255#32).toNat < 256 ∧
    ¬ (256#32).toNat < 256 ∧ (256#32).toNat ≤ 256 ∧ ¬ (257#32).toNat ≤ 256 ∧
    Location.wf (.key 255#8) = true := ⟨ready_plain, by decide⟩

theorem witness_WriteReadsBackExactly :
    plain.Ready ∧ Location.wf (.text 65534#16) = true ∧
    (.text 65534#16 : Location) ∉ [.reg .cmd, .reg .status, .reg .ctrl] ∧
    (plain.wr (.text 65534#16) 255#32).resp = some .written ∧
    Location.wf (.text 0#16) = true ∧ (.text 0#16 : Location) ≠ .text 65534#16 :=
  ⟨ready_plain, by decide⟩

theorem witness_ReadHasNoSideEffect : plain.checkRead (addrOf (.text 0#16)) = .ok (.text 0#16) := by decide

theorem witness_StatusWordBits : plain.rstN = true := rfl

theorem witness_StatusWriteClears : plain.rstN = true := rfl

theorem witness_BusyRegisterValues : plain.Ready ∧ plain.StatusOk := ⟨ready_plain, statusOk_plain⟩

-- Reset and interrupt ------------------------------------------------------------------------------

theorem witness_SoftResetRestoresReset :
    (latched plain 3#32).rstN = true ∧ (0x80000000#32).getLsbD 31 = true ∧
    (0x7FFFFFFF#32).getLsbD 31 = false := by decide

theorem witness_HardResetHoldsReset :
    { latched plain 3#32 with turns := [.rstN false, .rstN true] }.turns = .rstN false :: [.rstN true] := rfl

/-- Both sources, and neither. -/
theorem witness_IrqFollowsStatus :
    State.irq { plain with done := true, ieDone := true } = true ∧
    State.irq { plain with err := true, cause := 8#4, ieErr := true } = true ∧
    State.irq { plain with done := true, ieErr := true } = false := by decide

-- Host programs ------------------------------------------------------------------------------------

theorem witness_EncodeEmptyText :
    plain.Ready ∧ [0x4B#8] ≠ [] ∧ [0x4B#8].length ≤ Config.keyMax ∧
    (List.replicate 256 0x4B#8).length ≤ Config.keyMax :=
  ⟨ready_plain, by decide, by decide, by rw [List.length_replicate]; decide⟩

theorem witness_EncodeSingleSymbol :
    plain.Ready ∧ ([] : List Byte).length < Config.keyMax ∧
    (List.replicate 255 0x4B#8).length < Config.keyMax :=
  ⟨ready_plain, by decide, by rw [List.length_replicate]; decide⟩

theorem witness_EncodeEndsOnlyInNamedFaults :
    plain.Ready ∧ textFits [0x61#8] = true ∧ keyFits [] = true := ⟨ready_plain, by decide⟩

/-- Two different ready states, and a text and key whose ENCODE finishes. -/
theorem witness_EncodeIndependentOfStart :
    plain.Ready ∧ State.reset.Ready ∧ plain ≠ State.reset ∧
    (runEncode [] [0x4B#8] plain).report = .finished :=
  ⟨ready_plain, ⟨rfl, rfl, rfl⟩, by decide, by decide +kernel⟩

theorem witness_DecodeInvertsEncodeProgram :
    plain.Ready ∧ State.reset.Ready ∧ [0x4B#8] ≠ [] ∧
    (runEncode [0x61#8] [0x4B#8] plain).report = .finished :=
  ⟨ready_plain, ⟨rfl, rfl, rfl⟩, by decide, by decide +kernel⟩

end Sys2Proof.Tests
end

section
/-! SUPPORT. What the port does with a mapped access and what one step keeps, said once for every invariant. -/

namespace Sys2Proof.Machine

-- The address map and a performed access ------------------------------------------------------------

theorem regIndex_of_regAt {n : Nat} {r : Reg} (h : regAt n = some r) : regIndex r = n := by
  unfold regAt at h
  split at h <;> cases h <;> rfl

/-- A chain of `if` taken apart one test at a time. -/
theorem ite_eq_elim {α : Type} {c : Prop} [Decidable c] {x y z : α} {Q : Prop} (hpos : c → x = z → Q)
    (hneg : ¬ c → y = z → Q) (h : (if c then x else y) = z) : Q := by
  by_cases hc : c
  · exact hpos hc (by rwa [if_pos hc] at h)
  · exact hneg hc (by rwa [if_neg hc] at h)

/-- A mapped address names a location that exists, and is that location's own address (R84, R95). -/
theorem locate_sound {a : Addr} {l : Location} (h : locate a = some l) :
    l.wf = true ∧ addrOf l = a := by
  have ha := a.isLt
  unfold locate at h
  rw [← BitVec.toNat_inj]
  generalize a.toNat = n at h ha ⊢
  dsimp only at h
  revert h
  refine ite_eq_elim (fun _ h => ?_) fun _ => ?_
  · obtain ⟨r, hr, rfl⟩ := Option.map_eq_some_iff.1 h
    refine ⟨rfl, ?_⟩
    rw [addrOf, regIndex_of_regAt hr, BitVec.toNat_ofNat]
    omega
  · repeat' refine ite_eq_elim (fun _ => ?_) fun _ => ?_
    all_goals
      intro h
      cases h
    all_goals
      simp only [Location.wf, addrOf, Config.nodeMax, Config.textMax, Config.payMax, BitVec.toNat_ofNat,
        decide_eq_true_eq, true_and]
      omega
theorem locate_addrOf_reg (r : Reg) : locate (addrOf (.reg r)) = some (.reg r) := by
  cases r <;> rfl

theorem hostAccess_read {s : State} {a : Addr} {l : Location} (hr : s.rstN = true)
    (hl : locate a = some l) (hp : s.phaseAllowsRead l = true) :
    s.hostAccess (.read a) = { s with resp := some (.value (s.readLocation l)) } := by
  simp only [State.hostAccess, State.hostRead, State.checkRead, hr, hl, hp, if_true]

theorem hostAccess_write {s : State} {a : Addr} {v : Word} {l : Location} (hr : s.rstN = true)
    (hl : locate a = some l) (hp : s.phaseAllowsWrite l = true) (hw : hostWritable l = true)
    (hv : valueFits l v = true) :
    s.hostAccess (.write a v) = { s.writeLocation v l with resp := some .written } := by
  simp [State.hostAccess, State.hostWrite, State.checkWrite, hr, hl, hp, hw, hv]

-- STATUS ---------------------------------------------------------------------------------------------

theorem State.busy_iff (s : State) : s.busy = true ↔ s.phase = .busy := decide_eq_true_iff

/-- STATUS is readable and writable in either PHASE (R91). -/
theorem State.phaseAllowsRead_status (s : State) : s.phaseAllowsRead (.reg .status) = true := by
  unfold State.phaseAllowsRead; split <;> rfl

theorem State.phaseAllowsWrite_status (s : State) : s.phaseAllowsWrite (.reg .status) = true := by
  unfold State.phaseAllowsWrite; split <;> rfl

theorem State.see_status {s : State} (h : s.rstN = true) : s.see (.reg .status) = s.statusWord := by
  rw [State.see, State.rd, hostAccess_read h (locate_addrOf_reg _) s.phaseAllowsRead_status]
  rfl

/-- The bits of STATUS (R32). -/
theorem State.getLsbD_statusWord (s : State) (i : Nat) :
    s.statusWord.getLsbD i =
      match i with
      | 0 => s.busy
      | 1 => s.done
      | 2 => s.err
      | 3 => s.empty
      | _ => false := by
  unfold State.statusWord
  change BitVec.getLsbD (w := 28 + (1 + (1 + (1 + 1)))) _ i = _
  simp only [BitVec.getLsbD_append, BitVec.getLsbD_ofBool]
  match i with
  | 0 | 1 | 2 | 3 => simp
  | i + 4 => simp

/-- What a write to STATUS clears, field by field (R32, R344). -/
theorem State.writeStatus_eq (s : State) (v : Word) :
    s.writeStatus v =
      { s with
        done := s.done && !v.getLsbD 1
        err := s.err && !v.getLsbD 2
        cause := if v.getLsbD 2 then 0#4 else s.cause
        info := if v.getLsbD 2 then 0#32 else s.info } := by
  unfold State.writeStatus State.acknowledge
  cases v.getLsbD 1 <;> cases v.getLsbD 2 <;> simp

-- The turns ------------------------------------------------------------------------------------------

theorem engineStep_idle {s : State} (h : s.phase = .idle) : engineStep s = .next s := by
  simp [engineStep, State.busy, h]

/-- Driving the pin: no event, or the reset state with the pin at its new level (R380). -/
theorem driveReset_cases (s : State) (level : Bool) :
    (level = true ∧ s.rstN = true ∧ s.driveReset level = s) ∨
    ((level = false ∨ s.rstN = false) ∧
      s.driveReset level = { s.resetNow with rstN := level, resp := none }) := by
  unfold State.driveReset
  cases level <;> cases s.rstN <;> simp

theorem inReset_afterReset (d : Nat) : (State.afterReset d).InReset :=
  ⟨rfl, rfl, rfl, rfl, rfl, rfl, rfl, rfl, rfl, rfl, rfl, rfl, rfl, rfl, rfl, rfl, fun _ => rfl, fun _ => rfl⟩

/-- A reset gives the reset state, whatever the pin and the port show (R60). -/
theorem inReset_resetNow (s : State) (level : Bool) (r : Option Response) :
    State.InReset { s.resetNow with rstN := level, resp := r } :=
  inReset_afterReset s.draws

/-- A performed write that changes PHASE is one to CMD, or one to CTRL that asks for a soft reset (R23). -/
theorem writeLocation_phase (s : State) (v : Word) (l : Location) :
    (s.writeLocation v l).phase = s.phase ∨ l = .reg .cmd ∨
      (l = .reg .ctrl ∧ v.getLsbD 31 = true) := by
  cases l with
  | reg r =>
    cases r with
    | cmd => exact .inr (.inl rfl)
    | status => rw [State.writeLocation, State.writeStatus_eq]; exact .inl rfl
    | ctrl =>
      by_cases h : v.getLsbD 31 = true
      · exact .inr (.inr ⟨rfl, h⟩)
      · rw [State.writeLocation, State.writeCtrl, if_neg h]; exact .inl rfl
    | _ => exact .inl rfl
  | _ => exact .inl rfl

/-- A property that nothing a step is made of can break: the model's own fields and the pin do not enter, and
commands, faults, resets and performed writes keep it. -/
structure StepInvariant (P : State → Prop) : Prop where
  outside : ∀ (s : State) rstN resp turns draws, P s →
    P { s with rstN := rstN, resp := resp, turns := turns, draws := draws }
  exec : ∀ (i : Instr) (s t : State), s.phase = .busy → P s → exec i s = .next t → P t
  raise : ∀ (s : State) (f : HxcFault), s.phase = .busy → P s → P (s.raise f)
  reset : ∀ s : State, P s.resetNow
  write : ∀ (s : State) (v : Word) (l : Location), l.wf = true → s.phaseAllowsWrite l = true →
    hostWritable l = true →
    valueFits l v = true → P s → P (s.writeLocation v l)

section

variable {P : State → Prop}

theorem StepInvariant.engineStep (hP : StepInvariant P) {s t : State} (h : P s)
    (hs : engineStep s = .next t) : P t := by
  rcases engineStep_cases s with ⟨-, e⟩ | ⟨-, hb, i, -, e⟩ | ⟨-, hb, -, e⟩ <;> rw [e] at hs
  · cases hs; exact h
  · exact hP.exec i s t hb h hs
  · cases hs; exact hP.raise s _ hb h

theorem StepInvariant.hostAccess (hP : StepInvariant P) {s : State} (h : P s) (a : Access) :
    P (s.hostAccess a) := by
  rcases hostAccess_cases s a with ⟨-, e⟩ | ⟨-, addr, -, ⟨l, -, e⟩ | ⟨r, -, e⟩⟩ |
    ⟨-, addr, v, -, ⟨l, hc, e⟩ | ⟨r, -, e⟩⟩ <;> rw [e]
  · exact hP.outside s _ _ _ _ h
  · exact hP.outside s _ _ _ _ h
  · exact hP.outside s _ _ _ _ h
  · obtain ⟨hl, hp, hw, hv⟩ := checkWrite_ok hc
    exact hP.outside _ _ _ _ _ (hP.write s v l (locate_sound hl).1 hp hw hv h)
  · exact hP.outside s _ _ _ _ h

theorem StepInvariant.driveReset (hP : StepInvariant P) {s : State} (h : P s) (level : Bool) :
    P (s.driveReset level) := by
  rcases driveReset_cases s level with ⟨-, -, e⟩ | ⟨-, e⟩ <;> rw [e]
  · exact h
  · exact hP.outside _ _ _ _ _ (hP.reset s)

/-- What commands, faults, resets and performed writes keep, every step keeps. -/
theorem StepInvariant.step (hP : StepInvariant P) {s t : State} (h : P s) (hs : step s = .next t) :
    P t := by
  have taken : ∀ rest, P { s with turns := rest } := fun rest => hP.outside s _ _ _ _ h
  rcases step_cases s with ⟨-, e⟩ | ⟨rest, -, e⟩ | ⟨a, rest, -, e⟩ | ⟨level, rest, -, e⟩ <;> rw [e] at hs
  · exact hP.engineStep h hs
  · exact hP.engineStep (taken rest) hs
  · cases hs; exact hP.hostAccess (taken rest) a
  · cases hs; exact hP.driveReset (taken rest) level

end

end Sys2Proof.Machine
end

section
/-! The lifecycle of a command and STATUS: the statements that need no invariant. -/

namespace Sys2Proof.Machine

/-- Settles O6, by the branch of `step` that each head of `turns` selects. -/
theorem idleAndHostTurns : Obligations.IdleAndHostTurns := by
  intro s
  refine ⟨fun hp ht => ?_, fun hp rest ht => ?_, fun a rest ht => ?_⟩
  · rw [step, ht]; exact engineStep_idle hp
  · rw [step, ht]; exact engineStep_idle hp
  · rw [step, ht]

/-- Settles O50, from the bits of the word an accepted read of STATUS gives. -/
theorem statusWordBits : Obligations.StatusWordBits := by
  intro s hr
  rw [State.see_status hr]
  simp only [State.getLsbD_statusWord]
  refine ⟨s.busy_iff, trivial, trivial, trivial, fun i hi => ?_⟩
  match i, hi with
  | i + 4, _ => rfl

/-- Settles O51: the write passes its checks in either PHASE, and `writeStatus_eq` says what it does. -/
theorem statusWriteClears : Obligations.StatusWriteClears := by
  intro s v hr
  rw [State.wr, hostAccess_write hr (locate_addrOf_reg _) s.phaseAllowsWrite_status rfl rfl,
    State.writeLocation, State.writeStatus_eq]

/-- The engine's turn changes PHASE only from BUSY to IDLE, at the end of a command (R23). -/
theorem engineStep_phase {s t : State} (h : engineStep s = .next t) (hp : t.phase ≠ s.phase) :
    s.rstN = true ∧ s.phase = .busy ∧ t.phase = .idle ∧ (t.done = true ∨ t.err = true) := by
  rcases engineStep_cases s with ⟨-, e⟩ | ⟨hr, hb, i, -, e⟩ | ⟨hr, hb, -, e⟩ <;> rw [e] at h
  · cases h; exact absurd rfl hp
  · obtain ⟨⟨hd, -⟩ | ⟨f, he, -⟩, hi, -⟩ := exec_ends h
    · exact ⟨hr, hb, hi, .inl hd⟩
    · exact ⟨hr, hb, hi, .inr he⟩
  · cases h; exact ⟨hr, hb, rfl, .inr rfl⟩

/-- An access that changes PHASE is an accepted CMD write or a soft reset (R23). -/
theorem hostAccess_phase {s : State} {a : Access} (hp : (s.hostAccess a).phase ≠ s.phase) :
    s.rstN = true ∧
      ((∃ w, a = .write 0x00001#18 w ∧ s.phase = .idle ∧ s.err = false ∧
          (s.hostAccess a).phase = .busy ∧ (s.hostAccess a).cmdLatch = w) ∨
        (∃ v, a = .write 0x00003#18 v ∧ v.getLsbD 31 = true ∧ (s.hostAccess a).InReset)) := by
  rcases hostAccess_cases s a with ⟨-, e⟩ | ⟨-, addr, -, ⟨l, -, e⟩ | ⟨r, -, e⟩⟩ |
    ⟨hr, addr, v, rfl, ⟨l, hc, e⟩ | ⟨r, -, e⟩⟩ <;> rw [e] at hp ⊢
  case inr.inr.inl =>
    obtain ⟨hl, ha, -, -⟩ := checkWrite_ok hc
    have hloc := (locate_sound hl).2
    refine ⟨hr, ?_⟩
    rcases writeLocation_phase s v l with h | rfl | ⟨rfl, hv⟩
    · exact absurd h hp
    · cases hi : s.phase with
      | busy => simp [State.phaseAllowsWrite, hi, writableWhileBusy] at ha
      | idle =>
        refine .inl ⟨v, by rw [← hloc]; rfl, rfl, ?_, rfl, rfl⟩
        simpa [State.phaseAllowsWrite, hi] using ha
    · refine .inr ⟨v, by rw [← hloc]; rfl, hv, ?_⟩
      rw [State.writeLocation, State.writeCtrl, if_pos hv]
      exact inReset_resetNow s _ _
  all_goals exact absurd rfl hp

/-- Settles O10, one turn at a time: the engine's, a host access, a level on the reset pin. -/
theorem phaseChangesInThreeWays : Obligations.PhaseChangesInThreeWays := by
  intro s t hs hp
  rcases step_cases s with ⟨ht, e⟩ | ⟨rest, ht, e⟩ | ⟨a, rest, ht, e⟩ | ⟨level, rest, ht, e⟩ <;>
    rw [e] at hs
  · obtain ⟨hr, hb, hi, hd⟩ := engineStep_phase hs hp
    exact .inr (.inl ⟨hr, hb, hi, .inl ht, hd⟩)
  · obtain ⟨hr, hb, hi, hd⟩ := engineStep_phase hs hp
    exact .inr (.inl ⟨hr, hb, hi, .inr ⟨rest, ht⟩, hd⟩)
  · cases hs
    obtain ⟨hr, ⟨w, rfl, hi, he, hb, hw⟩ | ⟨v, rfl, hv, hreset⟩⟩ := hostAccess_phase hp
    · exact .inl ⟨hr, hi, hb, he, w, rest, ht, hw⟩
    · exact .inr (.inr ⟨.inr ⟨hr, v, rest, ht, hv⟩, hreset.1, hreset⟩)
  · cases hs
    rcases driveReset_cases { s with turns := rest } level with ⟨-, -, e'⟩ | ⟨hl, e'⟩ <;> rw [e'] at hp ⊢
    · exact absurd rfl hp
    · exact .inr (.inr ⟨.inl ⟨level, rest, ht, hl⟩, rfl, inReset_resetNow _ _ _⟩)

end Sys2Proof.Machine
end

section
/-! SUPPORT. What BUILD's two phases can do (spec/42_build.md R206, R208): leaf synthesis writes consecutive
records, every merge round adds one parent of two queued nodes, and both keep a forest whose roots are the
queue's members. -/

namespace Sys2Proof.Machine

-- One node added -------------------------------------------------------------------------------------

/-- Record `h` of the arena being written. -/
def BuildState.nodeAt (b : BuildState) (h : Nat) : Node := b.node.read Config.freeNode h

/-- Node `c` is a child of internal node `p`. -/
def BuildState.IsChild (b : BuildState) (p c : Nat) : Prop :=
  (b.nodeAt p).leaf = false ∧ ((b.nodeAt p).left.toNat = c ∨ (b.nodeAt p).right.toNat = c)

/-- Node `c` is a member of the queue. -/
def BuildState.Queued (b : BuildState) (c : Nat) : Prop := ∃ e ∈ b.queue, e.handle.toNat = c

/-- The sum of the queued frequencies, which merging leaves alone (R208). -/
def BuildState.weight (b : BuildState) : Nat := (b.queue.map (fun e => e.freq.toNat)).sum

theorem BuildState.nodeAt_add (b : BuildState) (r : Node) (h : Nat) :
    (b.add r).nodeAt h = if h = b.next then r else b.nodeAt h :=
  Memory.read_write ..

theorem BuildState.nodeAt_add_next (b : BuildState) (r : Node) : (b.add r).nodeAt b.next = r := by
  rw [BuildState.nodeAt_add, if_pos rfl]

theorem BuildState.nodeAt_add_of_lt (b : BuildState) (r : Node) {h : Nat} (hh : h < b.next) :
    (b.add r).nodeAt h = b.nodeAt h := by
  rw [BuildState.nodeAt_add, if_neg hh.ne]

theorem BuildState.isChild_add_of_lt (b : BuildState) (r : Node) {p : Nat} (hp : p < b.next) (c : Nat) :
    (b.add r).IsChild p c ↔ b.IsChild p c := by
  simp only [BuildState.IsChild, b.nodeAt_add_of_lt r hp]

theorem BuildState.weight_add (b : BuildState) (r : Node) : (b.add r).weight = r.freq.toNat + b.weight := by
  simpa [BuildState.weight] using
    ((pqInsert_perm { freq := r.freq, handle := BitVec.ofNat 9 b.next } b.queue).map
      (fun e => e.freq.toNat)).sum_eq

section

variable {b : BuildState} (hn : b.next < 512) (r : Node)

include hn

theorem BuildState.mem_queue_add {e : PqEntry} (he : e ∈ (b.add r).queue) :
    (e.handle.toNat = b.next ∧ e.freq = r.freq) ∨ e ∈ b.queue := by
  rcases mem_pqInsert.1 he with rfl | he
  · exact .inl ⟨Nat.mod_eq_of_lt hn, rfl⟩
  · exact .inr he

theorem BuildState.queued_add (c : Nat) : (b.add r).Queued c ↔ c = b.next ∨ b.Queued c := by
  constructor
  · rintro ⟨e, he, rfl⟩
    rcases BuildState.mem_queue_add hn r he with ⟨h, -⟩ | he
    · exact .inl h
    · exact .inr ⟨e, he, rfl⟩
  · rintro (rfl | ⟨e, he, rfl⟩)
    · exact ⟨_, mem_pqInsert.2 (.inl rfl), Nat.mod_eq_of_lt hn⟩
    · exact ⟨e, mem_pqInsert.2 (.inr he), rfl⟩

/-- A new handle keeps the queue free of repetitions. -/
theorem BuildState.nodup_queue_add (hq : (b.queue.map PqEntry.handle).Nodup)
    (hlt : ∀ e ∈ b.queue, e.handle.toNat < b.next) : ((b.add r).queue.map PqEntry.handle).Nodup := by
  refine ((pqInsert_perm _ b.queue).map PqEntry.handle).nodup_iff.2 (List.nodup_cons.2 ⟨?_, hq⟩)
  intro hm
  obtain ⟨e, he, heq⟩ := List.mem_map.1 hm
  have := hlt e he
  rw [heq, BitVec.toNat_ofNat] at this
  omega

end

-- The forest -----------------------------------------------------------------------------------------

/-- A leaf in its record form (spec/30_encoding.md R136). -/
def LeafForm (r : Node) : Prop := r.leaf = true ∧ r.left = 0#9 ∧ r.right = 0#9

/-- Node `h` is an internal node as R52 (a), (b) and (d) ask: two different older children and the sum of
their frequencies. -/
structure BuildState.InternalAt (b : BuildState) (h : Nat) : Prop where
  leaf : (b.nodeAt h).leaf = false
  sym : (b.nodeAt h).sym = 0#8
  left_lt : (b.nodeAt h).left.toNat < h
  right_lt : (b.nodeAt h).right.toNat < h
  distinct : (b.nodeAt h).left ≠ (b.nodeAt h).right
  freq : (b.nodeAt h).freq.toNat =
    (b.nodeAt (b.nodeAt h).left.toNat).freq.toNat + (b.nodeAt (b.nodeAt h).right.toNat).freq.toNat

/-- The arena is a forest of `k` leaves, first in the arena, and the queue holds exactly its roots with their
frequencies. One node is queued at the end, so `count` then gives NNODE (R205). -/
structure BuildState.Forest (k : Nat) (b : BuildState) : Prop where
  leaves_le : k ≤ b.next
  count : b.next + b.queue.length = 2 * k
  leaf : ∀ h < k, LeafForm (b.nodeAt h)
  internal : ∀ h, k ≤ h → h < b.next → b.InternalAt h
  queued_lt : ∀ e ∈ b.queue, e.handle.toNat < b.next
  queued_freq : ∀ e ∈ b.queue, (b.nodeAt e.handle.toNat).freq = e.freq
  queue_nodup : (b.queue.map PqEntry.handle).Nodup
  queued_iff : ∀ c < b.next, b.Queued c ↔ ∀ p < b.next, ¬ b.IsChild p c
  parent_unique : ∀ c, ∀ p < b.next, ∀ q < b.next, b.IsChild p c → b.IsChild q c → p = q
  weight_le : b.weight ≤ 65535 * k

/-- Only the node itself and older ones enter. -/
theorem BuildState.InternalAt.of_agree {b b' : BuildState} {h : Nat} (hi : b.InternalAt h)
    (ha : ∀ g ≤ h, b'.nodeAt g = b.nodeAt g) : b'.InternalAt h := by
  have hl := hi.left_lt
  have hr := hi.right_lt
  constructor <;> rw [ha h (le_refl h)]
  · exact hi.leaf
  · exact hi.sym
  · exact hl
  · exact hr
  · exact hi.distinct
  · rw [ha _ hl.le, ha _ hr.le]
    exact hi.freq

/-- A child is older than its parent. -/
theorem BuildState.Forest.child_lt {k : Nat} {b : BuildState} (hF : b.Forest k) {p c : Nat}
    (hp : p < b.next) (hc : b.IsChild p c) : c < p := by
  obtain ⟨hl, hc⟩ := hc
  have hk : k ≤ p := by
    by_contra hlt
    rw [(hF.leaf p (by omega)).1] at hl
    cases hl
  have hi := hF.internal p hk hp
  rcases hc with rfl | rfl
  · exact hi.left_lt
  · exact hi.right_lt

theorem BuildState.forest_empty (node : Memory Node) :
    BuildState.Forest 0 { node := node, queue := [], next := 0 } where
  leaves_le := le_refl _
  count := rfl
  leaf := by simp
  internal := by simp
  queued_lt := by simp
  queued_freq := by simp
  queue_nodup := by simp
  queued_iff := by simp
  parent_unique := by simp
  weight_le := le_refl _

/-- Leaf synthesis for one present symbol keeps the forest, all of whose nodes are leaves (R206). -/
theorem BuildState.Forest.addLeaf {b : BuildState} (hF : b.Forest b.next) (hn : b.next < 512)
    {r : Node} (hr : LeafForm r) (hw : r.freq.toNat ≤ 65535) : (b.add r).Forest (b.next + 1) := by
  have leaf : ∀ h < b.next + 1, LeafForm ((b.add r).nodeAt h) := fun h hh => by
    rw [BuildState.nodeAt_add]
    split
    · exact hr
    · exact hF.leaf h (by omega)
  have noChild : ∀ p < b.next + 1, ∀ c, ¬ (b.add r).IsChild p c := fun p hp c hc => by
    cases (leaf p hp).1.symm.trans hc.1
  have noChild' : ∀ p < b.next, ∀ c, ¬ b.IsChild p c := fun p hp c hc =>
    noChild p (by omega) c ((b.isChild_add_of_lt r hp c).2 hc)
  constructor
  case leaves_le => exact le_refl _
  case count =>
    have := hF.count
    simp only [BuildState.add_next, BuildState.add_queue, length_pqInsert]
    omega
  case leaf => exact leaf
  case internal => intro h h1 h2; rw [BuildState.add_next] at h2; omega
  case queued_lt =>
    intro e he
    rw [BuildState.add_next]
    rcases BuildState.mem_queue_add hn r he with ⟨h, -⟩ | he
    · omega
    · have := hF.queued_lt e he; omega
  case queued_freq =>
    intro e he
    rcases BuildState.mem_queue_add hn r he with ⟨h, hf⟩ | he
    · rw [h, BuildState.nodeAt_add_next, hf]
    · rw [BuildState.nodeAt_add_of_lt _ _ (hF.queued_lt e he), hF.queued_freq e he]
  case queue_nodup => exact BuildState.nodup_queue_add hn r hF.queue_nodup hF.queued_lt
  case queued_iff =>
    intro c hc
    rw [BuildState.queued_add hn]
    refine ⟨fun _ p hp => noChild p hp c, fun _ => ?_⟩
    rcases Nat.lt_succ_iff_lt_or_eq.1 hc with h | h
    · exact .inr ((hF.queued_iff c h).2 fun p hp => noChild' p hp c)
    · exact .inl h
  case parent_unique => intro c p hp q _ h; exact absurd h (noChild p hp c)
  case weight_le =>
    have := hF.weight_le
    rw [BuildState.weight_add]
    omega

-- Leaf synthesis -------------------------------------------------------------------------------------

/-- The leaves R206 makes: one for each symbol with a non-zero count, in ascending order. -/
def leafRecords (freq : Symbol → Count) : List Node :=
  (allSymbols.filter (fun c => decide (freq c ≠ 0#16))).map (fun c => leafNode c (zext24 (freq c)))

/-- BUILD's working state between its two phases. -/
def leafPhase (freq : Symbol → Count) (node : Memory Node) : BuildState :=
  (leafRecords freq).foldl BuildState.add { node := node, queue := [], next := 0 }

theorem foldl_addLeaf (freq : Symbol → Count) (cs : List Symbol) (b : BuildState) :
    cs.foldl (BuildState.addLeaf freq) b =
      ((cs.filter (fun c => decide (freq c ≠ 0#16))).map (fun c => leafNode c (zext24 (freq c)))).foldl
        BuildState.add b := by
  induction cs generalizing b with
  | nil => rfl
  | cons c cs ih =>
    rw [List.foldl_cons, ih]
    by_cases h : freq c = 0#16 <;> simp [BuildState.addLeaf, h]

theorem buildTree_eq (freq : Symbol → Count) (node : Memory Node) :
    buildTree freq node = (leafPhase freq node).merge (leafPhase freq node).queue.length := by
  rw [buildTree, foldl_addLeaf]
  rfl

theorem foldl_add_node (rs : List Node) (b : BuildState) :
    (rs.foldl BuildState.add b).node = b.node.writeFrom b.next rs := by
  induction rs generalizing b with
  | nil => rfl
  | cons r rs ih => rw [List.foldl_cons, ih]; rfl

theorem foldl_add_next (rs : List Node) (b : BuildState) :
    (rs.foldl BuildState.add b).next = b.next + rs.length := by
  induction rs generalizing b with
  | nil => rfl
  | cons r rs ih => rw [List.foldl_cons, ih, BuildState.add_next, List.length_cons]; omega

theorem forest_foldl_add {rs : List Node} {b : BuildState} (hF : b.Forest b.next)
    (hn : b.next + rs.length ≤ 512) (hr : ∀ r ∈ rs, LeafForm r ∧ r.freq.toNat ≤ 65535) :
    (rs.foldl BuildState.add b).Forest (b.next + rs.length) := by
  induction rs generalizing b with
  | nil => exact hF
  | cons r rs ih =>
    rw [List.length_cons] at hn ⊢
    obtain ⟨hform, hw⟩ := hr r (by simp)
    have hF' : (b.add r).Forest (b.add r).next := hF.addLeaf (by omega) hform hw
    have := ih hF' (by rw [BuildState.add_next]; omega) (fun q hq => hr q (by simp [hq]))
    rwa [BuildState.add_next, Nat.add_assoc, Nat.add_comm 1] at this

theorem length_leafRecords_le (freq : Symbol → Count) : (leafRecords freq).length ≤ 256 := by
  rw [leafRecords, List.length_map, ← length_allSymbols]
  exact List.length_filter_le ..

theorem leafPhase_node (freq : Symbol → Count) (node : Memory Node) :
    (leafPhase freq node).node = node.writeFrom 0 (leafRecords freq) :=
  foldl_add_node ..

theorem leafPhase_next (freq : Symbol → Count) (node : Memory Node) :
    (leafPhase freq node).next = (leafRecords freq).length := by
  rw [leafPhase, foldl_add_next, Nat.zero_add]

theorem leafPhase_nodeAt (freq : Symbol → Count) (node : Memory Node) {h : Nat}
    (hh : h < (leafRecords freq).length) : (leafPhase freq node).nodeAt h = (leafRecords freq)[h] := by
  rw [BuildState.nodeAt, leafPhase_node, Memory.read_writeFrom_zero, if_pos hh,
    List.getD_eq_getElem?_getD, List.getElem?_eq_getElem hh]
  rfl

theorem forest_leafPhase (freq : Symbol → Count) (node : Memory Node) :
    (leafPhase freq node).Forest (leafRecords freq).length := by
  have hlen := length_leafRecords_le freq
  have form : ∀ r ∈ leafRecords freq, LeafForm r ∧ r.freq.toNat ≤ 65535 := fun r hr => by
    obtain ⟨c, -, rfl⟩ := List.mem_map.1 hr
    have := (freq c).isLt
    exact ⟨⟨rfl, rfl, rfl⟩, by simp only [leafNode, zext24, BitVec.toNat_setWidth]; omega⟩
  have := forest_foldl_add (b := { node := node, queue := [], next := 0 })
    (BuildState.forest_empty node) (by simp only; omega) form
  rwa [Nat.zero_add] at this

/-- The leaves stand in the order of their symbols (R52 (e)). -/
theorem leafRecords_rising (freq : Symbol → Count) :
    (leafRecords freq).Pairwise (fun a b => a.sym.toNat < b.sym.toNat) :=
  List.pairwise_map.2 (allSymbols_rising.sublist List.filter_sublist)

-- The merge loop -------------------------------------------------------------------------------------

/-- One round of the merge loop (R208). -/
def BuildState.mergeRound (b : BuildState) (x y : PqEntry) (rest : List PqEntry) : BuildState :=
  { b with queue := rest }.add (internalNode (x.freq + y.freq) x.handle y.handle)

theorem BuildState.merge_succ {b : BuildState} {x y : PqEntry} {rest : List PqEntry}
    (hq : b.queue = x :: y :: rest) (n : Nat) : b.merge (n + 1) = (b.mergeRound x y rest).merge n := by
  obtain ⟨node, queue, next⟩ := b
  subst hq
  rfl

theorem BuildState.merge_of_length_le_one {b : BuildState} (hq : b.queue.length ≤ 1) (n : Nat) :
    b.merge n = b := by
  unfold BuildState.merge
  split
  · next h => rw [h] at hq; simp at hq
  · rfl

/-- Two members, or the loop is over. -/
theorem BuildState.queue_cases (b : BuildState) :
    b.queue.length ≤ 1 ∨ ∃ x y rest, b.queue = x :: y :: rest := by
  match b.queue with
  | [] => exact .inl (by simp)
  | [x] => exact .inl (by simp)
  | x :: y :: rest => exact .inr ⟨x, y, rest, rfl⟩

/-- What every round keeps, the merge loop keeps. -/
theorem BuildState.merge_induction {P : BuildState → Prop}
    (round : ∀ (b : BuildState) x y rest, b.queue = x :: y :: rest → P b → P (b.mergeRound x y rest))
    (n : Nat) {b : BuildState} (h : P b) : P (b.merge n) := by
  induction n generalizing b with
  | zero => exact h
  | succ n ih =>
    rcases b.queue_cases with hq | ⟨x, y, rest, hq⟩
    · rwa [BuildState.merge_of_length_le_one hq]
    · rw [BuildState.merge_succ hq]
      exact ih (round b x y rest hq h)

theorem BuildState.length_queue_mergeRound (b : BuildState) (x y : PqEntry) (rest : List PqEntry) :
    (b.mergeRound x y rest).queue.length = rest.length + 1 :=
  length_pqInsert ..

/-- As many rounds as members leave at most one (R205). -/
theorem BuildState.length_queue_merge_le_one (n : Nat) {b : BuildState} (h : b.queue.length ≤ n + 1) :
    (b.merge n).queue.length ≤ 1 := by
  induction n generalizing b with
  | zero => exact h
  | succ n ih =>
    rcases b.queue_cases with hq | ⟨x, y, rest, hq⟩
    · rwa [BuildState.merge_of_length_le_one hq]
    · rw [BuildState.merge_succ hq]
      rw [hq] at h
      simp only [List.length_cons] at h
      exact ih (by rw [BuildState.length_queue_mergeRound]; omega)

/-- The merge loop writes no node that was there before it. -/
theorem BuildState.nodeAt_merge (n : Nat) (b : BuildState) {h : Nat} (hh : h < b.next) :
    (b.merge n).nodeAt h = b.nodeAt h := by
  have := BuildState.merge_induction (P := fun c => b.next ≤ c.next ∧ c.nodeAt h = b.nodeAt h)
    (fun c x y rest _ hc => ⟨Nat.le_succ_of_le hc.1,
      (BuildState.nodeAt_add_of_lt _ _ (lt_of_lt_of_le hh hc.1)).trans hc.2⟩) n ⟨le_refl b.next, rfl⟩
  exact this.2

end Sys2Proof.Machine
end

section
/-! SUPPORT. One round of the merge loop keeps the forest (spec/42_build.md R205, R208). -/

namespace Sys2Proof.Machine

section

variable {k : Nat} {b : BuildState} {x y : PqEntry} {rest : List PqEntry}

theorem BuildState.weight_of_queue (hq : b.queue = x :: y :: rest) :
    b.weight = x.freq.toNat + (y.freq.toNat + (rest.map (fun e => e.freq.toNat)).sum) := by
  simp only [BuildState.weight, hq, List.map_cons, List.sum_cons]

/-- No frequency sum overflows 24 bits (R208; spec/40_common.md R177). -/
theorem BuildState.Forest.freq_sum (hF : b.Forest k) (hk : k ≤ 256) (hq : b.queue = x :: y :: rest) :
    (x.freq + y.freq).toNat = x.freq.toNat + y.freq.toNat := by
  have := hF.weight_le
  rw [BuildState.weight_of_queue hq] at this
  exact BitVec.toNat_add_of_lt (by omega)

/-- A merge round leaves the queue's weight as it is (R208). -/
theorem BuildState.Forest.weight_mergeRound (hF : b.Forest k) (hk : k ≤ 256)
    (hq : b.queue = x :: y :: rest) : (b.mergeRound x y rest).weight = b.weight := by
  rw [BuildState.mergeRound, BuildState.weight_add, BuildState.weight_of_queue hq]
  simp only [internalNode, hF.freq_sum hk hq, BuildState.weight]
  omega

/-- There is room for one more node while two are queued (R205). -/
theorem BuildState.Forest.next_lt (hF : b.Forest k) (hk : k ≤ 256) (hq : b.queue = x :: y :: rest) :
    b.next < 511 := by
  have := hF.count
  rw [hq] at this
  simp only [List.length_cons] at this
  omega

/-- The queue loses the two it pops, and only those. -/
theorem BuildState.Forest.mem_rest_iff (hF : b.Forest k) (hq : b.queue = x :: y :: rest) (c : Nat) :
    (∃ e ∈ rest, e.handle.toNat = c) ↔ b.Queued c ∧ c ≠ x.handle.toNat ∧ c ≠ y.handle.toNat := by
  have hnd := hF.queue_nodup
  rw [hq, List.map_cons, List.map_cons, List.nodup_cons, List.nodup_cons] at hnd
  obtain ⟨hx, hy, -⟩ := hnd
  simp only [BuildState.Queued, hq]
  constructor
  · rintro ⟨e, he, rfl⟩
    have hm : e.handle ∈ rest.map PqEntry.handle := List.mem_map_of_mem he
    refine ⟨⟨e, by simp [he], rfl⟩, fun h => hx ?_, fun h => hy ?_⟩
    · rw [← BitVec.eq_of_toNat_eq h]; exact List.mem_cons_of_mem _ hm
    · rw [← BitVec.eq_of_toNat_eq h]; exact hm
  · rintro ⟨⟨e, he, rfl⟩, h1, h2⟩
    rcases List.mem_cons.1 he with rfl | he
    · exact absurd rfl h1
    · rcases List.mem_cons.1 he with rfl | he
      · exact absurd rfl h2
      · exact ⟨e, he, rfl⟩

theorem BuildState.isChild_mergeRound_next (c : Nat) :
    (b.mergeRound x y rest).IsChild b.next c ↔ x.handle.toNat = c ∨ y.handle.toNat = c := by
  have e : (b.mergeRound x y rest).nodeAt b.next = internalNode (x.freq + y.freq) x.handle y.handle :=
    BuildState.nodeAt_add_next ..
  simp [BuildState.IsChild, e, internalNode]

/-- The parents after a round: those before it, and the new node's two children have it. -/
theorem BuildState.isChild_mergeRound {p : Nat} (hp : p < b.next + 1) (c : Nat) :
    (b.mergeRound x y rest).IsChild p c ↔
      (p < b.next ∧ b.IsChild p c) ∨ (p = b.next ∧ (x.handle.toNat = c ∨ y.handle.toNat = c)) := by
  rcases Nat.lt_succ_iff_lt_or_eq.1 hp with h | rfl
  · have := BuildState.isChild_add_of_lt { b with queue := rest }
      (internalNode (x.freq + y.freq) x.handle y.handle) h c
    simp only [h, h.ne, true_and, false_and, or_false]
    exact this
  · simp [BuildState.isChild_mergeRound_next]

theorem BuildState.nodeAt_mergeRound_of_lt {h : Nat} (hh : h < b.next) :
    (b.mergeRound x y rest).nodeAt h = b.nodeAt h :=
  BuildState.nodeAt_add_of_lt _ _ hh

/-- The node a round makes is internal as R52 asks. -/
theorem BuildState.Forest.internalAt_next (hF : b.Forest k) (hk : k ≤ 256)
    (hq : b.queue = x :: y :: rest) : (b.mergeRound x y rest).InternalAt b.next := by
  have hxm : x ∈ b.queue := by simp [hq]
  have hym : y ∈ b.queue := by simp [hq]
  have hx := hF.queued_lt x hxm
  have hy := hF.queued_lt y hym
  have e : (b.mergeRound x y rest).nodeAt b.next = internalNode (x.freq + y.freq) x.handle y.handle :=
    BuildState.nodeAt_add_next ..
  have hne : x.handle ≠ y.handle := fun h => by
    have := hF.queue_nodup
    simp [hq, h] at this
  constructor <;> rw [e]
  case leaf => rfl
  case sym => rfl
  case left_lt => exact hx
  case right_lt => exact hy
  case distinct => exact hne
  case freq =>
    simp only [internalNode, BuildState.nodeAt_mergeRound_of_lt hx, BuildState.nodeAt_mergeRound_of_lt hy,
      hF.queued_freq x hxm, hF.queued_freq y hym]
    exact hF.freq_sum hk hq

/-- After a round the queue holds the new node and loses its two children. -/
theorem BuildState.Forest.queued_mergeRound (hF : b.Forest k) (hk : k ≤ 256)
    (hq : b.queue = x :: y :: rest) (c : Nat) :
    (b.mergeRound x y rest).Queued c ↔
      c = b.next ∨ (b.Queued c ∧ c ≠ x.handle.toNat ∧ c ≠ y.handle.toNat) := by
  have hn : ({ b with queue := rest } : BuildState).next < 512 := Nat.lt_succ_of_lt (hF.next_lt hk hq)
  rw [← hF.mem_rest_iff hq]
  exact BuildState.queued_add hn _ c

/-- After a round the queue still holds exactly the nodes that are no node's child. -/
theorem BuildState.Forest.queued_mergeRound_iff (hF : b.Forest k) (hk : k ≤ 256)
    (hq : b.queue = x :: y :: rest) {c : Nat} (hc : c < b.next + 1) :
    (b.mergeRound x y rest).Queued c ↔
      ∀ p < b.next + 1, ¬ (b.mergeRound x y rest).IsChild p c := by
  have hx := hF.queued_lt x (by simp [hq])
  have hy := hF.queued_lt y (by simp [hq])
  have noChild : (∀ p < b.next + 1, ¬ (b.mergeRound x y rest).IsChild p c) ↔
      (∀ p < b.next, ¬ b.IsChild p c) ∧ c ≠ x.handle.toNat ∧ c ≠ y.handle.toNat := by
    constructor
    · intro h
      have hnew := h b.next (Nat.lt_succ_self _)
      rw [BuildState.isChild_mergeRound_next] at hnew
      refine ⟨fun p hp hpc => ?_, fun e => hnew (.inl e.symm), fun e => hnew (.inr e.symm)⟩
      have hp' := Nat.lt_succ_of_lt hp
      exact h p hp' ((BuildState.isChild_mergeRound hp' c).2 (.inl ⟨hp, hpc⟩))
    · rintro ⟨h, hcx, hcy⟩ p hp hpc
      rcases (BuildState.isChild_mergeRound hp c).1 hpc with ⟨hp', hpc⟩ | ⟨-, hpc | hpc⟩
      · exact h p hp' hpc
      · exact hcx hpc.symm
      · exact hcy hpc.symm
  rw [hF.queued_mergeRound hk hq, noChild]
  rcases Nat.lt_succ_iff_lt_or_eq.1 hc with hlt | rfl
  · rw [hF.queued_iff c hlt]
    simp [hlt.ne]
  · have young : ∀ p < b.next, ¬ b.IsChild p b.next := fun p hp hpc => by
      have := hF.child_lt hp hpc
      omega
    exact ⟨fun _ => ⟨young, by omega, by omega⟩, fun _ => .inl rfl⟩

/-- The two nodes a round pops had no parent, so no node gets a second one. -/
theorem BuildState.Forest.parent_unique_mergeRound (hF : b.Forest k) (hq : b.queue = x :: y :: rest)
    {c p q : Nat} (hp : p < b.next + 1) (hq' : q < b.next + 1)
    (hpc : (b.mergeRound x y rest).IsChild p c) (hqc : (b.mergeRound x y rest).IsChild q c) : p = q := by
  have orphan : x.handle.toNat = c ∨ y.handle.toNat = c → ∀ p < b.next, ¬ b.IsChild p c := by
    rintro (rfl | rfl)
    · exact (hF.queued_iff _ (hF.queued_lt x (by simp [hq]))).1 ⟨x, by simp [hq], rfl⟩
    · exact (hF.queued_iff _ (hF.queued_lt y (by simp [hq]))).1 ⟨y, by simp [hq], rfl⟩
  rcases (BuildState.isChild_mergeRound hp c).1 hpc with ⟨hp, hpc⟩ | ⟨hpn, hpc⟩ <;>
    rcases (BuildState.isChild_mergeRound hq' c).1 hqc with ⟨hq', hqc⟩ | ⟨hqn, hqc⟩
  · exact hF.parent_unique c p hp q hq' hpc hqc
  · exact absurd hpc (orphan hqc p hp)
  · exact absurd hqc (orphan hpc q hq')
  · exact hpn.trans hqn.symm

/-- One round of the merge loop keeps the forest. -/
theorem BuildState.Forest.mergeRound (hF : b.Forest k) (hk : k ≤ 256) (hq : b.queue = x :: y :: rest) :
    (b.mergeRound x y rest).Forest k := by
  have hn : ({ b with queue := rest } : BuildState).next < 512 := Nat.lt_succ_of_lt (hF.next_lt hk hq)
  have hsub : ∀ e ∈ rest, e ∈ b.queue := fun e he => by simp [hq, he]
  have hnext : (b.mergeRound x y rest).next = b.next + 1 := rfl
  constructor
  case leaves_le => exact Nat.le_succ_of_le hF.leaves_le
  case count =>
    have := hF.count
    rw [hq] at this
    simp only [List.length_cons] at this
    rw [hnext, BuildState.length_queue_mergeRound]
    omega
  case leaf =>
    intro h hh
    rw [BuildState.nodeAt_mergeRound_of_lt (lt_of_lt_of_le hh hF.leaves_le)]
    exact hF.leaf h hh
  case internal =>
    intro h h1 h2
    rcases Nat.lt_succ_iff_lt_or_eq.1 h2 with hh | rfl
    · exact (hF.internal h h1 hh).of_agree fun g hg =>
        BuildState.nodeAt_mergeRound_of_lt (lt_of_le_of_lt hg hh)
    · exact hF.internalAt_next hk hq
  case queued_lt =>
    intro e he
    rw [hnext]
    rcases BuildState.mem_queue_add hn _ he with ⟨h, -⟩ | he
    · rw [h]; exact Nat.lt_succ_self _
    · exact Nat.lt_succ_of_lt (hF.queued_lt e (hsub e he))
  case queued_freq =>
    intro e he
    rcases BuildState.mem_queue_add hn _ he with ⟨h, hf⟩ | he
    · rw [h, hf]; exact congrArg Node.freq (BuildState.nodeAt_add_next ..)
    · rw [BuildState.nodeAt_mergeRound_of_lt (hF.queued_lt e (hsub e he)), hF.queued_freq e (hsub e he)]
  case queue_nodup =>
    have hnd := hF.queue_nodup
    rw [hq, List.map_cons, List.map_cons, List.nodup_cons, List.nodup_cons] at hnd
    exact BuildState.nodup_queue_add hn _ hnd.2.2 fun e he => hF.queued_lt e (hsub e he)
  case queued_iff => exact fun c hc => hF.queued_mergeRound_iff hk hq hc
  case parent_unique => exact fun c p hp q hq' hpc hqc => hF.parent_unique_mergeRound hq hp hq' hpc hqc
  case weight_le => rw [hF.weight_mergeRound hk hq]; exact hF.weight_le

end

end Sys2Proof.Machine
end

section
/-! The arena is a tree: R52 at reset, after CLR and after BUILD, and kept by every step. -/

namespace Sys2Proof.Machine

-- What R52 speaks of, and what leaves it alone --------------------------------------------------------

/-- The null tree satisfies R52: with NNODE = 0 the statements are vacuous. -/
theorem treeOk_null {t : State} (hv : t.rootValid = false) (hr : t.rootH = 0#9) (hn : t.nnode = 0#10) :
    t.TreeOk := by
  simp [State.TreeOk, State.ChildrenBelow, State.leafCount, hv, hr, hn]

/-- R52 speaks of ROOT, NNODE and NODE alone. -/
theorem State.TreeOk.of_sameTree {s t : State} (h : s.TreeOk) (hst : SameTree s t) : t.TreeOk := by
  obtain ⟨hv, hr, hn, hnode⟩ := hst
  simpa only [State.TreeOk, State.ChildrenBelow, State.IsChild, State.leafCount, hv, hr, hn, hnode] using h

theorem sameTree_of_node {s t : State} (hv : t.rootValid = s.rootValid) (hr : t.rootH = s.rootH)
    (hn : t.nnode = s.nnode) (hnode : t.node = s.node) : SameTree s t :=
  ⟨hv, hr, hn, fun h => by rw [State.nodeAt, State.nodeAt, hnode]⟩

/-- Every command but BUILD and CLR leaves ROOT, NNODE and NODE alone (R218). -/
theorem exec_sameTree {i : Instr} {s t : State} (h : exec i s = .next t) (hb : i ≠ .build)
    (hc : i ≠ .clr) : SameTree s t := by
  cases i with
  | build => exact absurd rfl hb
  | clr => exact absurd rfl hc
  | nop => cases h; exact sameTree_of_node rfl rfl rfl rfl
  | cnt => cases h; exact sameTree_of_node rfl rfl rfl rfl
  | gen =>
    rcases execGen_cases s with ⟨-, e⟩ | ⟨-, es, -, e⟩ | ⟨-, -, e⟩ <;> rw [e] at h <;> cases h
    · exact sameTree_of_node rfl rfl rfl rfl
    · exact sameTree_of_node (by simp) (by simp) (by simp) (by simp)
  | pack =>
    rcases execPack_cases s with ⟨ds, -, e⟩ | ⟨f, -, e⟩ <;> rw [e] at h <;> cases h <;>
      exact sameTree_of_node rfl rfl rfl rfl
  | unpack =>
    rcases execUnpack_cases s with ⟨-, e⟩ | ⟨-, out, -, e⟩ | ⟨-, f, -, e⟩ <;> rw [e] at h <;> cases h <;>
      exact sameTree_of_node rfl rfl rfl rfl
  | xor =>
    rcases execXor_cases s with ⟨-, e⟩ | ⟨-, e⟩ <;> rw [e] at h <;> cases h <;>
      exact sameTree_of_node rfl rfl rfl rfl

/-- A performed write leaves ROOT, NNODE and NODE alone, but for a soft reset (R218). -/
theorem writeLocation_sameTree (s : State) (v : Word) (l : Location) :
    SameTree s (s.writeLocation v l) ∨
      (l = .reg .ctrl ∧ v.getLsbD 31 = true ∧ s.writeLocation v l = s.resetNow) := by
  cases l with
  | reg r =>
    cases r with
    | status => rw [State.writeLocation, State.writeStatus_eq]; exact .inl (sameTree_of_node rfl rfl rfl rfl)
    | ctrl =>
      rw [State.writeLocation, State.writeCtrl]
      split
      · next h => exact .inr ⟨rfl, h, rfl⟩
      · exact .inl (sameTree_of_node rfl rfl rfl rfl)
    | _ => exact .inl (sameTree_of_node rfl rfl rfl rfl)
  | _ => exact .inl (sameTree_of_node rfl rfl rfl rfl)

-- BUILD's forest with one root is a tree ---------------------------------------------------------------

theorem BuildState.Forest.leaf_iff {k : Nat} {b : BuildState} (hF : b.Forest k) {h : Nat}
    (hh : h < b.next) : (b.nodeAt h).leaf = true ↔ h < k := by
  constructor
  · intro hl
    by_contra hk
    cases hl.symm.trans (hF.internal h (by omega) hh).leaf
  · intro hk
    exact (hF.leaf h hk).1

/-- A single root is the last node: nothing younger could have it as a child (R209). -/
theorem BuildState.Forest.root_last {k : Nat} {b : BuildState} (hF : b.Forest k) {r : PqEntry}
    (hq : b.queue = [r]) : r.handle.toNat + 1 = b.next := by
  have hr := hF.queued_lt r (by simp [hq])
  have last : b.Queued (b.next - 1) := (hF.queued_iff _ (by omega)).2 fun p hp hc => by
    have := hF.child_lt hp hc
    omega
  obtain ⟨e, he, hlast⟩ := last
  rw [hq, List.mem_singleton] at he
  subst he
  omega

/-- A state that holds a forest of one root, its leaves in the order of their symbols, satisfies R52. -/
theorem BuildState.Forest.treeOk {k : Nat} {b : BuildState} (hF : b.Forest k)
    (hsym : ∀ g h, g < h → h < k → (b.nodeAt g).sym.toNat < (b.nodeAt h).sym.toNat) {r : PqEntry}
    (hq : b.queue = [r]) {t : State} (hnode : t.node = b.node) (hv : t.rootValid = true)
    (hroot : t.rootH = r.handle) (hnn : t.nnode.toNat = b.next) : t.TreeOk := by
  have hcount := hF.count
  rw [hq, List.length_singleton] at hcount
  have hlast := hF.root_last hq
  have hbound := r.handle.isLt
  have nodeAt : ∀ h : Handle, t.nodeAt h = b.nodeAt h.toNat := fun h => by
    rw [State.nodeAt, hnode, BuildState.nodeAt]
  have isChild : ∀ p c : Handle, t.IsChild p c ↔ b.IsChild p.toNat c.toNat := fun p c => by
    simp only [State.IsChild, BuildState.IsChild, nodeAt, BitVec.toNat_inj]
  have leafCount : t.leafCount = k := by rw [State.leafCount, hnn]; omega
  have internal : ∀ h : Handle, h.toNat < b.next → (b.nodeAt h.toNat).leaf = false →
      b.InternalAt h.toNat := fun h hh hl => hF.internal _ (by
    by_contra hlt
    cases hl.symm.trans ((hF.leaf_iff hh).2 (by omega))) hh
  have queued : ∀ c : Handle, b.Queued c.toNat ↔ c = t.rootH := fun c => by
    simp [BuildState.Queued, hq, hroot, BitVec.toNat_inj, eq_comm]
  simp only [State.TreeOk, State.ChildrenBelow, hnn, leafCount, isChild, nodeAt]
  refine ⟨?null, ?root, ?a, ?childrenBelow, ?distinct, ?oneParent, ?rootNoParent, ?d, ?leavesFirst, ?rising⟩
  case null => intro h; cases hv.symm.trans h
  case root =>
    intro _
    rw [hroot]
    exact ⟨by omega, by simp only [Config.nodeMax]; omega, hlast⟩
  case a =>
    exact fun h hh => ⟨fun hl => (hF.leaf _ ((hF.leaf_iff hh).1 hl)).2, fun hl => (internal h hh hl).sym⟩
  case childrenBelow => exact fun h hh hl => ⟨(internal h hh hl).left_lt, (internal h hh hl).right_lt⟩
  case distinct => exact fun h hh hl => (internal h hh hl).distinct
  case oneParent =>
    intro c hc hne
    have hnq : ¬ b.Queued c.toNat := fun h => hne ((queued c).1 h)
    rw [hF.queued_iff _ hc] at hnq
    push Not at hnq
    obtain ⟨p, hp, hpc⟩ := hnq
    have hpn : (BitVec.ofNat 9 p).toNat = p := by rw [BitVec.toNat_ofNat]; omega
    refine ⟨BitVec.ofNat 9 p, ⟨by rwa [hpn], by rwa [hpn]⟩, fun q ⟨hq, hqc⟩ => ?_⟩
    exact BitVec.eq_of_toNat_eq ((hF.parent_unique _ _ hq p hp hqc hpc).trans hpn.symm)
  case rootNoParent =>
    intro p hp
    have hr : t.rootH.toNat < b.next := by rw [hroot]; omega
    exact (hF.queued_iff _ hr).1 ((queued _).2 rfl) _ hp
  case d => exact fun h hh hl => (internal h hh hl).freq
  case leavesFirst => exact fun h hh => hF.leaf_iff hh
  case rising => exact fun g h => hsym _ _

theorem forest_buildTree (freq : Symbol → Count) (node : Memory Node) :
    (buildTree freq node).Forest (leafRecords freq).length := by
  rw [buildTree_eq]
  exact BuildState.merge_induction (fun b x y rest hq hF => hF.mergeRound (length_leafRecords_le freq) hq) _
    (forest_leafPhase freq node)

theorem length_queue_buildTree_le_one (freq : Symbol → Count) (node : Memory Node) :
    (buildTree freq node).queue.length ≤ 1 := by
  rw [buildTree_eq]
  exact BuildState.length_queue_merge_le_one _ (Nat.le_succ _)

/-- The finished arena begins with the leaves, in order (R206). -/
theorem buildTree_nodeAt_leaf (freq : Symbol → Count) (node : Memory Node) {h : Nat}
    (hh : h < (leafRecords freq).length) : (buildTree freq node).nodeAt h = (leafRecords freq)[h] := by
  rw [buildTree_eq, BuildState.nodeAt_merge _ _ (by rwa [leafPhase_next]), leafPhase_nodeAt freq node hh]

theorem treeOk_plant_buildTree (s : State) (freq : Symbol → Count) (node : Memory Node) :
    (s.plant (buildTree freq node)).TreeOk := by
  have hF := forest_buildTree freq node
  have hle := length_queue_buildTree_le_one freq node
  match hq : (buildTree freq node).queue with
  | [] =>
    obtain ⟨hv, hr, hn⟩ := s.plant_null _ hq
    exact treeOk_null hv hr hn
  | [r] =>
    obtain ⟨hv, hr, hn⟩ := s.plant_root _ hq
    refine hF.treeOk (fun g h hgh hh => ?_) hq (s.plant_node _) hv hr ?_
    · rw [buildTree_nodeAt_leaf freq node hh, buildTree_nodeAt_leaf freq node (hgh.trans hh)]
      exact List.pairwise_iff_getElem.1 (leafRecords_rising freq) g h _ hh hgh
    · have := hF.count
      have := length_leafRecords_le freq
      rw [hn, BitVec.toNat_ofNat]
      omega
  | x :: y :: rest => rw [hq] at hle; simp at hle

-- The statements ---------------------------------------------------------------------------------------

/-- Settles O24: reset and CLR leave the null tree, BUILD a forest of at most one root. -/
theorem buildMakesTree : Obligations.BuildMakesTree :=
  ⟨treeOk_null rfl rfl rfl, fun _ => ⟨_, rfl, treeOk_null rfl rfl rfl⟩,
    fun s => ⟨_, rfl, treeOk_plant_buildTree s s.freqAt s.node⟩⟩

theorem stepInvariant_treeOk : StepInvariant State.TreeOk where
  outside _ _ _ _ _ h := h
  exec i _ _ _ h hs := by
    obtain ⟨-, clr, build⟩ := buildMakesTree
    by_cases hb : i = .build
    · subst hb
      obtain ⟨u, hu, ok⟩ := build _
      cases hu.symm.trans hs
      exact ok
    · by_cases hc : i = .clr
      · subst hc
        obtain ⟨u, hu, ok⟩ := clr _
        cases hu.symm.trans hs
        exact ok
      · exact h.of_sameTree (exec_sameTree hs hb hc)
  raise _ _ _ h := h
  reset _ := treeOk_null rfl rfl rfl
  write s v l _ _ _ _ h := by
    rcases writeLocation_sameTree s v l with hst | ⟨-, -, e⟩
    · exact h.of_sameTree hst
    · rw [e]; exact treeOk_null rfl rfl rfl

/-- Settles O14: BUILD, CLR and resets make a tree, and nothing else touches the arena. -/
theorem stepKeepsTreeOk : Obligations.StepKeepsTreeOk :=
  fun _ _ h hs => stepInvariant_treeOk.step h hs

end Sys2Proof.Machine
end

section
/-! The arrays' extent and canonical form, and KLEN: kept by every step; and the reset state, which meets every
invariant. -/

namespace Sys2Proof.Machine

-- CNT, BUILD and GEN -------------------------------------------------------------------------------------

theorem wf_countSymbols (t : List Symbol) :
    (countSymbols t).wf Config.nSym = true ∧ (countSymbols t).fill = .zero := by
  have counted : ∀ m : Memory Count, m.wf Config.nSym = true ∧ m.fill = .zero →
      (t.foldl countSymbol m).wf Config.nSym = true ∧ (t.foldl countSymbol m).fill = .zero := by
    induction t with
    | nil => exact fun _ h => h
    | cons c t ih =>
      exact fun m h => ih _ ⟨Memory.wf_write h.1 c.isLt _, (Memory.write_fill ..).trans h.2⟩
  exact counted _ ⟨Memory.wf_zeros _, rfl⟩

/-- BUILD writes inside the arena: at most 256 leaves and 255 parents (R205). -/
theorem wf_buildTree (freq : Symbol → Count) {node : Memory Node} (h : node.wf Config.nodeMax = true) :
    (buildTree freq node).node.wf Config.nodeMax = true := by
  have hk := length_leafRecords_le freq
  have leaves : (leafPhase freq node).node.wf Config.nodeMax = true := by
    rw [leafPhase_node]
    exact Memory.wf_writeFrom h (by simp only [Config.nodeMax]; omega)
  have := BuildState.merge_induction
    (P := fun b => b.Forest (leafRecords freq).length ∧ b.node.wf Config.nodeMax = true)
    (fun b x y rest hq hb => ⟨hb.1.mergeRound hk hq, Memory.wf_write hb.2 (hb.1.next_lt hk hq) _⟩)
    (leafPhase freq node).queue.length ⟨forest_leafPhase freq node, leaves⟩
  rw [buildTree_eq]
  exact this.2

theorem State.MemoryOk.emptyTable {s : State} (h : s.MemoryOk) : s.emptyTable.MemoryOk := by
  obtain ⟨ht, hp, hk, hf, -, -, hn, ff, -⟩ := h
  exact ⟨ht, hp, hk, hf, Memory.wf_zeros _, Memory.wf_zeros _, hn, ff, rfl⟩

/-- `setcode` writes one element of CLEN and the eight words of one element of CBIT (R230). -/
theorem State.MemoryOk.setCode {s : State} (h : s.MemoryOk) (e : Symbol × Code) :
    (s.setCode e).MemoryOk := by
  obtain ⟨ht, hp, hk, hf, hl, hb, hn, ff, fl⟩ := h
  have words : cbitIndex e.1 0 + ((List.range Config.cbitWords).map (codeWord e.2)).length ≤
      Config.nSym * Config.cbitWords := by
    have := e.1.isLt
    simp only [cbitIndex, Config.cbitWords, Config.nSym, List.length_map, List.length_range]
    omega
  exact ⟨ht, hp, hk, hf, Memory.wf_write hl e.1.isLt _, Memory.wf_writeFrom hb words, hn, ff,
    (Memory.write_fill ..).trans fl⟩

theorem State.MemoryOk.setCodes {s : State} (h : s.MemoryOk) (es : List (Symbol × Code)) :
    (es.foldl State.setCode s).MemoryOk := by
  induction es generalizing s with
  | nil => exact h
  | cons e es ih => exact ih (h.setCode e)

-- PACK, UNPACK and XOR -----------------------------------------------------------------------------------

/-- What PACK stores fits in PAY (R254). -/
theorem length_packBytes_le {code : Symbol → Code} {ts : List Symbol} {ds : List Bool}
    (h : packStream code 0 0 ts = .ok ds) : (packBytes ds).length ≤ Config.payMax := by
  have hds : ds.length ≤ 8 * Config.payMax := by
    rcases packStream_cases code 0 0 ts with ⟨e, -, hf⟩ | ⟨j, e⟩ | ⟨j, e⟩ <;> rw [e] at h <;> cases h
    cases ts with
    | nil => exact Nat.zero_le _
    | cons c ts => simpa only [Nat.zero_add] using hf (List.cons_ne_nil c ts)
  have := padCount_lt ds.length
  have := padCount_mod ds.length
  rw [length_packBytes]
  omega

/-- What UNPACK stores fits in TEXT (R278). -/
theorem length_unpackWalk_le {found : Code → Option Symbol} {bits : List Bool} {out : List Symbol}
    (h : unpackWalk found 0 0 0 [] bits = .ok out) : out.length ≤ Config.textMax := by
  rcases unpackWalk_cases found 0 0 0 [] bits (Nat.zero_le _) with ⟨o, e, hl⟩ | ⟨q, e⟩ | ⟨q, e⟩ <;>
    rw [e] at h <;> cases h
  omega

/-- Writes to PAY or TEXT from element 0 on, inside the array. -/
theorem State.MemoryOk.writePay {s : State} (h : s.MemoryOk) {bs : List Byte}
    (hb : bs.length ≤ Config.payMax) : State.MemoryOk { s with pay := s.pay.writeFrom 0 bs } := by
  obtain ⟨ht, hp, rest⟩ := h
  exact ⟨ht, Memory.wf_writeFrom hp (by omega), rest⟩

theorem State.MemoryOk.writeText {s : State} (h : s.MemoryOk) {out : List Symbol}
    (ho : out.length ≤ Config.textMax) : State.MemoryOk { s with text := s.text.writeFrom 0 out } := by
  obtain ⟨ht, rest⟩ := h
  exact ⟨Memory.wf_writeFrom ht (by omega), rest⟩

-- Every command, every write, every step ------------------------------------------------------------------

theorem exec_memoryOk {i : Instr} {s t : State} (hs : s.MemoryOk) (h : exec i s = .next t) :
    t.MemoryOk := by
  have ⟨ht, hp, hk, hf, hl, hb, hn, ff, fl⟩ := hs
  cases i with
  | nop => cases h; exact hs
  | clr =>
    cases h
    exact ⟨ht, hp, hk, Memory.wf_zeros _, Memory.wf_zeros _, Memory.wf_zeros _, hn, rfl, rfl⟩
  | cnt =>
    cases h
    obtain ⟨hc, fc⟩ := wf_countSymbols s.textSymbols
    exact ⟨ht, hp, hk, hc, hl, hb, hn, fc, fl⟩
  | build =>
    cases h
    simpa [State.MemoryOk, ht, hp, hk, hf, hl, hb, ff, fl] using wf_buildTree s.freqAt hn
  | gen =>
    rcases execGen_cases s with ⟨-, e⟩ | ⟨-, es, -, e⟩ | ⟨-, -, e⟩ <;> rw [e] at h <;> cases h
    · exact hs.emptyTable
    · exact hs.emptyTable.setCodes es
  | pack =>
    rcases execPack_cases s with ⟨ds, hds, e⟩ | ⟨f, -, e⟩ <;> rw [e] at h <;> cases h
    · exact hs.writePay (length_packBytes_le hds)
    · exact ⟨ht, Memory.wf_unspecified _ _, hk, hf, hl, hb, hn, ff, fl⟩
  | unpack =>
    rcases execUnpack_cases s with ⟨-, e⟩ | ⟨-, out, ho, e⟩ | ⟨-, f, -, e⟩ <;> rw [e] at h <;> cases h
    · exact hs
    · exact hs.writeText (length_unpackWalk_le ho)
    · exact ⟨Memory.wf_unspecified _ _, hp, hk, hf, hl, hb, hn, ff, fl⟩
  | xor =>
    rcases execXor_cases s with ⟨-, e⟩ | ⟨-, e⟩ <;> rw [e] at h <;> cases h
    · exact hs
    · have := s.plen.isLt
      exact hs.writePay (by simp only [List.length_map, List.length_range, Config.payMax]; omega)

theorem exec_lengthsOk {i : Instr} {s t : State} (hs : s.LengthsOk) (h : exec i s = .next t) :
    t.LengthsOk := by
  obtain ⟨-, -, -, hklen, -⟩ := exec_ends h
  rw [State.LengthsOk, hklen]
  split
  · exact Nat.zero_le _
  · exact hs

theorem afterReset_memoryOk (d : Nat) : (State.afterReset d).MemoryOk :=
  ⟨Memory.wf_unspecified _ _, Memory.wf_unspecified _ _, Memory.wf_unspecified _ _, Memory.wf_zeros _,
    Memory.wf_zeros _, Memory.wf_unspecified _ _, Memory.wf_unspecified _ _, rfl, rfl⟩

/-- A performed write stores inside its array, because the location exists (R84). -/
theorem writeLocation_memoryOk {s : State} (h : s.MemoryOk) (v : Word) {l : Location}
    (hl : l.wf = true) : (s.writeLocation v l).MemoryOk := by
  have ⟨ht, hp, hk, hf, hc, hb, hn, ff, fc⟩ := h
  cases l with
  | reg r =>
    cases r with
    | status => rw [State.writeLocation, State.writeStatus_eq]; exact h
    | ctrl =>
      rw [State.writeLocation, State.writeCtrl]
      split
      · exact afterReset_memoryOk s.draws
      · exact h
    | _ => exact h
  | freq c =>
    exact ⟨ht, hp, hk, Memory.wf_write hf c.isLt _, hc, hb, hn, (Memory.write_fill ..).trans ff, fc⟩
  | clen c =>
    exact ⟨ht, hp, hk, hf, Memory.wf_write hc c.isLt _, hb, hn, ff, (Memory.write_fill ..).trans fc⟩
  | key i => exact ⟨ht, hp, Memory.wf_write hk i.isLt _, hf, hc, hb, hn, ff, fc⟩
  | node => exact h
  | cbit c k => exact ⟨ht, hp, hk, hf, hc, Memory.wf_write hb (cbitIndex_lt c k.isLt) _, hn, ff, fc⟩
  | text i => exact ⟨Memory.wf_write ht (of_decide_eq_true hl) _, hp, hk, hf, hc, hb, hn, ff, fc⟩
  | pay i => exact ⟨ht, Memory.wf_write hp (of_decide_eq_true hl) _, hk, hf, hc, hb, hn, ff, fc⟩

/-- A performed write to KLEN has passed the value check (R93). -/
theorem writeLocation_lengthsOk {s : State} (h : s.LengthsOk) {v : Word} {l : Location}
    (hv : valueFits l v = true) : (s.writeLocation v l).LengthsOk := by
  cases l with
  | reg r =>
    cases r with
    | klen =>
      have hv : v.toNat ≤ Config.keyMax := of_decide_eq_true hv
      have narrowed : (v.setWidth 9).toNat ≤ v.toNat := by rw [BitVec.toNat_setWidth]; exact Nat.mod_le ..
      exact narrowed.trans hv
    | status => rw [State.writeLocation, State.writeStatus_eq]; exact h
    | ctrl =>
      rw [State.writeLocation, State.writeCtrl]
      split
      · exact Nat.zero_le _
      · exact h
    | _ => exact h
  | _ => exact h

theorem stepInvariant_memoryOk : StepInvariant (fun s => s.MemoryOk ∧ s.LengthsOk) where
  outside _ _ _ _ _ h := h
  exec _ _ _ _ h hs := ⟨exec_memoryOk h.1 hs, exec_lengthsOk h.2 hs⟩
  raise _ _ _ h := h
  reset s := ⟨afterReset_memoryOk s.draws, Nat.zero_le _⟩
  write _ v _ hl _ _ hv h := ⟨writeLocation_memoryOk h.1 v hl, writeLocation_lengthsOk h.2 hv⟩

/-- Settles O13: commands and performed writes store inside the arrays, in canonical form. -/
theorem stepKeepsMemoryCanonical : Obligations.StepKeepsMemoryCanonical :=
  fun _ _ hm hl hs => stepInvariant_memoryOk.step ⟨hm, hl⟩ hs

/-- Settles O11, an invariant at a time. -/
theorem resetSatisfiesInvariants : Obligations.ResetSatisfiesInvariants := by
  have status : State.reset.StatusOk :=
    ⟨by simp [State.reset], by simp [State.reset], fun _ => ⟨rfl, rfl⟩, by simp [State.reset]⟩
  exact ⟨status, Nat.zero_le _, afterReset_memoryOk 0, treeOk_null rfl rfl rfl, inReset_afterReset 0⟩

end Sys2Proof.Machine
end

section
/-! The host port at one location: where its address is, what `RD` and `WR` of it do (spec/20_memory.md R82,
R90 to R95), and what every location reads after a write (R83, R93). -/

namespace Sys2Proof.Machine

-- The address map ------------------------------------------------------------------------------------

/-- A location that exists is found at its own address (R84). -/
theorem locate_addrOf {l : Location} (hl : l.wf = true) : locate (addrOf l) = some l := by
  cases l with
  | reg r => exact locate_addrOf_reg r
  | node h k =>
    have bound : h.toNat < 511 := of_decide_eq_true hl
    have element : (0x00400 + 2 * h.toNat + k.toNat - 0x00400) / 2 = h.toNat := by omega
    have word : (0x00400 + 2 * h.toNat + k.toNat - 0x00400) % 2 = k.toNat := by omega
    simp (disch := omega) only [locate, addrOf, BitVec.toNat_ofNat, Nat.mod_eq_of_lt, if_neg, if_pos,
      element, word, BitVec.ofNat_toNat, BitVec.setWidth_eq]
  | cbit c k =>
    have element : (0x00800 + 8 * c.toNat + k.toNat - 0x00800) / 8 = c.toNat := by omega
    have word : (0x00800 + 8 * c.toNat + k.toNat - 0x00800) % 8 = k.toNat := by omega
    simp (disch := omega) only [locate, addrOf, BitVec.toNat_ofNat, Nat.mod_eq_of_lt, if_neg, if_pos,
      element, word, BitVec.ofNat_toNat, BitVec.setWidth_eq]
  | text i | pay i =>
    have bound : i.toNat < 65535 := of_decide_eq_true hl
    simp (disch := omega) only [locate, addrOf, BitVec.toNat_ofNat, Nat.mod_eq_of_lt, if_neg, if_pos,
      Nat.add_sub_cancel_left, BitVec.ofNat_toNat, BitVec.setWidth_eq]
  | freq | clen | key =>
    simp (disch := omega) only [locate, addrOf, BitVec.toNat_ofNat, Nat.mod_eq_of_lt, if_neg, if_pos,
      Nat.add_sub_cancel_left, BitVec.ofNat_toNat, BitVec.setWidth_eq]

theorem regAt_of_le {n : Nat} (h : 12 ≤ n) : regAt n = none :=
  match n, h with
  | _ + 12, _ => rfl

/-- The ranges the address map leaves out (R84, R95). -/
theorem locate_unmapped {a : Addr}
    (h : (0x0000C ≤ a.toNat ∧ a.toNat ≤ 0x000FF) ∨ (0x007FE ≤ a.toNat ∧ a.toNat ≤ 0x007FF) ∨
      (0x01000 ≤ a.toNat ∧ a.toNat ≤ 0x0FFFF) ∨ a.toNat = 0x1FFFF ∨ 0x2FFFF ≤ a.toNat) :
    locate a = none := by
  rcases h with registers | nodes | gap | text | pay
  · simp (disch := omega) only [locate, if_pos, regAt_of_le registers.1, Option.map_none]
  all_goals simp (disch := omega) only [locate, if_pos, if_neg]

-- The checks -----------------------------------------------------------------------------------------

theorem checkRead_unmapped {s : State} {a : Addr} (h : locate a = none) :
    s.checkRead a = .error .unmapped := by
  rw [State.checkRead, h]

theorem checkWrite_unmapped {s : State} {a : Addr} (h : locate a = none) (v : Word) :
    s.checkWrite a v = .error .unmapped := by
  rw [State.checkWrite, h]

theorem hostAccess_read_of_error {s : State} {a : Addr} {e : Rejection} (hr : s.rstN = true)
    (hc : s.checkRead a = .error e) : s.hostAccess (.read a) = s.rejectRead := by
  simp only [State.hostAccess, State.hostRead, hr, hc, if_true]

theorem hostAccess_write_of_error {s : State} {a : Addr} {v : Word} {e : Rejection} (hr : s.rstN = true)
    (hc : s.checkWrite a v = .error e) :
    s.hostAccess (.write a v) = { s with resp := some .writeError } := by
  simp only [State.hostAccess, State.hostWrite, hr, hc, if_true]

/-- The three checks a write of a location that exists can still fail: phase, direction, value (R90). -/
def State.admitsWrite (s : State) (l : Location) (v : Word) : Prop :=
  s.phaseAllowsWrite l = true ∧ hostWritable l = true ∧ valueFits l v = true

theorem State.phaseAllowsRead_idle {s : State} (h : s.phase = .idle) (l : Location) :
    s.phaseAllowsRead l = true := by
  rw [State.phaseAllowsRead, h]

theorem State.phaseAllowsRead_busy {s : State} (h : s.phase = .busy) (l : Location) :
    s.phaseAllowsRead l = readableWhileBusy l := by
  rw [State.phaseAllowsRead, h]

theorem State.phaseAllowsWrite_busy {s : State} (h : s.phase = .busy) (l : Location) :
    s.phaseAllowsWrite l = writableWhileBusy l := by
  rw [State.phaseAllowsWrite, h]

/-- With no fault pending an IDLE engine forbids no write (R91, R160). -/
theorem State.Ready.phaseAllowsWrite {s : State} (h : s.Ready) (l : Location) :
    s.phaseAllowsWrite l = true := by
  obtain ⟨-, hp, he⟩ := h
  simp [State.phaseAllowsWrite, hp, he]

theorem State.Ready.admitsWrite_iff {s : State} (h : s.Ready) (l : Location) (v : Word) :
    s.admitsWrite l v ↔ hostWritable l = true ∧ valueFits l v = true := by
  simp only [State.admitsWrite, h.phaseAllowsWrite, true_and]

theorem readableWhileBusy_iff (l : Location) :
    readableWhileBusy l = true ↔
      l ∈ [.reg .id, .reg .cmd, .reg .status, .reg .ctrl, .reg .cause, .reg .info] := by
  cases l with
  | reg r => cases r <;> simp [readableWhileBusy]
  | _ => simp [readableWhileBusy]

theorem writableWhileBusy_iff (l : Location) :
    writableWhileBusy l = true ↔ l ∈ [.reg .status, .reg .ctrl] := by
  cases l with
  | reg r => cases r <;> simp [writableWhileBusy]
  | _ => simp [writableWhileBusy]

theorem hostWritable_iff (l : Location) :
    hostWritable l = true ↔
      ¬ (l ∈ [.reg .id, .reg .cause, .reg .info, .reg .root, .reg .nnode] ∨ ∃ h k, l = .node h k) := by
  cases l with
  | reg r => cases r <;> simp [hostWritable]
  | _ => simp [hostWritable]

-- RD and WR of a location ----------------------------------------------------------------------------

section

variable {s : State} {l : Location} (hr : s.rstN = true) (hl : l.wf = true)

include hr hl

theorem State.rd_of_allowed (hp : s.phaseAllowsRead l = true) :
    s.rd l = { s with resp := some (.value (s.readLocation l)) } :=
  hostAccess_read hr (locate_addrOf hl) hp

theorem State.rd_of_not_allowed (hp : ¬ s.phaseAllowsRead l = true) : s.rd l = s.rejectRead := by
  refine hostAccess_read_of_error (e := .phase) hr ?_
  simp only [State.checkRead, locate_addrOf hl, if_neg hp]

theorem State.see_of_allowed (hp : s.phaseAllowsRead l = true) : s.see l = s.readLocation l := by
  rw [State.see, State.rd_of_allowed hr hl hp]
  rfl

theorem State.wr_of_admits {v : Word} (h : s.admitsWrite l v) :
    s.wr l v = { s.writeLocation v l with resp := some .written } := by
  obtain ⟨hp, hw, hv⟩ := h
  exact hostAccess_write hr (locate_addrOf hl) hp hw hv

theorem State.wr_of_not_admits {v : Word} (h : ¬ s.admitsWrite l v) :
    s.wr l v = { s with resp := some .writeError } := by
  cases hc : s.checkWrite (addrOf l) v with
  | error e => exact hostAccess_write_of_error hr hc
  | ok m =>
    obtain ⟨hm, passed⟩ := checkWrite_ok hc
    cases (locate_addrOf hl).symm.trans hm
    exact absurd passed h

theorem State.wr_written_iff (v : Word) : (s.wr l v).resp = some .written ↔ s.admitsWrite l v := by
  by_cases h : s.admitsWrite l v
  · simp [State.wr_of_admits hr hl h, h]
  · simp [State.wr_of_not_admits hr hl h, h]

end

theorem State.Ready.wr_written_iff {s : State} (h : s.Ready) {l : Location} (hl : l.wf = true) (v : Word) :
    (s.wr l v).resp = some .written ↔ hostWritable l = true ∧ valueFits l v = true := by
  rw [State.wr_written_iff h.1 hl, h.admitsWrite_iff]

/-- While IDLE every location that exists reads its value (R91, R94). -/
theorem State.see_idle {s : State} (hr : s.rstN = true) (hp : s.phase = .idle) {l : Location}
    (hl : l.wf = true) : s.see l = s.readLocation l :=
  State.see_of_allowed hr hl (State.phaseAllowsRead_idle hp l)

/-- While IDLE a narrow register or element reads its value with upper bits 0 (R83). -/
theorem State.toNat_see_idle {s : State} (hr : s.rstN = true) (hp : s.phase = .idle) {l : Location} {w : Nat}
    {x : BitVec w} (hl : l.wf = true) (hw : w ≤ 32) (value : s.readLocation l = x.setWidth 32) :
    (s.see l).toNat = x.toNat := by
  rw [State.see_idle hr hp hl, value, BitVec.toNat_setWidth_of_le hw]

/-- The control registers read their values in either PHASE (R91). -/
theorem State.see_control {s : State} (hr : s.rstN = true) {l : Location}
    (hl : l ∈ [.reg .id, .reg .cmd, .reg .status, .reg .ctrl, .reg .cause, .reg .info]) :
    s.see l = s.readLocation l := by
  have readable := (readableWhileBusy_iff l).2 hl
  have mapped : l.wf = true := by
    cases l with
    | reg => rfl
    | _ => simp at hl
  refine State.see_of_allowed hr mapped ?_
  cases hp : s.phase with
  | idle => exact State.phaseAllowsRead_idle hp l
  | busy => rw [State.phaseAllowsRead_busy hp, readable]

/-- What a read that passes its checks sees: the value, or no answer during reset (R82, R380). -/
theorem State.see_of_checkRead {s : State} {l : Location} (hc : s.checkRead (addrOf l) = .ok l) :
    s.see l = if s.rstN then s.readLocation l else 0#32 := by
  obtain ⟨hl, hp⟩ := checkRead_ok hc
  cases hr : s.rstN with
  | false => simp [State.see, State.rd, State.hostAccess, hr, answerWord]
  | true => rw [State.see, State.rd, hostAccess_read hr hl hp]; rfl

-- What a location reads after a write ----------------------------------------------------------------

theorem Location.toNat_ne_of_ne {w : Nat} (f : BitVec w → Location) {a b : BitVec w} (h : f a ≠ f b) :
    a.toNat ≠ b.toNat :=
  mt (fun e => congrArg f (BitVec.eq_of_toNat_eq e)) h

/-- The words of CBIT lie apart: eight in a row for each symbol (R84). -/
theorem cbitIndex_inj {c d : Symbol} {j k : BitVec 3}
    (h : cbitIndex c j.toNat = cbitIndex d k.toNat) : c = d ∧ j = k := by
  simp only [cbitIndex, Config.cbitWords] at h
  exact ⟨BitVec.eq_of_toNat_eq (by omega), BitVec.eq_of_toNat_eq (by omega)⟩

/-- Nothing is lost of data that fits (R83, R93). -/
theorem setWidth_setWidth_of_lt {v : Word} {w : Nat} (h : v.toNat < 2 ^ w) :
    (v.setWidth w).setWidth 32 = v := by
  apply BitVec.eq_of_toNat_eq
  rw [BitVec.toNat_setWidth, BitVec.toNat_setWidth, Nat.mod_eq_of_lt h, Nat.mod_eq_of_lt v.isLt]

section

variable (s : State) {l : Location} {v : Word}

theorem writeLocation_rstN (l : Location) (v : Word) : (s.writeLocation v l).rstN = s.rstN := by
  cases l with
  | reg r =>
    cases r with
    | status => rw [State.writeLocation, State.writeStatus_eq]
    | ctrl => rw [State.writeLocation, State.writeCtrl]; split <;> rfl
    | _ => rfl
  | _ => rfl

/-- An ordinary location reads back what was written to it (R93). -/
theorem readLocation_writeLocation_same (hl : l ∉ [.reg .cmd, .reg .status, .reg .ctrl])
    (hw : hostWritable l = true) (hv : valueFits l v = true) :
    (s.writeLocation v l).readLocation l = v := by
  cases l with
  | reg r =>
    cases r with
    | tlen | plen => exact setWidth_setWidth_of_lt (of_decide_eq_true hv)
    | klen =>
      have bound : v.toNat ≤ 256 := of_decide_eq_true hv
      exact setWidth_setWidth_of_lt (w := 9) (bound.trans_lt (by decide))
    | pad => rfl
    | cmd | status | ctrl => simp at hl
    | id | cause | info | root | nnode => cases hw
  | freq | clen | key | text | pay =>
    exact (congrArg _ (Memory.read_write_same ..)).trans (setWidth_setWidth_of_lt (of_decide_eq_true hv))
  | cbit => exact Memory.read_write_same ..
  | node => cases hw

/-- A write of an ordinary location leaves what every other location reads (R105). -/
theorem readLocation_writeLocation_other (hl : l ∉ [.reg .cmd, .reg .status, .reg .ctrl])
    {m : Location} (hne : m ≠ l) : (s.writeLocation v l).readLocation m = s.readLocation m := by
  cases l with
  | reg r =>
    cases m with
    | reg q =>
      cases r with
      | tlen => cases q with | tlen => exact absurd rfl hne | _ => rfl
      | plen => cases q with | plen => exact absurd rfl hne | _ => rfl
      | pad => cases q with | pad => exact absurd rfl hne | _ => rfl
      | klen => cases q with | klen => exact absurd rfl hne | _ => rfl
      | cmd | status | ctrl => simp at hl
      | id | cause | info | root | nnode => rfl
    | _ =>
      cases r with
      | cmd | status | ctrl => simp at hl
      | _ => rfl
  | node => rfl
  | freq c =>
    cases m with
    | freq d =>
      have apart := Location.toNat_ne_of_ne .freq hne
      exact congrArg (BitVec.setWidth 32) (Memory.read_write_other noFree s.freq apart _)
    | _ => rfl
  | clen c =>
    cases m with
    | clen d =>
      have apart := Location.toNat_ne_of_ne .clen hne
      exact congrArg (BitVec.setWidth 32) (Memory.read_write_other noFree s.clen apart _)
    | _ => rfl
  | key i =>
    cases m with
    | key j =>
      have apart := Location.toNat_ne_of_ne .key hne
      exact congrArg (BitVec.setWidth 32) (Memory.read_write_other Config.freeKey s.key apart _)
    | _ => rfl
  | text i =>
    cases m with
    | text j =>
      have apart := Location.toNat_ne_of_ne .text hne
      exact congrArg (BitVec.setWidth 32) (Memory.read_write_other Config.freeText s.text apart _)
    | _ => rfl
  | pay i =>
    cases m with
    | pay j =>
      have apart := Location.toNat_ne_of_ne .pay hne
      exact congrArg (BitVec.setWidth 32) (Memory.read_write_other Config.freePay s.pay apart _)
    | _ => rfl
  | cbit c k =>
    cases m with
    | cbit d j =>
      refine Memory.read_write_other _ _ (fun e => hne ?_) _
      obtain ⟨rfl, rfl⟩ := cbitIndex_inj e
      rfl
    | _ => rfl

end

/-- After a performed write of an ordinary location every location reads what the written state holds. -/
theorem State.see_wr_ordinary {s : State} {l : Location} {v : Word} (h : s.Ready) (hl : l.wf = true)
    (ho : l ∉ [.reg .cmd, .reg .status, .reg .ctrl]) (ha : s.admitsWrite l v) {m : Location}
    (hm : m.wf = true) : (s.wr l v).see m = (s.writeLocation v l).readLocation m := by
  obtain ⟨hr, hp, -⟩ := h
  rw [State.wr_of_admits hr hl ha]
  refine State.see_idle ((writeLocation_rstN s l v).trans hr) ?_ hm
  rcases writeLocation_phase s v l with same | rfl | ⟨rfl, -⟩
  · exact same.trans hp
  · simp at ho
  · simp at ho

/-- The fields of ROOT as the port reads it (R40). -/
theorem State.rootWord_fields (s : State) :
    s.rootWord.getLsbD 31 = s.rootValid ∧ s.rootWord.extractLsb' 9 22 = 0#22 ∧
      s.rootWord.extractLsb' 0 9 = s.rootH := by
  unfold State.rootWord
  change BitVec.getLsbD (w := 1 + (22 + 9)) _ 31 = _ ∧ BitVec.extractLsb' (n := 1 + (22 + 9)) 9 22 _ = _ ∧
    BitVec.extractLsb' (n := 1 + (22 + 9)) 0 9 _ = _
  refine ⟨?_, ?_, ?_⟩
  · rw [BitVec.getLsbD_append]; simp
  · rw [BitVec.extractLsb'_append_eq_of_add_le (by decide), BitVec.extractLsb'_append_eq_left]
  · rw [BitVec.extractLsb'_append_eq_of_add_le (by decide), BitVec.extractLsb'_append_eq_right]

/-- STATUS right after acceptance with no fault pending: BUSY, and EMPTY as before (R92, R161). -/
theorem statusWord_accept {s : State} (he : s.err = false) (w : Word) :
    (s.accept w).statusWord = if s.empty then 9#32 else 1#32 := by
  have fields : (s.accept w).statusWord =
      0#28 ++ (BitVec.ofBool s.empty ++ (BitVec.ofBool s.err ++
        (BitVec.ofBool false ++ BitVec.ofBool true))) := rfl
  rw [fields, he]
  cases s.empty <;> rfl

-- The statements -------------------------------------------------------------------------------------

/-- Settles O3, one direction for each lemma about the address map. -/
theorem addressMapRoundTrip : Obligations.AddressMapRoundTrip :=
  ⟨fun _ h => locate_addrOf h, fun _ _ h => locate_sound h⟩

/-- Settles O43, from the port's answer to an access that fails a check. -/
theorem rejectedAccessChangesNothing : Obligations.RejectedAccessChangesNothing :=
  fun _ hr =>
    ⟨fun _ _ _ hc => hostAccess_write_of_error hr hc, fun _ _ hc => hostAccess_read_of_error hr hc⟩

/-- Settles O44: the first check fails, whatever the PHASE. -/
theorem unmappedAccessRejected : Obligations.UnmappedAccessRejected := by
  intro s a hr h
  have unmapped := locate_unmapped h
  exact ⟨hostAccess_read_of_error hr (checkRead_unmapped unmapped),
    fun v => hostAccess_write_of_error hr (checkWrite_unmapped unmapped v)⟩

/-- Settles O45: while BUSY the phase check decides; what it lets through passes the other checks. -/
theorem busyAdmitsControlOnly : Obligations.BusyAdmitsControlOnly := by
  intro s hr hb l hl
  rw [← readableWhileBusy_iff, ← State.phaseAllowsRead_busy hb]
  refine ⟨State.rd_of_allowed hr hl, State.rd_of_not_allowed hr hl, fun v h => ?_, fun v h => ?_⟩
  · have phase : s.phaseAllowsWrite l = true := by
      rw [State.phaseAllowsWrite_busy hb, (writableWhileBusy_iff l).2 h]
    refine (State.wr_written_iff hr hl v).2 ⟨phase, ?_⟩
    simp only [List.mem_cons, List.not_mem_nil, or_false] at h
    rcases h with rfl | rfl <;> exact ⟨rfl, rfl⟩
  · refine State.wr_of_not_admits hr hl fun ⟨hp, _⟩ => h ?_
    rwa [State.phaseAllowsWrite_busy hb, writableWhileBusy_iff] at hp

/-- Settles O46: the direction check of a ready port, then the value of each location read while IDLE. -/
theorem readOnlyLocations : Obligations.ReadOnlyLocations := by
  refine ⟨fun s h l v hl => ⟨fun readOnly => ?_, fun writable fits => ?_⟩, fun s hr hp => ?_⟩
  · refine State.wr_of_not_admits h.1 hl fun ⟨_, hw, _⟩ => ?_
    exact (hostWritable_iff l).1 hw readOnly
  · exact (h.wr_written_iff hl v).2 ⟨(hostWritable_iff l).2 writable, fits⟩
  · have value : ∀ l : Location, l.wf = true → s.see l = s.readLocation l := fun _ => State.see_idle hr hp
    have narrow : ∀ {l : Location} {w : Nat} {x : BitVec w}, l.wf = true → w ≤ 32 →
        s.readLocation l = x.setWidth 32 → (s.see l).toNat = x.toNat := State.toNat_see_idle hr hp
    obtain ⟨valid, zeros, handle⟩ := s.rootWord_fields
    have root : s.see (.reg .root) = s.rootWord := value _ rfl
    rw [root]
    refine ⟨fun l hl => ?readable, value _ rfl, value _ rfl, narrow rfl (by decide) rfl, value _ rfl,
      valid, zeros, handle, narrow rfl (by decide) rfl, narrow rfl (by decide) rfl,
      narrow rfl (by decide) rfl, value _ rfl, narrow rfl (by decide) rfl,
      fun c => narrow rfl (by decide) rfl, fun c => narrow rfl (by decide) rfl, fun c k => value _ rfl,
      fun i => narrow rfl (by decide) rfl, fun i hi => narrow (decide_eq_true hi) (by decide) rfl,
      fun i hi => narrow (decide_eq_true hi) (by decide) rfl⟩
    case readable => rw [value l hl, State.rd_of_allowed hr hl (State.phaseAllowsRead_idle hp l)]

/-- Settles O47: a ready port performs exactly the writes that pass the direction and the value check. -/
theorem writeValueCheck : Obligations.WriteValueCheck := by
  intro s v h
  have performed : ∀ {l : Location} {P : Prop}, l.wf = true → hostWritable l = true →
      (valueFits l v = true ↔ P) → ((s.wr l v).resp = some .written ↔ P) := fun hl hw hP => by
    rw [h.wr_written_iff hl, hP, hw, eq_self_iff_true, true_and]
  refine ⟨fun l hl => ?_, fun l wf hl => ?_, performed rfl rfl decide_eq_true_iff, fun l hl => ?_⟩
  · rcases hl with rfl | rfl | ⟨c, rfl⟩ <;> exact performed rfl rfl decide_eq_true_iff
  · rcases hl with ⟨c, rfl⟩ | ⟨i, rfl⟩ | ⟨i, rfl⟩ | ⟨i, rfl⟩ <;> exact performed wf rfl decide_eq_true_iff
  · simp only [List.mem_cons, List.not_mem_nil, or_false] at hl
    rcases hl with (rfl | rfl | rfl | rfl) | ⟨c, k, rfl⟩ <;> exact (h.wr_written_iff rfl v).2 ⟨rfl, rfl⟩

/-- Settles O48, from what each location reads after a write of the same and of another location. -/
theorem writeReadsBackExactly : Obligations.WriteReadsBackExactly := by
  intro s l v h hl ordinary written
  have admitted := (State.wr_written_iff h.1 hl v).1 written
  have ⟨_, hw, hv⟩ := admitted
  refine ⟨?_, fun m hm hne => ?_⟩
  · rw [State.see_wr_ordinary h hl ordinary admitted hl, readLocation_writeLocation_same s ordinary hw hv]
  · rw [State.see_wr_ordinary h hl ordinary admitted hm, readLocation_writeLocation_other s ordinary hne,
      State.see_idle h.1 h.2.1 hm]

/-- Settles O49, by the three answers a read can get. -/
theorem readHasNoSideEffect : Obligations.ReadHasNoSideEffect := by
  intro s a
  have answered : ∃ r d, s.hostAccess (.read a) = { s with resp := r, draws := d } := by
    rcases hostAccess_cases s (.read a) with ⟨-, e⟩ | ⟨-, addr, -, ⟨l, -, e⟩ | ⟨x, -, e⟩⟩ |
      ⟨-, addr, v, hwrite, -⟩
    · exact ⟨_, _, e⟩
    · exact ⟨_, _, e⟩
    · exact ⟨_, _, e⟩
    · cases hwrite
  refine ⟨answered, fun l hc => ?_⟩
  obtain ⟨r, d, e⟩ := answered
  have hc' : State.checkRead { s with resp := r, draws := d } (addrOf l) = .ok l := hc
  rw [e, State.see_of_checkRead hc', State.see_of_checkRead hc]
  rfl

/-- Settles O52: the CMD write is accepted, and the control registers read the accepted state's values. -/
theorem busyRegisterValues : Obligations.BusyRegisterValues := by
  intro s w h ok
  have ⟨hr, _, he⟩ := h
  obtain ⟨-, -, noFault, -⟩ := ok
  obtain ⟨hcause, hinfo⟩ := noFault he
  have accepted : s.wr (.reg .cmd) w = { s.accept w with resp := some .written } :=
    State.wr_of_admits hr rfl ((h.admitsWrite_iff _ w).2 ⟨rfl, rfl⟩)
  have reads : ∀ l ∈ [Location.reg .id, .reg .cmd, .reg .status, .reg .ctrl, .reg .cause, .reg .info],
      (s.wr (.reg .cmd) w).see l = (s.accept w).readLocation l := fun l hl => by
    rw [accepted]
    exact State.see_control (s := { s.accept w with resp := some .written }) hr hl
  refine ⟨?status, ?cause, ?info, reads _ (by simp), reads _ (by simp), ?ctrl⟩
  case status => rw [reads _ (by simp)]; exact statusWord_accept he w
  case cause => rw [reads _ (by simp)]; exact congrArg (BitVec.setWidth 32) hcause
  case info => rw [reads _ (by simp)]; exact hinfo
  case ctrl => rw [reads _ (by simp), State.see_control hr (by simp)]; rfl

end Sys2Proof.Machine
end

section
/-! The command words (spec/30_encoding.md R120, R121), the port words of a node (R135), and the bit stream
PACK stores (R141, R252). -/

namespace Sys2Proof

-- Command words ----------------------------------------------------------------------------------------

/-- A word is its two fields side by side (format C, R120). -/
theorem zeroField_append_opField (w : Word) : (zeroField w ++ opField w : Word) = w := by
  rw [zeroField, opField, BitVec.extractLsb'_append_extractLsb'_eq_extractLsb' (Nat.zero_add 8).symm]
  exact BitVec.extractLsb'_eq_self

theorem zeroField_encode (i : Instr) : zeroField (encode i) = 0#24 :=
  BitVec.extractLsb'_append_eq_left

theorem opField_encode (i : Instr) : opField (encode i) = opOf i :=
  BitVec.extractLsb'_append_eq_right

/-- The word of a command is the one with its OP and ZERO = 0. -/
theorem eq_encode_iff (w : Word) (i : Instr) : w = encode i ↔ zeroField w = 0#24 ∧ opField w = opOf i := by
  constructor
  · rintro rfl
    exact ⟨zeroField_encode i, opField_encode i⟩
  · rintro ⟨hz, ho⟩
    rw [← zeroField_append_opField w, hz, ho, encode]

/-- The two directions of the opcode map agree. -/
theorem decodeOp_eq_some_iff (op : BitVec 8) (i : Instr) : decodeOp op = some i ↔ op = opOf i := by
  constructor
  · intro h
    unfold decodeOp at h
    split at h <;> cases h
    all_goals exact BitVec.eq_of_toNat_eq ‹_›
  · rintro rfl
    cases i <;> rfl

/-- OP names a command exactly below 8. -/
theorem decodeOp_eq_none_iff (op : BitVec 8) : decodeOp op = none ↔ 8 ≤ op.toNat := by
  unfold decodeOp
  split
  case h_9 =>
    simp only [imp_false, true_iff] at *
    omega
  all_goals exact iff_of_false nofun (by omega)

theorem decode_eq_ok_iff_fields (w : Word) (i : Instr) :
    decode w = .ok i ↔ zeroField w = 0#24 ∧ decodeOp (opField w) = some i := by
  unfold decode
  by_cases hz : zeroField w = 0#24
  · cases ho : decodeOp (opField w) <;> simp [hz]
  · simp [hz]

theorem decode_eq_ok_iff (w : Word) (i : Instr) : decode w = .ok i ↔ w = encode i := by
  rw [decode_eq_ok_iff_fields, decodeOp_eq_some_iff, eq_encode_iff]

theorem decode_encode (i : Instr) : decode (encode i) = .ok i :=
  (decode_eq_ok_iff _ i).2 rfl

/-- R121, first sentence: when a word is defined. -/
theorem exists_decode_eq_ok_iff (w : Word) :
    (∃ i, decode w = .ok i) ↔ zeroField w = 0#24 ∧ (opField w).toNat < 8 := by
  simp only [decode_eq_ok_iff_fields, exists_and_left]
  rw [← Option.ne_none_iff_exists', ne_eq, decodeOp_eq_none_iff, not_le]

/-- Settles O1: each word of the table is the word `encode` gives. -/
theorem commandWordsDecode : Obligations.CommandWordsDecode :=
  ⟨decode_encode .nop, decode_encode .clr, decode_encode .cnt, decode_encode .build, decode_encode .gen,
    decode_encode .pack, decode_encode .unpack, decode_encode .xor⟩

/-- Settles O2, field by field: the words are split into ZERO and OP, and OP is looked up. -/
theorem decodeInvertsEncode : Obligations.DecodeInvertsEncode :=
  ⟨decode_eq_ok_iff, exists_decode_eq_ok_iff, rfl, rfl, rfl, rfl, rfl, rfl, rfl, rfl⟩

end Sys2Proof

namespace Sys2Proof.Machine

-- The port words of a node -----------------------------------------------------------------------------

theorem nodeWord_zero_fields (n : Node) :
    (nodeWord n 0#1).extractLsb' 24 8 = n.sym ∧ (nodeWord n 0#1).extractLsb' 0 24 = n.freq :=
  ⟨BitVec.extractLsb'_append_eq_left, BitVec.extractLsb'_append_eq_right⟩

theorem nodeWord_one_leaf (n : Node) : (nodeWord n 1#1).getLsbD 31 = n.leaf := by
  change BitVec.getLsbD (w := 1 + (6 + (9 + (7 + 9)))) (BitVec.ofBool n.leaf ++ _) 31 = _
  rw [BitVec.getLsbD_append]
  simp

/-- The fields below LEAF: each lies in the low part of what stands above it. -/
theorem nodeWord_one_fields (n : Node) :
    (nodeWord n 1#1).extractLsb' 25 6 = 0#6 ∧ (nodeWord n 1#1).extractLsb' 16 9 = n.right ∧
      (nodeWord n 1#1).extractLsb' 9 7 = 0#7 ∧ (nodeWord n 1#1).extractLsb' 0 9 = n.left := by
  have below_leaf : ∀ start len, start + len ≤ 6 + (9 + (7 + 9)) →
      (nodeWord n 1#1).extractLsb' start len =
        (0#6 ++ (n.right ++ (0#7 ++ n.left))).extractLsb' start len :=
    fun _ _ h => BitVec.extractLsb'_append_eq_of_add_le h
  have below_zeros : ∀ start len, start + len ≤ 9 + (7 + 9) →
      (nodeWord n 1#1).extractLsb' start len = (n.right ++ (0#7 ++ n.left)).extractLsb' start len :=
    fun _ _ h => (below_leaf _ _ (by omega)).trans (BitVec.extractLsb'_append_eq_of_add_le h)
  have below_right : ∀ start len, start + len ≤ 7 + 9 →
      (nodeWord n 1#1).extractLsb' start len = (0#7 ++ n.left).extractLsb' start len :=
    fun _ _ h => (below_zeros _ _ (by omega)).trans (BitVec.extractLsb'_append_eq_of_add_le h)
  refine ⟨?_, ?_, ?_, ?_⟩
  · exact (below_leaf _ _ (by decide)).trans BitVec.extractLsb'_append_eq_left
  · exact (below_zeros _ _ (by decide)).trans BitVec.extractLsb'_append_eq_left
  · exact (below_right _ _ (by decide)).trans BitVec.extractLsb'_append_eq_left
  · exact (below_right _ _ (by decide)).trans BitVec.extractLsb'_append_eq_right

/-- Settles O4, from the port's answer to a read while IDLE and the fields of each word. -/
theorem nodeWordLayout : Obligations.NodeWordLayout := by
  refine ⟨fun s h k hr hp hh => ?_, fun n => ?_⟩
  · have mapped : Location.wf (.node h k) = true := decide_eq_true hh
    rw [State.rd_of_allowed hr mapped (State.phaseAllowsRead_idle hp _)]
    rfl
  · obtain ⟨hsym, hfreq⟩ := nodeWord_zero_fields n
    exact ⟨hsym, hfreq, nodeWord_one_leaf n, nodeWord_one_fields n⟩

-- The stored bit stream ----------------------------------------------------------------------------------

/-- PACK on a text whose symbols all have entries and whose digits fit (R250). -/
theorem exec_pack_of_fits {s : State} (entries : ∀ c ∈ s.textSymbols, s.codeOf c ≠ [])
    (fits : (s.streamOf s.textSymbols).length ≤ 8 * Config.payMax) :
    exec .pack s = .next ((s.storePayload (s.streamOf s.textSymbols)).finish s.textEmpty) := by
  have ok : packStream s.codeOf 0 0 s.textSymbols = .ok (s.streamOf s.textSymbols) :=
    packStream_ok entries ((Nat.zero_add _).trans_le fits)
  simp only [exec, execPack, ok]

/-- PLEN counts the digits with their filler in bytes (R252). -/
theorem State.eight_mul_plen_storePayload (s : State) {ds : List Bool} (h : ds.length ≤ 8 * Config.payMax) :
    8 * (s.storePayload ds).plen.toNat = ds.length + (s.storePayload ds).pad.toNat := by
  have := padCount_mod ds.length
  rw [State.plen_storePayload s ds h, State.pad_storePayload, length_packBytes]
  omega

/-- The elements of PAY from PLEN on stay (R255). -/
theorem State.payAt_storePayload_of_le (s : State) {ds : List Bool} (h : ds.length ≤ 8 * Config.payMax)
    {k : Nat} (hk : (s.storePayload ds).plen.toNat ≤ k) : (s.storePayload ds).payAt k = s.payAt k := by
  rw [State.plen_storePayload s ds h] at hk
  rw [State.payAt, State.storePayload_pay, Memory.read_writeFrom_zero, if_neg (Nat.not_lt.2 hk)]
  rfl

/-- Settles O32: PACK stores the whole stream and ends; `storePayload` writes PAY, PLEN and PAD only. -/
theorem packStoresBitStream : Obligations.PackStoresBitStream := by
  intro s entries fits
  refine ⟨_, exec_pack_of_fits entries fits, ⟨rfl, rfl, rfl⟩, State.pad_storePayload s _,
    State.eight_mul_plen_storePayload s fits, fun p hp => ?bits, fun k hk => ?beyond, ?frame⟩
  case bits =>
    exact State.payBit_storePayload s _ (hp.trans_eq (congrArg (8 * ·) (State.plen_storePayload s _ fits)))
  case beyond => exact State.payAt_storePayload_of_le s fits hk
  case frame =>
    exact ⟨⟨rfl, fun _ => rfl⟩, ⟨rfl, fun _ => rfl⟩, fun _ => rfl, ⟨rfl, rfl, rfl, fun _ => rfl⟩,
      ⟨fun _ => rfl, fun _ _ => rfl⟩, ⟨rfl, rfl, rfl⟩, ⟨rfl, rfl, rfl⟩, ⟨rfl, rfl, rfl, rfl⟩⟩

end Sys2Proof.Machine
end

section
/-! The lifecycle of a command (spec/40_common.md R160 to R166), NOP and CLR (R170, R171). -/

namespace Sys2Proof.Machine

-- The engine's turn while BUSY ---------------------------------------------------------------------------

section

variable {s : State} (hr : s.rstN = true) (hp : s.phase = .busy)

include hr hp

theorem engineStep_of_decode_ok {i : Instr} (hd : decode s.cmdLatch = .ok i) :
    engineStep s = exec i s := by
  simp only [engineStep, hr, s.busy_iff.2 hp, Bool.and_self, if_true, hd]

theorem engineStep_of_decode_error {e : DecodeError} (hd : decode s.cmdLatch = .error e) :
    engineStep s = .next (s.raise (.illegalCommand s.cmdLatch)) := by
  simp only [engineStep, hr, s.busy_iff.2 hp, Bool.and_self, if_true, hd]

end

/-- The defined words are the numbers below 8, so no other word decodes (R121, R122). -/
theorem decode_error_of_le {w : Word} (h : 8 ≤ w.toNat) : ∃ e, decode w = .error e := by
  cases hd : decode w with
  | error e => exact ⟨e, rfl⟩
  | ok i =>
    have below : (encode i).toNat < 8 := by cases i <;> decide
    rw [(decode_eq_ok_iff w i).1 hd] at h
    exact absurd below (Nat.not_lt.2 h)

/-- Settles O5: the engine moves when no turn waits and when its own is first. -/
theorem engineStepRunsDecodedCommand : Obligations.EngineStepRunsDecodedCommand := by
  intro s i hr hp hd
  refine ⟨fun ht => ?_, fun rest ht => ?_⟩
  · rw [step, ht]
    exact engineStep_of_decode_ok hr hp hd
  · rw [step, ht]
    exact engineStep_of_decode_ok (s := { s with turns := rest }) hr hp hd

/-- Settles O8: `raise` writes what R164 lists and no more. -/
theorem undefinedWordRaisesIllegalCommand : Obligations.UndefinedWordRaisesIllegalCommand := by
  intro s hr hp hw
  obtain ⟨e, hd⟩ := decode_error_of_le hw
  exact engineStep_of_decode_error hr hp hd

-- Acceptance ---------------------------------------------------------------------------------------------

/-- CMD is writable and takes every word, so the phase check alone decides (R91, R160). -/
theorem State.admitsWrite_cmd_iff (s : State) (w : Word) :
    s.admitsWrite (.reg .cmd) w ↔ s.phase = .idle ∧ s.err = false := by
  cases hp : s.phase <;>
    simp [State.admitsWrite, State.phaseAllowsWrite, hp, writableWhileBusy, hostWritable, valueFits]

/-- Settles O7: the write passes its checks exactly when the command is accepted, and then it is `accept`. -/
theorem cmdWriteAcceptedOrRejected : Obligations.CmdWriteAcceptedOrRejected := by
  intro s w hr
  change s.wr (.reg .cmd) w = _
  have exists_cmd : Location.wf (.reg .cmd) = true := rfl
  by_cases h : s.phase = .idle ∧ s.err = false
  · rw [if_pos h, State.wr_of_admits hr exists_cmd ((s.admitsWrite_cmd_iff w).2 h)]
    rfl
  · rw [if_neg h, State.wr_of_not_admits hr exists_cmd (mt (s.admitsWrite_cmd_iff w).1 h)]

-- Every command ends -------------------------------------------------------------------------------------

theorem State.TreeOk.childrenBelow {s : State} (h : s.TreeOk) : s.ChildrenBelow := by
  obtain ⟨-, -, -, below, -⟩ := h
  exact below

theorem State.TreeOk.rootInside {s : State} (h : s.TreeOk) : s.RootInside := by
  obtain ⟨-, planted, -⟩ := h
  intro hv
  obtain ⟨-, -, last⟩ := planted hv
  omega

/-- NODE_MAX levels are enough for a tree whose children come before their parents (R52 (b); log 9). -/
theorem treeCodes_completes {s : State} (hv : s.rootValid = true) (below : s.ChildrenBelow)
    (inside : s.RootInside) : ∃ es, treeCodes s.nodeAt s.rootH = some es := by
  unfold treeCodes
  split
  · exact ⟨_, rfl⟩
  · have levels : s.rootH.toNat ≤ Config.nodeMax := Nat.le_of_lt_succ s.rootH.isLt
    exact walk_completes below Config.nodeMax s.rootH levels (inside hv) []

/-- The one stop of the model is GEN's, on an arena its walk does not complete (log 9). -/
theorem exec_eq_fault {i : Instr} {s : State} {r : Fault} (h : exec i s = .fault r) :
    i = .gen ∧ s.rootValid = true ∧ treeCodes s.nodeAt s.rootH = none := by
  cases i with
  | gen =>
    rcases execGen_cases s with ⟨-, e⟩ | ⟨-, es, -, e⟩ | ⟨hv, hn, -⟩
    · cases e.symm.trans h
    · cases e.symm.trans h
    · exact ⟨rfl, hv, hn⟩
  | nop | clr | cnt | build => cases h
  | pack => rcases execPack_cases s with ⟨ds, -, e⟩ | ⟨f, -, e⟩ <;> cases e.symm.trans h
  | unpack =>
    rcases execUnpack_cases s with ⟨-, e⟩ | ⟨-, out, -, e⟩ | ⟨-, f, -, e⟩ <;> cases e.symm.trans h
  | xor => rcases execXor_cases s with ⟨-, e⟩ | ⟨-, e⟩ <;> cases e.symm.trans h

/-- On a tree every command answers a next state (R166). -/
theorem exec_answers_next {s : State} (below : s.ChildrenBelow) (inside : s.RootInside) (i : Instr) :
    ∃ t, exec i s = .next t := by
  cases h : exec i s with
  | next t => exact ⟨t, rfl⟩
  | refused r => exact absurd h (exec_not_refused i s r)
  | fault r =>
    obtain ⟨-, hv, stuck⟩ := exec_eq_fault h
    obtain ⟨es, walked⟩ := treeCodes_completes hv below inside
    cases stuck.symm.trans walked

/-- A command that starts with DONE = 0 and ERR = 0 ends with exactly one of them 1 (R163, R164). -/
theorem exec_done_iff {i : Instr} {s t : State} (h : exec i s = .next t) (hd : s.done = false)
    (he : s.err = false) : t.done = true ↔ t.err = false := by
  obtain ⟨⟨done, ⟨err, -, -⟩, -⟩ | ⟨f, err, -, -, done, -⟩, -⟩ := exec_ends h
  · simp [done, err, he]
  · simp [done, err, hd]

/-- Settles O9: the word decodes and its command ends (R163, R164), or it raises IllegalCommand (R165). -/
theorem latchedCommandEnds : Obligations.LatchedCommandEnds := by
  intro s hr hp status tree
  obtain ⟨-, busy_clear, -⟩ := status
  obtain ⟨hd, he⟩ := busy_clear hp
  cases decoded : decode s.cmdLatch with
  | ok i =>
    obtain ⟨t, ht⟩ := exec_answers_next tree.childrenBelow tree.rootInside i
    obtain ⟨-, idle, -⟩ := exec_ends ht
    exact ⟨t, (engineStep_of_decode_ok hr hp decoded).trans ht, idle, exec_done_iff ht hd he⟩
  | error e =>
    exact ⟨_, engineStep_of_decode_error hr hp decoded, rfl, by simp [hd]⟩

-- NOP and CLR --------------------------------------------------------------------------------------------

theorem endedWell_finish (s : State) (e : Bool) : EndedWell (s.finish e) e := ⟨rfl, rfl, rfl⟩

/-- The end of a command touches no operand, CTRL, CMDLATCH, fault register or anything outside HXC (R163). -/
theorem finish_frame (s : State) (e : Bool) :
    SameData s (s.finish e) ∧ SameControl s (s.finish e) ∧ SameFault s (s.finish e) ∧
      SameOutside s (s.finish e) :=
  ⟨⟨⟨rfl, fun _ => rfl⟩, ⟨rfl, rfl, fun _ => rfl⟩, ⟨rfl, fun _ => rfl⟩, fun _ => rfl,
    ⟨rfl, rfl, rfl, fun _ => rfl⟩, fun _ => rfl, fun _ _ => rfl⟩,
    ⟨rfl, rfl, rfl⟩, ⟨rfl, rfl, rfl⟩, rfl, rfl, rfl, rfl⟩

/-- With IE_DONE = 1 a successful end raises irq (R350). -/
theorem irq_finish {s : State} (h : s.ieDone = true) (e : Bool) : (s.finish e).irq = true := by
  simp [State.irq, h]

/-- Settles O16: NOP is `finish` with EMPTY as it was. -/
theorem nopOnlyEnds : Obligations.NopOnlyEnds :=
  fun s => ⟨s.finish s.empty, rfl, endedWell_finish s s.empty, fun h => irq_finish h s.empty,
    finish_frame s s.empty⟩

theorem cleared_frame (s : State) :
    SameControl s s.cleared ∧ SameFault s s.cleared ∧ SameOutside s s.cleared :=
  ⟨⟨rfl, rfl, rfl⟩, ⟨rfl, rfl, rfl⟩, rfl, rfl, rfl, rfl⟩

/-- CLR empties the three tables element by element (R171). -/
theorem cleared_tables (s : State) :
    (∀ c, s.cleared.freqAt c = 0#16) ∧ (∀ c, s.cleared.clenAt c = 0#8) ∧
      ∀ c k, s.cleared.cbitAt c k = 0#32 :=
  ⟨fun _ => Memory.read_zeros _ _, fun _ => Memory.read_zeros _ _, fun _ _ => Memory.read_zeros _ _⟩

/-- Settles O17: CLR is `cleared`, which touches neither TEXT, PAY, KEY nor NODE, and then `finish`. -/
theorem clrDiscardsOperands : Obligations.ClrDiscardsOperands := by
  refine ⟨rfl, fun s => ?_⟩
  obtain ⟨freq, clen, cbit⟩ := cleared_tables s
  exact ⟨s.cleared.finish false, rfl, endedWell_finish s.cleared false, rfl, rfl, rfl, rfl, rfl, rfl, rfl,
    freq, clen, cbit, fun _ => rfl, fun _ => rfl, fun _ => rfl, fun _ => rfl, cleared_frame s⟩

end Sys2Proof.Machine
end

section
/-! CNT (spec/41_cnt.md R190 to R194). -/

namespace Sys2Proof.Machine

/-- One symbol adds 1 to its own entry and 0 to every other (R190). -/
theorem read_countSymbol (m : Memory Count) (c d : Symbol) :
    (countSymbol m d).read noFree c.toNat =
      m.read noFree c.toNat + if d = c then 1#16 else 0#16 := by
  unfold countSymbol
  split
  · next same => subst same; exact Memory.read_write_same ..
  · next other =>
    rw [Memory.read_write_other _ _ fun h => other (BitVec.eq_of_toNat_eq h.symm), BitVec.add_zero]

theorem read_foldl_countSymbol (t : List Symbol) (m : Memory Count) (c : Symbol) :
    (t.foldl countSymbol m).read noFree c.toNat =
      m.read noFree c.toNat + BitVec.ofNat 16 (t.count c) := by
  induction t generalizing m with
  | nil => exact (BitVec.add_zero _).symm
  | cons d t ih =>
    rw [List.foldl_cons, ih, read_countSymbol, BitVec.add_assoc]
    by_cases same : d = c
    · rw [if_pos same, same, List.count_cons_self, BitVec.ofNat_add, BitVec.add_comm 1#16]
    · rw [if_neg same, List.count_cons_of_ne same, BitVec.zero_add]

/-- No entry overflows, because a text that fits in 16 bits of length has no larger count (R177). -/
theorem toNat_read_countSymbols {t : List Symbol} (fits : t.length < 2 ^ 16) (c : Symbol) :
    ((countSymbols t).read noFree c.toNat).toNat = t.count c := by
  have counted : (countSymbols t).read noFree c.toNat = BitVec.ofNat 16 (t.count c) :=
    (read_foldl_countSymbol t Memory.zeros c).trans (BitVec.zero_add _)
  rw [counted, BitVec.toNat_ofNat, Nat.mod_eq_of_lt (List.count_le_length.trans_lt fits)]

/-- What CNT stores before it ends: the new FREQ and nothing besides (R190). -/
def State.counted (s : State) : State := { s with freq := countSymbols s.textSymbols }

theorem exec_cnt (s : State) : exec .cnt s = .next (s.counted.finish s.textEmpty) := rfl

/-- Settles O18: TLEN is a 16-bit register and bounds every count; `counted` writes FREQ only, and `finish`
keeps the frame. -/
theorem cntCountsSymbols : Obligations.CntCountsSymbols := by
  refine ⟨rfl, fun s => ?_⟩
  have fits : s.textSymbols.length < 2 ^ 16 := s.length_textSymbols ▸ s.tlen.isLt
  obtain ⟨⟨text, payload, key, -, tree, table⟩, rest⟩ := finish_frame s.counted s.textEmpty
  exact ⟨_, exec_cnt s, endedWell_finish s.counted s.textEmpty, toNat_read_countSymbols fits,
    text, payload, key, tree, table, rest⟩

end Sys2Proof.Machine
end

section
/-! Who changes the tree: an execution of BUILD or CLR, or a reset (spec/42_build.md R218). -/

namespace Sys2Proof.Machine

/-- A command that changes ROOT, NNODE or NODE is BUILD or CLR, and it ended well (R163, R218). -/
theorem exec_changesTree {i : Instr} {s t : State} (h : exec i s = .next t) (hn : ¬ SameTree s t) :
    t.done = true ∧ (i = .build ∨ i = .clr) := by
  by_cases build : i = .build
  · subst build; cases h; exact ⟨rfl, .inl rfl⟩
  · by_cases clr : i = .clr
    · subst clr; cases h; exact ⟨rfl, .inr rfl⟩
    · exact absurd (exec_sameTree h build clr) hn

/-- The engine's turn changes the tree only by running BUILD or CLR; a raised fault leaves it alone. -/
theorem engineStep_changesTree {s t : State} (h : engineStep s = .next t) (hn : ¬ SameTree s t) :
    s.rstN = true ∧ s.phase = .busy ∧ t.done = true ∧
      (decode s.cmdLatch = .ok .build ∨ decode s.cmdLatch = .ok .clr) := by
  have same : SameTree s s := sameTree_of_node rfl rfl rfl rfl
  rcases engineStep_cases s with ⟨-, e⟩ | ⟨hr, hb, i, hd, e⟩ | ⟨-, -, -, e⟩ <;> rw [e] at h
  · cases h; exact absurd same hn
  · obtain ⟨done, rfl | rfl⟩ := exec_changesTree h hn
    · exact ⟨hr, hb, done, .inl hd⟩
    · exact ⟨hr, hb, done, .inr hd⟩
  · cases h; exact absurd same hn

/-- An access that changes the tree is the CTRL write of a soft reset (spec/70_reset_and_hazards.md R381). -/
theorem hostAccess_changesTree {s : State} {a : Access} (hn : ¬ SameTree s (s.hostAccess a)) :
    s.rstN = true ∧
      ∃ v, a = .write 0x00003#18 v ∧ v.getLsbD 31 = true ∧ (s.hostAccess a).InReset := by
  have same : SameTree s s := sameTree_of_node rfl rfl rfl rfl
  rcases hostAccess_cases s a with ⟨-, e⟩ | ⟨-, addr, -, ⟨l, -, e⟩ | ⟨r, -, e⟩⟩ |
    ⟨hr, addr, v, rfl, ⟨l, hc, e⟩ | ⟨r, -, e⟩⟩ <;> rw [e] at hn ⊢
  case inr.inr.inl =>
    rcases writeLocation_sameTree s v l with unchanged | ⟨rfl, hv, reset⟩
    · exact absurd unchanged hn
    · have addr_eq := (locate_sound (checkWrite_ok hc).1).2
      exact ⟨hr, v, by rw [← addr_eq]; rfl, hv, by rw [reset]; exact inReset_resetNow s _ _⟩
  all_goals exact absurd same hn

/-- Settles O15, one turn at a time: the engine's, a host access, a level on the reset pin. -/
theorem onlyBuildClrAndResetChangeTree : Obligations.OnlyBuildClrAndResetChangeTree := by
  intro s t hs hn
  rcases step_cases s with ⟨ht, e⟩ | ⟨rest, ht, e⟩ | ⟨a, rest, ht, e⟩ | ⟨level, rest, ht, e⟩ <;>
    rw [e] at hs
  · obtain ⟨hr, hb, done, cmd⟩ := engineStep_changesTree hs hn
    exact .inl ⟨hr, hb, .inl ht, done, cmd⟩
  · obtain ⟨hr, hb, done, cmd⟩ := engineStep_changesTree hs hn
    exact .inl ⟨hr, hb, .inr ⟨rest, ht⟩, done, cmd⟩
  · cases hs
    obtain ⟨hr, v, rfl, hv, reset⟩ := hostAccess_changesTree hn
    exact .inr ⟨.inr ⟨hr, v, rest, ht, hv⟩, reset⟩
  · cases hs
    rcases driveReset_cases { s with turns := rest } level with ⟨-, -, e'⟩ | ⟨hl, e'⟩ <;> rw [e'] at hn ⊢
    · exact absurd (sameTree_of_node rfl rfl rfl rfl) hn
    · exact .inr ⟨.inl ⟨level, rest, ht, hl⟩, inReset_resetNow _ _ _⟩

end Sys2Proof.Machine
end

section
/-! SUPPORT. BUILD as a whole (spec/42_build.md R200 to R209): the arena it leaves, its root and count, the sum of its
frequencies, and its frame. -/

namespace Sys2Proof.Machine

-- The state BUILD answers ------------------------------------------------------------------------------

/-- The finished working state of BUILD from `s`. -/
def State.built (s : State) : BuildState := buildTree s.freqAt s.node

/-- The state BUILD ends in. -/
def State.afterBuild (s : State) : State := (s.plant s.built).finish s.freqEmpty

theorem exec_build (s : State) : exec .build s = .next s.afterBuild := rfl

theorem State.nodeAt_afterBuild (s : State) (h : Handle) : s.afterBuild.nodeAt h = s.built.nodeAt h.toNat :=
  congrArg (fun m => m.read Config.freeNode h.toNat) (s.plant_node s.built)

/-- BUILD writes NODE, ROOT, NNODE and STATUS alone (spec/10_state.md R61). -/
theorem afterBuild_frame (s : State) :
    SameText s s.afterBuild ∧ SamePayload s s.afterBuild ∧ SameKey s s.afterBuild ∧
      SameFreq s s.afterBuild ∧ SameTable s s.afterBuild ∧ SameControl s s.afterBuild ∧
      SameFault s s.afterBuild ∧ SameOutside s s.afterBuild := by
  simp [State.afterBuild, SameText, SamePayload, SameKey, SameFreq, SameTable, SameControl, SameFault,
    SameOutside, State.textAt, State.payAt, State.keyAt, State.freqAt, State.clenAt, State.cbitAt]

-- The present symbols ------------------------------------------------------------------------------------

theorem State.mem_presentSymbols {s : State} {c : Symbol} : c ∈ s.presentSymbols ↔ s.freqAt c ≠ 0#16 := by
  simp [State.presentSymbols, mem_allSymbols]

theorem State.presentSymbols_rising (s : State) :
    s.presentSymbols.Pairwise (fun a b => a.toNat < b.toNat) :=
  allSymbols_rising.sublist List.filter_sublist

theorem State.presentSymbols_eq_nil_iff (s : State) : s.presentSymbols = [] ↔ ∀ c, s.freqAt c = 0#16 := by
  simp [State.presentSymbols, mem_allSymbols]

/-- BUILD's EMPTY says that no symbol is present (spec/10_state.md R36). -/
theorem State.freqEmpty_iff (s : State) : s.freqEmpty = true ↔ s.presentSymbols = [] := by
  simp [State.freqEmpty, mem_allSymbols, s.presentSymbols_eq_nil_iff]

theorem State.freqEmpty_eq_false {s : State} (h : s.presentSymbols ≠ []) : s.freqEmpty = false :=
  Bool.eq_false_iff.2 (s.freqEmpty_iff.not.2 h)

theorem State.length_leafRecords (s : State) :
    (leafRecords s.freqAt).length = s.presentSymbols.length :=
  List.length_map _

-- Root and count -----------------------------------------------------------------------------------------

theorem State.forest_built (s : State) : s.built.Forest s.presentSymbols.length :=
  s.length_leafRecords ▸ forest_buildTree s.freqAt s.node

theorem State.length_presentSymbols_le (s : State) : s.presentSymbols.length ≤ 256 :=
  s.length_leafRecords ▸ length_leafRecords_le s.freqAt

/-- An empty queue means an empty forest: the youngest node has no parent, so it would be queued. -/
theorem BuildState.Forest.next_eq_zero {k : Nat} {b : BuildState} (hF : b.Forest k) (hq : b.queue = []) :
    b.next = 0 := by
  by_contra hne
  have youngest : b.Queued (b.next - 1) := (hF.queued_iff _ (by omega)).2 fun p hp hc => by
    have := hF.child_lt hp hc
    omega
  obtain ⟨e, he, -⟩ := youngest
  simp [hq] at he

/-- BUILD ends with no member and no node, when no symbol is present, or with one member, the last of an odd
number of nodes (R205, R207, R209). -/
theorem State.built_cases (s : State) :
    (s.presentSymbols = [] ∧ s.built.queue = [] ∧ s.built.next = 0) ∨
    (s.presentSymbols ≠ [] ∧ ∃ r, s.built.queue = [r] ∧ r.handle.toNat + 1 = s.built.next ∧
      s.built.next = 2 * s.presentSymbols.length - 1) := by
  have hF := s.forest_built
  have hcount := hF.count
  have hle : s.built.queue.length ≤ 1 := length_queue_buildTree_le_one s.freqAt s.node
  match hq : s.built.queue with
  | [] =>
    have hnext := hF.next_eq_zero hq
    have hk := hF.leaves_le
    exact .inl ⟨List.length_eq_zero_iff.1 (by omega), rfl, hnext⟩
  | [r] =>
    rw [hq, List.length_singleton] at hcount
    have hlast := hF.root_last hq
    exact .inr ⟨List.ne_nil_of_length_pos (by omega), r, rfl, hlast, by omega⟩
  | x :: y :: rest => rw [hq] at hle; simp at hle

/-- NNODE counts the nodes made. -/
theorem State.toNat_nnode_afterBuild (s : State) : s.afterBuild.nnode.toNat = s.built.next := by
  rcases s.built_cases with ⟨-, hq, hnext⟩ | ⟨-, r, hq, hlast, -⟩
  · rw [hnext]
    exact congrArg BitVec.toNat (s.plant_null _ hq).2.2
  · have hnn : s.afterBuild.nnode = BitVec.ofNat 10 s.built.next := (s.plant_root _ hq).2.2
    have := r.handle.isLt
    rw [hnn, BitVec.toNat_ofNat]
    omega

/-- With a symbol present ROOT is valid at the last node (R209). -/
theorem State.root_afterBuild {s : State} (h : s.presentSymbols ≠ []) :
    s.afterBuild.rootValid = true ∧ s.afterBuild.rootH.toNat + 1 = s.afterBuild.nnode.toNat ∧
      s.afterBuild.nnode.toNat = 2 * s.presentSymbols.length - 1 := by
  rcases s.built_cases with ⟨hnil, -⟩ | ⟨-, r, hq, hlast, hnext⟩
  · exact absurd hnil h
  · obtain ⟨hv, hr, -⟩ := s.plant_root _ hq
    have root : s.afterBuild.rootH = r.handle := hr
    rw [s.toNat_nnode_afterBuild, root]
    exact ⟨hv, hlast, hnext⟩

-- The nodes ----------------------------------------------------------------------------------------------

/-- Leaf `h` is the leaf of the `h`-th present symbol (R206). -/
theorem State.built_nodeAt_leaf (s : State) {h : Nat} (hh : h < s.presentSymbols.length) :
    s.built.nodeAt h = leafNode s.presentSymbols[h] (zext24 (s.freqAt s.presentSymbols[h])) := by
  rw [State.built, buildTree_nodeAt_leaf s.freqAt s.node (by rwa [s.length_leafRecords])]
  exact List.getElem_map _

/-- The merge loop moves the next free handle up and has written nothing from there on. -/
theorem BuildState.nodeAt_merge_of_le (n : Nat) (b : BuildState) :
    b.next ≤ (b.merge n).next ∧ ∀ h, (b.merge n).next ≤ h → (b.merge n).nodeAt h = b.nodeAt h := by
  refine BuildState.merge_induction
    (P := fun c => b.next ≤ c.next ∧ ∀ h, c.next ≤ h → c.nodeAt h = b.nodeAt h)
    (fun c x y rest _ ⟨hnext, hc⟩ => ⟨Nat.le_succ_of_le hnext, fun h hh => ?_⟩) n
    ⟨le_refl _, fun _ _ => rfl⟩
  have hlt : c.next < h := hh
  have old : (c.mergeRound x y rest).nodeAt h = c.nodeAt h :=
    (BuildState.nodeAt_add ..).trans (if_neg hlt.ne')
  exact old.trans (hc h hlt.le)

/-- BUILD leaves the nodes from NNODE on as they were (R215). -/
theorem State.built_nodeAt_of_le (s : State) {h : Nat} (hh : s.built.next ≤ h) :
    s.built.nodeAt h = s.node.read Config.freeNode h := by
  rw [State.built, buildTree_eq] at hh ⊢
  obtain ⟨hnext, unwritten⟩ := (leafPhase s.freqAt s.node).nodeAt_merge_of_le
    (leafPhase s.freqAt s.node).queue.length
  have beyond : ¬ h < (leafRecords s.freqAt).length := by
    rw [← leafPhase_next s.freqAt s.node]
    omega
  rw [unwritten h hh, BuildState.nodeAt, leafPhase_node, Memory.read_writeFrom_zero, if_neg beyond]

theorem State.nodeAt_afterBuild_of_le (s : State) {h : Handle} (hh : s.afterBuild.nnode.toNat ≤ h.toNat) :
    s.afterBuild.nodeAt h = s.nodeAt h := by
  rw [s.toNat_nnode_afterBuild] at hh
  rw [s.nodeAt_afterBuild, s.built_nodeAt_of_le hh, State.nodeAt]

-- The weight ---------------------------------------------------------------------------------------------

theorem weight_foldl_add (rs : List Node) (b : BuildState) :
    (rs.foldl BuildState.add b).weight = (rs.map (fun r => r.freq.toNat)).sum + b.weight := by
  induction rs generalizing b with
  | nil => simp
  | cons r rs ih =>
    rw [List.foldl_cons, ih, BuildState.weight_add, List.map_cons, List.sum_cons]
    omega

/-- Absent symbols add nothing to the sum of the counts. -/
theorem sum_counts_filter (freq : Symbol → Count) (cs : List Symbol) :
    ((cs.filter (fun c => decide (freq c ≠ 0#16))).map (fun c => (freq c).toNat)).sum =
      (cs.map (fun c => (freq c).toNat)).sum := by
  induction cs with
  | nil => rfl
  | cons c cs ih => by_cases h : freq c = 0#16 <;> simpa [h] using ih

theorem toNat_zext24 (f : Count) : (zext24 f).toNat = f.toNat :=
  BitVec.toNat_setWidth_of_le (by decide)

/-- The leaves weigh as much as all of FREQ. -/
theorem weight_leafPhase (freq : Symbol → Count) (node : Memory Node) :
    (leafPhase freq node).weight = (allSymbols.map (fun c => (freq c).toNat)).sum := by
  rw [leafPhase, weight_foldl_add, leafRecords, List.map_map, ← sum_counts_filter freq allSymbols]
  simp only [Function.comp_def, leafNode, toNat_zext24]
  rfl

/-- Merging keeps the weight (R208). -/
theorem weight_buildTree (freq : Symbol → Count) (node : Memory Node) :
    (buildTree freq node).weight = (allSymbols.map (fun c => (freq c).toNat)).sum := by
  rw [buildTree_eq, ← weight_leafPhase freq node]
  refine (BuildState.merge_induction
    (P := fun b => b.Forest (leafRecords freq).length ∧ b.weight = (leafPhase freq node).weight)
    (fun b x y rest hq ⟨hF, hw⟩ => ⟨hF.mergeRound ?_ hq, (hF.weight_mergeRound ?_ hq).trans hw⟩) _
    ⟨forest_leafPhase freq node, rfl⟩).2 <;> exact length_leafRecords_le freq

/-- The root's frequency is the sum of all entries of FREQ (R209). -/
theorem State.rootFreq_afterBuild {s : State} (h : s.presentSymbols ≠ []) :
    (s.afterBuild.nodeAt s.afterBuild.rootH).freq.toNat =
      (allSymbols.map (fun c => (s.freqAt c).toNat)).sum := by
  rcases s.built_cases with ⟨hnil, -⟩ | ⟨-, r, hq, -, -⟩
  · exact absurd hnil h
  · have root : s.afterBuild.rootH = r.handle := (s.plant_root _ hq).2.1
    have single : s.built.weight = r.freq.toNat := by simp [BuildState.weight, hq]
    rw [root, s.nodeAt_afterBuild, s.forest_built.queued_freq r (by simp [hq]), ← single]
    exact weight_buildTree s.freqAt s.node

end Sys2Proof.Machine
end

section
/-! What BUILD leaves: the null tree, the single leaf, root and frame, the leaves in symbol order, and that the result
depends on FREQ alone (spec/42_build.md R206 to R211, R215). -/

namespace Sys2Proof.Machine

-- The null tree, the root, the single leaf ---------------------------------------------------------------

/-- Settles O19: no symbol is present, so no node is made and nothing is planted. -/
theorem buildNullTree : Obligations.BuildNullTree := by
  intro s absent
  have none_present := s.presentSymbols_eq_nil_iff.2 absent
  rcases s.built_cases with ⟨-, hq, hnext⟩ | ⟨present, -⟩
  · obtain ⟨hv, hr, hn⟩ := s.plant_null _ hq
    have nodes : ∀ h, s.afterBuild.nodeAt h = s.nodeAt h := fun h =>
      s.nodeAt_afterBuild_of_le (by rw [s.toNat_nnode_afterBuild, hnext]; exact Nat.zero_le _)
    exact ⟨s.afterBuild, exec_build s, ⟨rfl, s.freqEmpty_iff.2 none_present, rfl⟩, hv, hr, hn, nodes,
      afterBuild_frame s⟩
  · exact absurd none_present present

/-- Settles O21: one member is left in the queue, it is the last node made, and it carries the queue's weight. -/
theorem buildPlantsRoot : Obligations.BuildPlantsRoot := by
  intro s present
  obtain ⟨hv, hroot, hnn⟩ := State.root_afterBuild present
  exact ⟨s.afterBuild, exec_build s, ⟨rfl, State.freqEmpty_eq_false present, rfl⟩, hv, hnn, hroot,
    State.rootFreq_afterBuild present, fun _ => s.nodeAt_afterBuild_of_le, afterBuild_frame s⟩

/-- One non-zero entry makes one present symbol. -/
theorem State.presentSymbols_eq_singleton {s : State} {c : Symbol} (hc : s.freqAt c ≠ 0#16)
    (only : ∀ d, d ≠ c → s.freqAt d = 0#16) : s.presentSymbols = [c] := by
  have nodup : s.presentSymbols.Nodup := s.presentSymbols_rising.imp fun h e => h.ne (congrArg BitVec.toNat e)
  have all_c : ∀ d ∈ s.presentSymbols, d = c := fun d hd => by
    by_contra hne
    exact State.mem_presentSymbols.1 hd (only d hne)
  have repeated := List.eq_replicate_of_mem all_c
  rw [← List.count_eq_length.2 fun d hd => (all_c d hd).symm,
    List.count_eq_one_of_mem nodup (State.mem_presentSymbols.2 hc)] at repeated
  exact repeated

/-- Settles O20: NNODE = 1, so the root is the only leaf, at handle 0, and every other handle is beyond NNODE. -/
theorem buildSingleLeaf : Obligations.BuildSingleLeaf := by
  intro s c hc only
  have single := State.presentSymbols_eq_singleton hc only
  have present : s.presentSymbols ≠ [] := by simp [single]
  obtain ⟨hv, hroot, hnn⟩ := State.root_afterBuild present
  rw [single, List.length_singleton] at hnn
  have rootH : s.afterBuild.rootH = 0#9 := BitVec.eq_of_toNat_eq (by rw [BitVec.toNat_ofNat]; omega)
  have word : s.afterBuild.rootWord = 0x80000000#32 := by rw [State.rootWord, hv, rootH]; rfl
  have leaf : s.afterBuild.nodeAt 0#9 = leafNode c (zext24 (s.freqAt c)) := by
    rw [s.nodeAt_afterBuild, BitVec.toNat_ofNat, s.built_nodeAt_leaf (by simp [single])]
    simp only [single, List.getElem_singleton]
  refine ⟨s.afterBuild, exec_build s, ⟨rfl, State.freqEmpty_eq_false present, rfl⟩, word,
    BitVec.eq_of_toNat_eq hnn, leaf, fun h hne => s.nodeAt_afterBuild_of_le ?_⟩
  have : h.toNat ≠ 0 := fun e => hne (BitVec.eq_of_toNat_eq e)
  omega

-- The leaves ---------------------------------------------------------------------------------------------

/-- In a rising list the elements smaller than the one at index `i` are the `i` before it. -/
theorem length_filter_lt_getElem {l : List Symbol} (hl : l.Pairwise (fun a b => a.toNat < b.toNat)) {i : Nat}
    (hi : i < l.length) : (l.filter (fun d => decide (d.toNat < l[i].toNat))).length = i := by
  induction l generalizing i with
  | nil => cases hi
  | cons x l ih =>
    obtain ⟨above, hl⟩ := List.pairwise_cons.1 hl
    cases i with
    | zero =>
      refine List.length_eq_zero_iff.2 (List.filter_eq_nil_iff.2 fun d hd => ?_)
      rcases List.mem_cons.1 hd with rfl | hd
      · simp
      · simpa using (above d hd).le
    | succ j =>
      have hj : j < l.length := Nat.lt_of_succ_lt_succ hi
      have less : x.toNat < (x :: l)[j + 1].toNat := above _ (List.getElem_mem hj)
      simp only [List.filter_cons, less, decide_true, ↓reduceIte, List.length_cons]
      exact congrArg (· + 1) (ih hl hj)

theorem State.rankOf_getElem (s : State) {i : Nat} (hi : i < s.presentSymbols.length) :
    s.rankOf s.presentSymbols[i] = i :=
  length_filter_lt_getElem s.presentSymbols_rising hi

/-- Settles O22: the rank of a symbol is its index among the present symbols, and handles past these are internal
nodes. -/
theorem buildLeavesInSymbolOrder : Obligations.BuildLeavesInSymbolOrder := by
  intro s
  have hF := s.forest_built
  have nnode := s.toNat_nnode_afterBuild
  refine ⟨s.afterBuild, exec_build s, fun c hc => ?_, fun h hh hl => ?_⟩
  · obtain ⟨i, hi, rfl⟩ := List.getElem_of_mem (State.mem_presentSymbols.2 hc)
    have handle : (BitVec.ofNat 9 i).toNat = i := by
      have := s.length_presentSymbols_le
      rw [BitVec.toNat_ofNat]
      omega
    rw [s.rankOf_getElem hi, nnode, s.nodeAt_afterBuild, handle]
    exact ⟨hi.trans_le hF.leaves_le, s.built_nodeAt_leaf hi⟩
  · rw [nnode] at hh
    rw [s.nodeAt_afterBuild] at hl
    have hi := (hF.leaf_iff hh).1 hl
    exact ⟨_, State.mem_presentSymbols.1 (List.getElem_mem hi), (s.rankOf_getElem hi).symm⟩

-- FREQ alone ---------------------------------------------------------------------------------------------

/-- Two working states that differ only in nodes BUILD has not made yet. -/
structure BuildState.SameMade (a b : BuildState) : Prop where
  queue : a.queue = b.queue
  next : a.next = b.next
  node : ∀ h < a.next, a.nodeAt h = b.nodeAt h

theorem BuildState.SameMade.add {a b : BuildState} (h : a.SameMade b) (r : Node) : (a.add r).SameMade (b.add r) where
  queue := by rw [BuildState.add_queue, BuildState.add_queue, h.queue, h.next]
  next := congrArg (· + 1) h.next
  node g hg := by
    rw [BuildState.nodeAt_add, BuildState.nodeAt_add, ← h.next]
    split
    · rfl
    · next hne => exact h.node g (lt_of_le_of_ne (Nat.le_of_lt_succ hg) hne)

theorem BuildState.SameMade.foldl_add {a b : BuildState} (h : a.SameMade b) (rs : List Node) :
    (rs.foldl BuildState.add a).SameMade (rs.foldl BuildState.add b) := by
  induction rs generalizing a b with
  | nil => exact h
  | cons r rs ih => exact ih (h.add r)

/-- The merge loop reads no node, so the same queue takes the same rounds. -/
theorem BuildState.SameMade.merge {a b : BuildState} (h : a.SameMade b) (n : Nat) :
    (a.merge n).SameMade (b.merge n) := by
  induction n generalizing a b with
  | zero => exact h
  | succ n ih =>
    rcases a.queue_cases with hq | ⟨x, y, rest, hq⟩
    · rwa [BuildState.merge_of_length_le_one hq, BuildState.merge_of_length_le_one (h.queue ▸ hq)]
    · rw [BuildState.merge_succ hq, BuildState.merge_succ (h.queue ▸ hq)]
      have popped : BuildState.SameMade { a with queue := rest } { b with queue := rest } := ⟨rfl, h.next, h.node⟩
      exact ih (popped.add _)

/-- What BUILD finds in the arena does not enter what it makes. -/
theorem sameMade_buildTree (freq : Symbol → Count) (m n : Memory Node) :
    (buildTree freq m).SameMade (buildTree freq n) := by
  have start : BuildState.SameMade { node := m, queue := [], next := 0 } { node := n, queue := [], next := 0 } :=
    ⟨rfl, rfl, fun _ h => absurd h (Nat.not_lt_zero _)⟩
  have leaves : (leafPhase freq m).SameMade (leafPhase freq n) := start.foldl_add _
  rw [buildTree_eq, buildTree_eq, ← leaves.queue]
  exact leaves.merge _

/-- ROOT and NNODE are read off the queue and the next free handle. -/
theorem plant_root_congr (s t : State) {a b : BuildState} (h : a.SameMade b) :
    (s.plant a).rootValid = (t.plant b).rootValid ∧ (s.plant a).rootH = (t.plant b).rootH ∧
      (s.plant a).nnode = (t.plant b).nnode := by
  unfold State.plant
  rw [h.queue, h.next]
  cases b.queue <;> exact ⟨rfl, rfl, rfl⟩

/-- Settles O25: from equal counts both phases make the same nodes and the same queue. -/
theorem buildDependsOnFreqOnly : Obligations.BuildDependsOnFreqOnly := by
  intro s₁ s₂ counts
  have freq : s₁.freqAt = s₂.freqAt := funext counts
  have made : s₁.built.SameMade s₂.built := by
    rw [State.built, State.built, freq]
    exact sameMade_buildTree _ _ _
  obtain ⟨hv, hr, hn⟩ := plant_root_congr s₁ s₂ made
  have empty : s₁.freqEmpty = s₂.freqEmpty := by rw [State.freqEmpty, State.freqEmpty, freq]
  refine ⟨s₁.afterBuild, s₂.afterBuild, exec_build s₁, exec_build s₂, hv, hr, hn, empty, fun h hh => ?_⟩
  rw [s₁.toNat_nnode_afterBuild] at hh
  rw [s₁.nodeAt_afterBuild, s₂.nodeAt_afterBuild]
  exact made.node _ hh

end Sys2Proof.Machine
end

section
/-! Every internal node joins the two least nodes queued when it is made (spec/42_build.md R204, R208). -/

namespace Sys2Proof.Machine

-- The queue's order --------------------------------------------------------------------------------------

/-- The queue is in rising order of keys and holds only nodes already made (R204). -/
structure BuildState.Ordered (b : BuildState) : Prop where
  rising : b.queue.Pairwise (fun a c => a.less c = true)
  made : ∀ e ∈ b.queue, e.handle.toNat < b.next

/-- A node's handle is new to the queue, so it takes the place its key gives it. -/
theorem BuildState.Ordered.add {b : BuildState} (h : b.Ordered) (hn : b.next < 512) (r : Node) :
    (b.add r).Ordered where
  rising := pqInsert_rising h.rising fun e he heq => by
    have := h.made e he
    rw [heq, BitVec.toNat_ofNat] at this
    omega
  made e he := by
    rw [BuildState.add_next]
    rcases BuildState.mem_queue_add hn r he with ⟨new, -⟩ | old
    · omega
    · exact Nat.lt_succ_of_lt (h.made e old)

theorem BuildState.Ordered.foldl_add {b : BuildState} (h : b.Ordered) {rs : List Node}
    (hn : b.next + rs.length ≤ 512) : (rs.foldl BuildState.add b).Ordered := by
  induction rs generalizing b with
  | nil => exact h
  | cons r rs ih =>
    rw [List.length_cons] at hn
    exact ih (h.add (by omega) r) (by rw [BuildState.add_next]; omega)

theorem ordered_leafPhase (freq : Symbol → Count) (node : Memory Node) : (leafPhase freq node).Ordered := by
  have start : BuildState.Ordered { node := node, queue := [], next := 0 } := ⟨.nil, by simp⟩
  have := length_leafRecords_le freq
  exact start.foldl_add (by rw [Nat.zero_add]; omega)

/-- A round pops the two least and queues their parent in its place. -/
theorem BuildState.Ordered.mergeRound {b : BuildState} (h : b.Ordered) (hn : b.next < 512) {x y : PqEntry}
    {rest : List PqEntry} (hq : b.queue = x :: y :: rest) : (b.mergeRound x y rest).Ordered := by
  have tail : rest.Sublist b.queue := by
    rw [hq]
    exact ((List.Sublist.refl rest).cons y).cons x
  have popped : BuildState.Ordered { b with queue := rest } :=
    ⟨h.rising.sublist tail, fun e he => h.made e (tail.subset he)⟩
  exact popped.add hn _

-- The two least ------------------------------------------------------------------------------------------

/-- key(g) < key(h) in the arena (R204). -/
def BuildState.KeyLess (b : BuildState) (g h : Nat) : Prop :=
  (b.nodeAt g).freq.toNat < (b.nodeAt h).freq.toNat ∨
    ((b.nodeAt g).freq.toNat = (b.nodeAt h).freq.toNat ∧ g < h)

/-- Node `c` is queued when node `h` is made. -/
def BuildState.QueuedAt (b : BuildState) (h c : Nat) : Prop := c < h ∧ ∀ p < h, ¬ b.IsChild p c

/-- The children of node `h` are the least and the second least of the nodes queued when it is made. -/
structure BuildState.JoinsLeast (b : BuildState) (h : Nat) : Prop where
  left : b.QueuedAt h (b.nodeAt h).left.toNat
  right : b.QueuedAt h (b.nodeAt h).right.toNat
  order : b.KeyLess (b.nodeAt h).left.toNat (b.nodeAt h).right.toNat
  least : ∀ c, b.QueuedAt h c → c ≠ (b.nodeAt h).left.toNat → c ≠ (b.nodeAt h).right.toNat →
    b.KeyLess (b.nodeAt h).right.toNat c

section

variable {b b' : BuildState} {n : Nat} (agree : ∀ g < n, b'.nodeAt g = b.nodeAt g)

include agree

theorem BuildState.keyLess_congr {g h : Nat} (hg : g < n) (hh : h < n) : b'.KeyLess g h ↔ b.KeyLess g h := by
  rw [BuildState.KeyLess, BuildState.KeyLess, agree g hg, agree h hh]

theorem BuildState.queuedAt_congr {h : Nat} (hh : h ≤ n) (c : Nat) : b'.QueuedAt h c ↔ b.QueuedAt h c :=
  and_congr_right fun _ => forall₂_congr fun p hp => by
    rw [BuildState.IsChild, BuildState.IsChild, agree p (hp.trans_le hh)]

/-- Only the node itself and older ones enter. -/
theorem BuildState.JoinsLeast.of_agree {h : Nat} (hh : h < n) (j : b.JoinsLeast h) : b'.JoinsLeast h := by
  have queued := fun c => BuildState.queuedAt_congr agree hh.le c
  have hl := j.left.1.trans hh
  have hr := j.right.1.trans hh
  constructor <;> rw [agree h hh]
  · exact (queued _).2 j.left
  · exact (queued _).2 j.right
  · exact (BuildState.keyLess_congr agree hl hr).2 j.order
  · intro c hc hcl hcr
    have hc := (queued c).1 hc
    exact (BuildState.keyLess_congr agree hr (hc.1.trans hh)).2 (j.least c hc hcl hcr)

end

section

variable {k : Nat} {b : BuildState} {x y : PqEntry} {rest : List PqEntry}

/-- The queue's keys are those of the arena. -/
theorem BuildState.Forest.keyLess_of_less (hF : b.Forest k) {e f : PqEntry} (he : e ∈ b.queue) (hf : f ∈ b.queue)
    (h : e.less f = true) : b.KeyLess e.handle.toNat f.handle.toNat := by
  rw [BuildState.KeyLess, hF.queued_freq e he, hF.queued_freq f hf]
  exact (PqEntry.less_iff e f).1 h

/-- The members of the queue are the nodes queued when the next node is made. -/
theorem BuildState.Forest.queuedAt_next_iff (hF : b.Forest k) (c : Nat) : b.QueuedAt b.next c ↔ b.Queued c := by
  constructor
  · rintro ⟨hc, orphan⟩
    exact (hF.queued_iff c hc).2 orphan
  · rintro ⟨e, he, rfl⟩
    have hc := hF.queued_lt e he
    exact ⟨hc, (hF.queued_iff _ hc).1 ⟨e, he, rfl⟩⟩

/-- The head of a rising queue is its least member and the next one its second least (R208). -/
theorem BuildState.Forest.joinsLeast_next (hF : b.Forest k) (hO : b.Ordered) (hq : b.queue = x :: y :: rest) :
    (b.mergeRound x y rest).JoinsLeast b.next := by
  have rising := hO.rising
  rw [hq, List.pairwise_cons, List.pairwise_cons] at rising
  obtain ⟨x_least, y_least, -⟩ := rising
  have hx : x ∈ b.queue := by simp [hq]
  have hy : y ∈ b.queue := by simp [hq]
  have made : (b.mergeRound x y rest).nodeAt b.next = internalNode (x.freq + y.freq) x.handle y.handle :=
    BuildState.nodeAt_add_next ..
  have agree : ∀ g < b.next, (b.mergeRound x y rest).nodeAt g = b.nodeAt g :=
    fun g hg => BuildState.nodeAt_mergeRound_of_lt hg
  have queued : ∀ c, (b.mergeRound x y rest).QueuedAt b.next c ↔ b.Queued c := fun c =>
    (BuildState.queuedAt_congr agree (le_refl _) c).trans (hF.queuedAt_next_iff c)
  have key : ∀ e ∈ b.queue, ∀ f ∈ b.queue, e.less f = true →
      (b.mergeRound x y rest).KeyLess e.handle.toNat f.handle.toNat := fun e he f hf h =>
    (BuildState.keyLess_congr agree (hF.queued_lt e he) (hF.queued_lt f hf)).2 (hF.keyLess_of_less he hf h)
  constructor <;> rw [made]
  · exact (queued _).2 ⟨x, hx, rfl⟩
  · exact (queued _).2 ⟨y, hy, rfl⟩
  · exact key x hx y hy (x_least y (by simp))
  · intro c hc hcx hcy
    obtain ⟨e, he, rfl⟩ := (hF.mem_rest_iff hq c).2 ⟨(queued c).1 hc, hcx, hcy⟩
    exact key y hy e (by simp [hq, he]) (y_least e he)

/-- What the merge loop keeps: a forest, a rising queue, and that every internal node joined the two least. -/
structure BuildState.Merging (k : Nat) (b : BuildState) : Prop where
  forest : b.Forest k
  ordered : b.Ordered
  joins : ∀ h, k ≤ h → h < b.next → b.JoinsLeast h

theorem BuildState.Merging.mergeRound (hM : b.Merging k) (hk : k ≤ 256) (hq : b.queue = x :: y :: rest) :
    (b.mergeRound x y rest).Merging k where
  forest := hM.forest.mergeRound hk hq
  ordered := hM.ordered.mergeRound (Nat.lt_succ_of_lt (hM.forest.next_lt hk hq)) hq
  joins h hkh hh := by
    rcases Nat.lt_succ_iff_lt_or_eq.1 hh with old | rfl
    · exact (hM.joins h hkh old).of_agree (fun g hg => BuildState.nodeAt_mergeRound_of_lt hg) old
    · exact hM.forest.joinsLeast_next hM.ordered hq

end

theorem merging_leafPhase (freq : Symbol → Count) (node : Memory Node) :
    (leafPhase freq node).Merging (leafRecords freq).length where
  forest := forest_leafPhase freq node
  ordered := ordered_leafPhase freq node
  joins _ hk hh := absurd (leafPhase_next freq node ▸ hh) hk.not_gt

theorem merging_buildTree (freq : Symbol → Count) (node : Memory Node) :
    (buildTree freq node).Merging (leafRecords freq).length := by
  rw [buildTree_eq]
  exact BuildState.merge_induction
    (fun b x y rest hq hM => hM.mergeRound (length_leafRecords_le freq) hq) _ (merging_leafPhase freq node)

theorem State.merging_built (s : State) : s.built.Merging s.presentSymbols.length :=
  s.length_leafRecords ▸ merging_buildTree s.freqAt s.node

-- The statement ------------------------------------------------------------------------------------------

section

variable (s : State)

theorem State.keyLess_afterBuild (g h : Handle) :
    s.afterBuild.KeyLess g h ↔ s.built.KeyLess g.toNat h.toNat := by
  simp only [State.KeyLess, BuildState.KeyLess, s.nodeAt_afterBuild]

theorem State.isChild_afterBuild (p c : Handle) :
    s.afterBuild.IsChild p c ↔ s.built.IsChild p.toNat c.toNat := by
  simp only [State.IsChild, BuildState.IsChild, s.nodeAt_afterBuild, BitVec.toNat_inj]

/-- Handles have 9 bits, and so has every handle older than one. -/
theorem State.queuedAt_afterBuild (h c : Handle) :
    s.afterBuild.QueuedAt h c ↔ s.built.QueuedAt h.toNat c.toNat := by
  simp only [State.QueuedAt, BuildState.QueuedAt, s.isChild_afterBuild]
  refine and_congr_right fun _ => ⟨fun orphan p hp => ?_, fun orphan p hp => orphan _ hp⟩
  have handle : (BitVec.ofNat 9 p).toNat = p := by
    have := h.isLt
    rw [BitVec.toNat_ofNat]
    omega
  have := orphan (BitVec.ofNat 9 p)
  rw [handle] at this
  exact this hp

end

/-- Settles O23: the merge loop keeps `Merging`, and an internal node stands after the leaves. -/
theorem buildMergesTwoLeast : Obligations.BuildMergesTwoLeast := by
  intro s
  obtain ⟨forest, -, joins⟩ := s.merging_built
  refine ⟨s.afterBuild, exec_build s, fun h hh hl => ?_⟩
  rw [s.toNat_nnode_afterBuild] at hh
  rw [s.nodeAt_afterBuild] at hl
  have after_leaves : s.presentSymbols.length ≤ h.toNat := by
    by_contra hlt
    cases hl.symm.trans ((forest.leaf_iff hh).2 (by omega))
  have joined := joins h.toNat after_leaves hh
  have sum := (forest.internal h.toNat after_leaves hh).freq
  simp only [s.queuedAt_afterBuild, s.keyLess_afterBuild, s.nodeAt_afterBuild]
  refine ⟨joined.left, joined.right, joined.order, fun c hc hcl hcr => joined.least _ hc ?_ ?_, sum⟩
  · exact fun e => hcl (BitVec.eq_of_toNat_eq e)
  · exact fun e => hcr (BitVec.eq_of_toNat_eq e)

end Sys2Proof.Machine
end

section
/-! SUPPORT. Paths in the arena (spec/43_gen.md R232): where they lead, and on a tree (spec/10_state.md R52) that
there is exactly one from the root to every node, and how long it can be (R237). -/

namespace Sys2Proof.Machine

-- Paths in any arena -----------------------------------------------------------------------------------

/-- The child of an internal node on the side of one digit, 0 the left and 1 the right. -/
def State.child (s : State) (h : Handle) (d : Bool) : Handle :=
  if d then (s.nodeAt h).right else (s.nodeAt h).left

section

variable {s : State} {h x : Handle}

theorem State.isPath_nil : s.IsPath h [] x ↔ x = h := Iff.rfl

theorem State.isPath_cons {d : Bool} {ds : Code} :
    s.IsPath h (d :: ds) x ↔ (s.nodeAt h).leaf = false ∧ s.IsPath (s.child h d) ds x := Iff.rfl

theorem State.isPath_append {ds es : Code} :
    s.IsPath h (ds ++ es) x ↔ ∃ y, s.IsPath h ds y ∧ s.IsPath y es x := by
  induction ds generalizing h with
  | nil => simp [State.isPath_nil]
  | cons d ds ih => simp [State.isPath_cons, ih, and_assoc]

/-- The last digit of a path leads from the parent. -/
theorem State.isPath_concat {ds : Code} {d : Bool} :
    s.IsPath h (ds ++ [d]) x ↔ ∃ p, s.IsPath h ds p ∧ (s.nodeAt p).leaf = false ∧ x = s.child p d := by
  simp only [State.isPath_append, State.isPath_cons, State.isPath_nil]

/-- No path leads on from a leaf. -/
theorem State.isPath_of_leaf {ds : Code} (l : (s.nodeAt h).leaf = true) :
    s.IsPath h ds x ↔ ds = [] ∧ x = h := by
  cases ds with
  | nil => simp [State.isPath_nil]
  | cons d ds => simp [State.isPath_cons, l]

/-- A path from an internal node to a leaf has a digit (R232). -/
theorem State.IsPath.ne_nil {ds : Code} (p : s.IsPath h ds x) (l : (s.nodeAt h).leaf = false)
    (lx : (s.nodeAt x).leaf = true) : ds ≠ [] := by
  rintro rfl
  rw [State.isPath_nil.1 p, l] at lx
  cases lx

/-- The digits determine where the path leads. -/
theorem State.IsPath.end_eq {ds : Code} (p : s.IsPath h ds x) : x = ds.foldl s.child h := by
  induction ds generalizing h with
  | nil => exact p
  | cons d ds ih => exact ih p.2

/-- A path to a leaf is no proper part of another path (R236). -/
theorem State.IsPath.eq_of_prefix {ds es : Code} {y : Handle} (p : s.IsPath h ds x)
    (l : (s.nodeAt x).leaf = true) (q : s.IsPath h es y) (hp : ds <+: es) : ds = es ∧ x = y := by
  obtain ⟨rest, rfl⟩ := hp
  obtain ⟨z, toZ, onward⟩ := State.isPath_append.1 q
  obtain rfl : z = x := toZ.end_eq.trans p.end_eq.symm
  obtain ⟨rfl, rfl⟩ := (State.isPath_of_leaf l).1 onward
  exact ⟨(List.append_nil ds).symm, rfl⟩

theorem State.isChild_iff {p c : Handle} :
    s.IsChild p c ↔ (s.nodeAt p).leaf = false ∧ ∃ d, s.child p d = c := by
  simp [State.IsChild, State.child]

theorem State.ChildrenBelow.child_lt (below : s.ChildrenBelow) (hh : h.toNat < s.nnode.toNat)
    (l : (s.nodeAt h).leaf = false) (d : Bool) : (s.child h d).toNat < h.toNat := by
  obtain ⟨left, right⟩ := below h hh l
  cases d
  · exact left
  · exact right

/-- A path leads downwards, so it stays inside the arena (R52 (b)). -/
theorem State.IsPath.toNat_le {ds : Code} (p : s.IsPath h ds x) (below : s.ChildrenBelow)
    (hh : h.toNat < s.nnode.toNat) : x.toNat ≤ h.toNat := by
  induction ds generalizing h with
  | nil => exact (congrArg BitVec.toNat p).le
  | cons d ds ih =>
    obtain ⟨l, p⟩ := State.isPath_cons.1 p
    have lt := below.child_lt hh l d
    exact (ih p (lt.trans hh)).trans lt.le

end

-- Paths in a tree --------------------------------------------------------------------------------------

section

variable {s : State} (tree : s.TreeOk)

include tree

/-- The two children of an internal node differ (R52 (b)). -/
theorem State.TreeOk.child_inj {h : Handle} (hh : h.toNat < s.nnode.toNat)
    (l : (s.nodeAt h).leaf = false) {d e : Bool} (hc : s.child h d = s.child h e) : d = e := by
  obtain ⟨-, -, -, -, distinct, -⟩ := tree
  have ne := distinct h hh l
  cases d <;> cases e
  · rfl
  · exact absurd hc ne
  · exact absurd hc.symm ne
  · rfl

/-- Every node but the root has one parent, and the root has none (R52 (c)). -/
theorem State.TreeOk.parents :
    (∀ c : Handle, c.toNat < s.nnode.toNat → c ≠ s.rootH →
      ∃! p : Handle, p.toNat < s.nnode.toNat ∧ s.IsChild p c) ∧
    ∀ p : Handle, p.toNat < s.nnode.toNat → ¬ s.IsChild p s.rootH := by
  obtain ⟨-, -, -, -, -, one, none, -⟩ := tree
  exact ⟨one, none⟩

/-- The null tree has no nodes (R41). -/
theorem State.TreeOk.rootValid_of_lt {h : Handle} (hh : h.toNat < s.nnode.toNat) : s.rootValid = true := by
  obtain ⟨null, -⟩ := tree
  by_contra invalid
  obtain ⟨-, empty⟩ := null (Bool.eq_false_iff.2 invalid)
  rw [empty] at hh
  exact absurd hh (Nat.not_lt_zero _)

theorem State.TreeOk.leaf_iff {h : Handle} (hh : h.toNat < s.nnode.toNat) :
    (s.nodeAt h).leaf = true ↔ h.toNat < s.leafCount := by
  obtain ⟨-, -, -, -, -, -, -, -, leaves, -⟩ := tree
  exact leaves h hh

/-- Different leaves have different symbols (R52 (e)). -/
theorem State.TreeOk.leaf_inj {g h : Handle} (hg : g.toNat < s.leafCount) (hh : h.toNat < s.leafCount)
    (hs : (s.nodeAt g).sym = (s.nodeAt h).sym) : g = h := by
  obtain ⟨-, -, -, -, -, -, -, -, -, rising⟩ := tree
  have same := congrArg BitVec.toNat hs
  rcases Nat.lt_trichotomy g.toNat h.toNat with lt | eq | gt
  · exact absurd same (rising g h lt hh).ne
  · exact BitVec.eq_of_toNat_eq eq
  · exact absurd same (rising h g gt hg).ne'

/-- A tree has at most 256 leaves, and one internal node less, the root the last of all (R52 (e), R41). -/
theorem State.TreeOk.leafCount_root (hv : s.rootValid = true) :
    s.leafCount ≤ Config.codeMax + 1 ∧ s.rootH.toNat + 2 = 2 * s.leafCount := by
  obtain ⟨-, planted, -⟩ := tree
  obtain ⟨odd, le, last⟩ := planted hv
  simp only [Config.nodeMax, Config.codeMax, State.leafCount] at le ⊢
  omega

theorem State.TreeOk.path_inside (hv : s.rootValid = true) {ds : Code} {x : Handle}
    (p : s.IsPath s.rootH ds x) : x.toNat < s.nnode.toNat :=
  (p.toNat_le tree.childrenBelow (tree.rootInside hv)).trans_lt (tree.rootInside hv)

/-- The root is at the end of no path that has a last digit. -/
theorem State.TreeOk.not_isPath_concat_root (hv : s.rootValid = true) {ds : Code} {d : Bool} :
    ¬ s.IsPath s.rootH (ds ++ [d]) s.rootH := by
  intro p
  obtain ⟨y, toY, l, e⟩ := State.isPath_concat.1 p
  exact tree.parents.2 y (tree.path_inside hv toY) (State.isChild_iff.2 ⟨l, _, e.symm⟩)

/-- Only one path leads from the root to a node (R232). -/
theorem State.TreeOk.path_unique (hv : s.rootValid = true) {ds es : Code} {x : Handle}
    (p : s.IsPath s.rootH ds x) (q : s.IsPath s.rootH es x) : ds = es := by
  induction ds using List.reverseRecOn generalizing es x with
  | nil =>
    rcases es.eq_nil_or_concat' with rfl | ⟨es, d, rfl⟩
    · rfl
    · rw [State.isPath_nil.1 p] at q
      exact absurd q (tree.not_isPath_concat_root hv)
  | append_singleton ds d ih =>
    rcases es.eq_nil_or_concat' with rfl | ⟨es, e, rfl⟩
    · rw [State.isPath_nil.1 q] at p
      exact absurd p (tree.not_isPath_concat_root hv)
    · have ne : x ≠ s.rootH := by rintro rfl; exact tree.not_isPath_concat_root hv p
      obtain ⟨y, toY, ly, hy⟩ := State.isPath_concat.1 p
      obtain ⟨z, toZ, lz, hz⟩ := State.isPath_concat.1 q
      have inY := tree.path_inside hv toY
      obtain rfl : y = z := (tree.parents.1 x (tree.path_inside hv p) ne).unique
        ⟨inY, State.isChild_iff.2 ⟨ly, d, hy.symm⟩⟩
        ⟨tree.path_inside hv toZ, State.isChild_iff.2 ⟨lz, e, hz.symm⟩⟩
      rw [ih toY toZ, tree.child_inj inY ly (hy.symm.trans hz)]

/-- Every node is reached from the root: its ancestors are younger and younger, up to the root (R52 (b), (c)). -/
theorem State.TreeOk.exists_path {x : Handle} (hx : x.toNat < s.nnode.toNat) :
    ∃ ds, s.IsPath s.rootH ds x := by
  induction n : s.nnode.toNat - x.toNat using Nat.strongRecOn generalizing x with
  | ind n ih =>
    by_cases root : x = s.rootH
    · exact ⟨[], root⟩
    · obtain ⟨p, ⟨hp, child⟩, -⟩ := tree.parents.1 x hx root
      obtain ⟨l, d, rfl⟩ := State.isChild_iff.1 child
      have lt := tree.childrenBelow.child_lt hp l d
      obtain ⟨ds, toP⟩ := ih _ (by omega) hp rfl
      exact ⟨ds ++ [d], State.isPath_concat.2 ⟨p, toP, l, rfl⟩⟩

/-- A path's nodes but the last are internal: their handles fall, but stay above the leaves' (R237). -/
theorem State.TreeOk.path_length_le {h x : Handle} {ds : Code} (hh : h.toNat < s.nnode.toNat)
    (p : s.IsPath h ds x) : ds.length ≤ h.toNat + 1 - s.leafCount := by
  induction ds generalizing h with
  | nil => exact Nat.zero_le _
  | cons d ds ih =>
    obtain ⟨l, p⟩ := State.isPath_cons.1 p
    have lt := tree.childrenBelow.child_lt hh l d
    have internal : ¬ h.toNat < s.leafCount := by rw [← tree.leaf_iff hh, l]; simp
    have := ih (lt.trans hh) p
    rw [List.length_cons]
    omega

/-- A path from the root has fewer digits than the tree has leaves (R237). -/
theorem State.TreeOk.rootPath_length_lt (hv : s.rootValid = true) {x : Handle} {ds : Code}
    (p : s.IsPath s.rootH ds x) : ds.length + 1 ≤ s.leafCount := by
  obtain ⟨-, count⟩ := tree.leafCount_root hv
  have := tree.path_length_le (tree.rootInside hv) p
  omega

end

end Sys2Proof.Machine
end

section
/-! SUPPORT. The entries GEN records (spec/43_gen.md R230 to R234): one for every path from the root to a leaf, on any
arena its walk completes; and on a tree one for each leaf's symbol, none the beginning of another (R236). -/

namespace Sys2Proof.Machine

-- GEN's walk -------------------------------------------------------------------------------------------

section

variable {node : Handle → Node}

/-- A walk that completes is at a leaf, or completes on both sides of an internal node with levels left (R230). -/
theorem walk_eq_some {n : Nat} {h : Handle} {pre : Code} {es : List (Symbol × Code)}
    (hw : walk node n h pre = some es) :
    ((node h).leaf = true ∧ es = [((node h).sym, pre)]) ∨
    ((node h).leaf = false ∧ ∃ m a b, n = m + 1 ∧ walk node m (node h).left (pre ++ [false]) = some a ∧
      walk node m (node h).right (pre ++ [true]) = some b ∧ es = a ++ b) := by
  cases l : (node h).leaf with
  | true =>
    rw [walk_leaf l] at hw
    exact .inl ⟨rfl, (Option.some.inj hw).symm⟩
  | false =>
    cases n with
    | zero => simp [walk, l] at hw
    | succ m =>
      rw [walk, l] at hw
      simp only [Bool.false_eq_true, if_false] at hw
      split at hw
      · next a b ha hb => exact .inr ⟨rfl, m, a, b, rfl, ha, hb, (Option.some.inj hw).symm⟩
      · cases hw

/-- The walk reads only nodes it can reach, all below the root where children have smaller handles (R238). -/
theorem walk_congr {node' : Handle → Node} {m : Nat}
    (below : ∀ h : Handle, h.toNat < m → (node h).leaf = false →
      (node h).left.toNat < h.toNat ∧ (node h).right.toNat < h.toNat)
    (agree : ∀ h : Handle, h.toNat < m → node h = node' h) (n : Nat) {h : Handle} (hh : h.toNat < m)
    (pre : Code) : walk node n h pre = walk node' n h pre := by
  induction n generalizing h pre with
  | zero => simp only [walk, agree h hh]
  | succ n ih =>
    rw [walk, walk, ← agree h hh]
    cases l : (node h).leaf with
    | true => rfl
    | false =>
      obtain ⟨left, right⟩ := below h hh l
      rw [ih (left.trans hh), ih (right.trans hh)]

end

/-- The entry of a leaf under `h`: its symbol and, after `pre`, the digits of a path to it. -/
def State.LeafEntry (s : State) (h : Handle) (pre : Code) (e : Symbol × Code) : Prop :=
  ∃ ds x, s.IsPath h ds x ∧ (s.nodeAt x).leaf = true ∧ e = ((s.nodeAt x).sym, pre ++ ds)

section

variable {s : State} {h : Handle} {pre : Code} {e : Symbol × Code}

theorem State.leafEntry_of_leaf (l : (s.nodeAt h).leaf = true) :
    s.LeafEntry h pre e ↔ e = ((s.nodeAt h).sym, pre) := by
  constructor
  · rintro ⟨ds, x, p, -, rfl⟩
    obtain ⟨rfl, rfl⟩ := (State.isPath_of_leaf l).1 p
    rw [List.append_nil]
  · rintro rfl
    exact ⟨[], h, rfl, l, by rw [List.append_nil]⟩

theorem State.leafEntry_of_internal (l : (s.nodeAt h).leaf = false) :
    s.LeafEntry h pre e ↔ s.LeafEntry (s.nodeAt h).left (pre ++ [false]) e ∨
      s.LeafEntry (s.nodeAt h).right (pre ++ [true]) e := by
  constructor
  · rintro ⟨ds, x, p, lx, rfl⟩
    cases ds with
    | nil => rw [State.isPath_nil.1 p, l] at lx; cases lx
    | cons d ds =>
      obtain ⟨-, p⟩ := State.isPath_cons.1 p
      cases d with
      | false => exact .inl ⟨ds, x, p, lx, by simp⟩
      | true => exact .inr ⟨ds, x, p, lx, by simp⟩
  · rintro (⟨ds, x, p, lx, rfl⟩ | ⟨ds, x, p, lx, rfl⟩)
    · exact ⟨false :: ds, x, ⟨l, p⟩, lx, by simp⟩
    · exact ⟨true :: ds, x, ⟨l, p⟩, lx, by simp⟩

/-- The walk records exactly the leaves under its node (R231). -/
theorem mem_walk_iff {n : Nat} {es : List (Symbol × Code)} (hw : walk s.nodeAt n h pre = some es) :
    e ∈ es ↔ s.LeafEntry h pre e := by
  induction n generalizing h pre es with
  | zero =>
    rcases walk_eq_some hw with ⟨l, rfl⟩ | ⟨-, m, -, -, none_left, -⟩
    · rw [State.leafEntry_of_leaf l, List.mem_singleton]
    · cases none_left
  | succ n ih =>
    rcases walk_eq_some hw with ⟨l, rfl⟩ | ⟨l, m, a, b, levels, left, right, rfl⟩
    · rw [State.leafEntry_of_leaf l, List.mem_singleton]
    · cases levels
      rw [State.leafEntry_of_internal l, List.mem_append, ih left, ih right]

end

-- The entries of the tree ------------------------------------------------------------------------------

/-- The code of the leaf at the end of a path from the root: its digits, or "0" where there is none (R232, R233). -/
def pathCode : Code → Code
  | [] => [false]
  | d :: ds => d :: ds

theorem pathCode_of_ne_nil {ds : Code} (h : ds ≠ []) : pathCode ds = ds := by
  cases ds with
  | nil => exact absurd rfl h
  | cons d ds => rfl

theorem pathCode_ne_nil (ds : Code) : pathCode ds ≠ [] := by
  cases ds <;> exact List.cons_ne_nil _ _

theorem length_pathCode_le {ds : Code} {n : Nat} (hn : 1 ≤ n) (h : ds.length ≤ n) :
    (pathCode ds).length ≤ n := by
  cases ds with
  | nil => exact hn
  | cons d ds => exact h

/-- Every entry GEN records, none on the null tree (R234). -/
def State.treeEntries (s : State) : Option (List (Symbol × Code)) :=
  if s.rootValid then treeCodes s.nodeAt s.rootH else some []

/-- The symbol of a leaf of the tree and the code of a path to it from the root. -/
def State.TreeEntry (s : State) (e : Symbol × Code) : Prop :=
  s.rootValid = true ∧
    ∃ ds x, s.IsPath s.rootH ds x ∧ (s.nodeAt x).leaf = true ∧ e = ((s.nodeAt x).sym, pathCode ds)

theorem State.treeEntries_completes {s : State} (below : s.ChildrenBelow) (inside : s.RootInside) :
    ∃ es, s.treeEntries = some es := by
  unfold State.treeEntries
  split
  · next hv => exact treeCodes_completes hv below inside
  · exact ⟨[], rfl⟩

theorem State.treeEntries_of_null {s : State} (hv : s.rootValid = false) : s.treeEntries = some [] := by
  simp [State.treeEntries, hv]

theorem State.treeEntries_of_root {s : State} (hv : s.rootValid = true) :
    s.treeEntries = treeCodes s.nodeAt s.rootH := by
  simp [State.treeEntries, hv]

/-- A single leaf gives the one entry with the code "0" (R233). -/
theorem State.treeEntries_of_leaf {s : State} (hv : s.rootValid = true)
    (l : (s.nodeAt s.rootH).leaf = true) :
    s.treeEntries = some [((s.nodeAt s.rootH).sym, [false])] := by
  simp [State.treeEntries_of_root hv, treeCodes, l]

theorem State.treeEntries_of_internal {s : State} (hv : s.rootValid = true)
    (l : (s.nodeAt s.rootH).leaf = false) :
    s.treeEntries = walk s.nodeAt Config.nodeMax s.rootH [] := by
  simp [State.treeEntries_of_root hv, treeCodes, l]

/-- GEN's entries are those of the paths to leaves, on every arena its walk completes. -/
theorem State.mem_treeEntries_iff {s : State} {es : List (Symbol × Code)} (hes : s.treeEntries = some es)
    (e : Symbol × Code) : e ∈ es ↔ s.TreeEntry e := by
  cases hv : s.rootValid with
  | false =>
    rw [State.treeEntries_of_null hv] at hes
    cases hes
    simp [State.TreeEntry, hv]
  | true =>
    cases l : (s.nodeAt s.rootH).leaf with
    | true =>
      rw [State.treeEntries_of_leaf hv l] at hes
      cases hes
      rw [List.mem_singleton]
      constructor
      · rintro rfl
        exact ⟨hv, [], s.rootH, rfl, l, rfl⟩
      · rintro ⟨-, ds, x, p, -, rfl⟩
        obtain ⟨rfl, rfl⟩ := (State.isPath_of_leaf l).1 p
        rfl
    | false =>
      rw [State.treeEntries_of_internal hv l] at hes
      rw [mem_walk_iff hes]
      constructor
      · rintro ⟨ds, x, p, lx, rfl⟩
        exact ⟨hv, ds, x, p, lx, by rw [pathCode_of_ne_nil (p.ne_nil l lx), List.nil_append]⟩
      · rintro ⟨-, ds, x, p, lx, rfl⟩
        exact ⟨ds, x, p, lx, by rw [pathCode_of_ne_nil (p.ne_nil l lx), List.nil_append]⟩

/-- GEN's entries are a function of ROOT, NNODE and NODE[0 .. NNODE-1] (R238). -/
theorem State.treeEntries_congr {s t : State} (below : s.ChildrenBelow) (inside : s.RootInside)
    (hv : s.rootValid = t.rootValid) (hr : s.rootH = t.rootH)
    (agree : ∀ h : Handle, h.toNat < s.nnode.toNat → s.nodeAt h = t.nodeAt h) :
    s.treeEntries = t.treeEntries := by
  cases valid : s.rootValid with
  | false => rw [State.treeEntries_of_null valid, State.treeEntries_of_null (hv ▸ valid)]
  | true =>
    rw [State.treeEntries_of_root valid, State.treeEntries_of_root (hv ▸ valid)]
    simp only [treeCodes, ← hr, ← agree _ (inside valid), walk_congr below agree Config.nodeMax (inside valid)]

/-- No leaf's code begins another leaf's: a path ends at its first leaf (R236). -/
theorem State.TreeEntry.eq_of_prefix {s : State} {a b : Symbol} {d e : Code} (hd : s.TreeEntry (a, d))
    (he : s.TreeEntry (b, e)) (hp : d <+: e) : a = b := by
  obtain ⟨-, ds, x, p, lx, ex⟩ := hd
  obtain ⟨-, es, y, q, ly, ey⟩ := he
  obtain ⟨rfl, rfl⟩ := Prod.mk.inj ex
  obtain ⟨rfl, rfl⟩ := Prod.mk.inj ey
  cases root : (s.nodeAt s.rootH).leaf with
  | true =>
    obtain ⟨-, rfl⟩ := (State.isPath_of_leaf root).1 p
    obtain ⟨-, rfl⟩ := (State.isPath_of_leaf root).1 q
    rfl
  | false =>
    rw [pathCode_of_ne_nil (p.ne_nil root lx), pathCode_of_ne_nil (q.ne_nil root ly)] at hp
    rw [(p.eq_of_prefix lx q hp).2]

section

variable {s : State} (tree : s.TreeOk)

include tree

/-- A symbol has an entry exactly when it is a leaf's (R236). -/
theorem State.TreeOk.exists_treeEntry_iff (c : Symbol) :
    (∃ d, s.TreeEntry (c, d)) ↔
      ∃ h : Handle, h.toNat < s.nnode.toNat ∧ (s.nodeAt h).leaf = true ∧ (s.nodeAt h).sym = c := by
  constructor
  · rintro ⟨d, hv, ds, x, p, l, e⟩
    exact ⟨x, tree.path_inside hv p, l, (congrArg Prod.fst e).symm⟩
  · rintro ⟨h, hh, l, rfl⟩
    have hv := tree.rootValid_of_lt hh
    obtain ⟨ds, p⟩ := tree.exists_path hh
    exact ⟨pathCode ds, hv, ds, h, p, l, rfl⟩

/-- The table has room for every code (R237). -/
theorem State.TreeOk.length_treeEntry_le {e : Symbol × Code} (he : s.TreeEntry e) :
    e.2.length ≤ Config.codeMax := by
  obtain ⟨hv, ds, x, p, -, rfl⟩ := he
  have few := (tree.leafCount_root hv).1
  have short := tree.rootPath_length_lt hv p
  exact length_pathCode_le (by decide) (by omega)

/-- A symbol has at most one code (R232, R52 (e)). -/
theorem State.TreeOk.treeEntry_unique {c : Symbol} {d e : Code} (hd : s.TreeEntry (c, d))
    (he : s.TreeEntry (c, e)) : d = e := by
  obtain ⟨hv, ds, x, p, lx, ex⟩ := hd
  obtain ⟨-, es, y, q, ly, ey⟩ := he
  obtain ⟨rfl, rfl⟩ := Prod.mk.inj ex
  obtain ⟨sym, rfl⟩ := Prod.mk.inj ey
  obtain rfl : x = y := tree.leaf_inj ((tree.leaf_iff (tree.path_inside hv p)).1 lx)
    ((tree.leaf_iff (tree.path_inside hv q)).1 ly) sym
  rw [tree.path_unique hv p q]

end

end Sys2Proof.Machine
end

section
/-! GEN (spec/43_gen.md R230 to R239): the state it answers, its frame, the codes and zero bits of its table, and the
statements. -/

namespace Sys2Proof.Machine

-- The state GEN answers --------------------------------------------------------------------------------

/-- The state GEN ends in when it records the entries `es`. -/
def State.afterGen (s : State) (es : List (Symbol × Code)) : State :=
  (es.foldl State.setCode s.emptyTable).finish s.treeEmpty

theorem exec_gen_of_entries {s : State} {es : List (Symbol × Code)} (hes : s.treeEntries = some es) :
    exec .gen s = .next (s.afterGen es) := by
  rcases execGen_cases s with ⟨hv, e⟩ | ⟨hv, es', codes, e⟩ | ⟨hv, stuck, -⟩
  · rw [State.treeEntries_of_null hv] at hes
    cases hes
    rw [e, State.afterGen, State.treeEmpty, hv]
    rfl
  · rw [State.treeEntries_of_root hv, codes] at hes
    cases hes
    rw [e, State.afterGen, State.treeEmpty, hv]
    rfl
  · rw [State.treeEntries_of_root hv, stuck] at hes
    cases hes

section

variable (s : State) (es : List (Symbol × Code))

/-- GEN ends well, EMPTY saying that the tree is null (R230, R234). -/
theorem endedWell_afterGen : EndedWell (s.afterGen es) (!s.rootValid) := endedWell_finish _ _

/-- GEN writes CLEN, CBIT and STATUS alone (R239 (g)). -/
theorem afterGen_frame :
    SameText s (s.afterGen es) ∧ SamePayload s (s.afterGen es) ∧ SameKey s (s.afterGen es) ∧
      SameFreq s (s.afterGen es) ∧ SameTree s (s.afterGen es) ∧ SameControl s (s.afterGen es) ∧
      SameFault s (s.afterGen es) ∧ SameOutside s (s.afterGen es) := by
  simp [State.afterGen, SameText, SamePayload, SameKey, SameFreq, SameTree, SameControl, SameFault,
    SameOutside, State.textAt, State.payAt, State.keyAt, State.freqAt, State.nodeAt]

end

-- Its table --------------------------------------------------------------------------------------------

theorem emptyTable_table (s : State) :
    (∀ c, s.emptyTable.clenAt c = 0#8) ∧ ∀ c k, s.emptyTable.cbitAt c k = 0#32 :=
  ⟨fun _ => Memory.read_zeros _ _, fun _ _ => Memory.read_zeros _ _⟩

theorem codeOf_emptyTable (s : State) (c : Symbol) : s.emptyTable.codeOf c = [] :=
  (State.codeOf_eq_nil _ _).2 ((emptyTable_table s).1 c)

theorem digitAt_emptyTable (s : State) (c : Symbol) (j : Nat) : s.emptyTable.digitAt c j = false := by
  rw [State.digitAt, (emptyTable_table s).2, BitVec.getLsbD_zero]

/-- Entries that agree on a symbol's code give it that code; without one it keeps the code it has. -/
theorem codeOf_setCodes {s : State} {es : List (Symbol × Code)} (fits : ∀ e ∈ es, e.2.length ≤ Config.codeMax)
    {c : Symbol} {d : Code} (same : ∀ e ∈ es, e.1 = c → e.2 = d)
    (coded : s.codeOf c = d ∨ ∃ e ∈ es, e.1 = c) : (es.foldl State.setCode s).codeOf c = d := by
  induction es generalizing s with
  | nil => simpa using coded
  | cons e es ih =>
    simp only [List.forall_mem_cons] at fits same
    refine ih fits.2 same.2 ?_
    rw [State.codeOf_setCode s e fits.1]
    by_cases hc : c = e.1
    · exact .inl (by rw [if_pos hc, same.1 hc.symm])
    · simpa [hc, Ne.symm hc, eq_comm] using coded

/-- Where the digits beyond a table's codes are 0, entries that fit keep them 0 (R235). -/
theorem digitAt_setCodes_beyond {s : State} {es : List (Symbol × Code)}
    (hs : ∀ c j, (s.clenAt c).toNat ≤ j → j < 256 → s.digitAt c j = false)
    (fits : ∀ e ∈ es, e.2.length ≤ Config.codeMax) :
    ∀ c j, ((es.foldl State.setCode s).clenAt c).toNat ≤ j → j < 256 →
      (es.foldl State.setCode s).digitAt c j = false := by
  induction es generalizing s with
  | nil => exact hs
  | cons e es ih =>
    simp only [List.forall_mem_cons] at fits
    exact ih (State.digitAt_setCode_beyond hs fits.1) fits.2

/-- What entries leave in CLEN and CBIT is a function of what stood there. -/
theorem setCodes_table_congr {s t : State} (hl : s.clen = t.clen) (hb : s.cbit = t.cbit)
    (es : List (Symbol × Code)) :
    (es.foldl State.setCode s).clen = (es.foldl State.setCode t).clen ∧
      (es.foldl State.setCode s).cbit = (es.foldl State.setCode t).cbit := by
  induction es generalizing s t with
  | nil => exact ⟨hl, hb⟩
  | cons e es ih => exact ih (by simp [hl]) (by simp [hb])

/-- GEN's table is a function of the entries alone: the earlier table is emptied (R235). -/
theorem afterGen_sameTable (s t : State) (es : List (Symbol × Code)) :
    SameTable (s.afterGen es) (t.afterGen es) := by
  obtain ⟨clen, cbit⟩ := setCodes_table_congr (s := s.emptyTable) (t := t.emptyTable) rfl rfl es
  simp [SameTable, State.afterGen, State.clenAt, State.cbitAt, clen, cbit]

/-- Entries that agree on a symbol's code give it that code after GEN; without one it has none. -/
theorem codeOf_afterGen (s : State) {es : List (Symbol × Code)} (fits : ∀ e ∈ es, e.2.length ≤ Config.codeMax)
    {c : Symbol} {d : Code} (same : ∀ e ∈ es, e.1 = c → e.2 = d) (coded : d = [] ∨ ∃ e ∈ es, e.1 = c) :
    (s.afterGen es).codeOf c = d :=
  codeOf_setCodes fits same (coded.imp_left fun h => (codeOf_emptyTable s c).trans h.symm)

/-- Every bit of CBIT at and beyond CLEN is 0 after GEN, if the codes fit (R235). -/
theorem digitAt_afterGen_beyond (s : State) {es : List (Symbol × Code)}
    (fits : ∀ e ∈ es, e.2.length ≤ Config.codeMax) (c : Symbol) (j : Nat)
    (hj : ((s.afterGen es).clenAt c).toNat ≤ j) (hlt : j < 256) : (s.afterGen es).digitAt c j = false :=
  digitAt_setCodes_beyond (fun c j _ _ => digitAt_emptyTable s c j) fits c j hj hlt

/-- The codes of a tree's entries all fit (R237). -/
theorem State.TreeOk.entries_fit {s : State} (tree : s.TreeOk) {es : List (Symbol × Code)}
    (hes : s.treeEntries = some es) : ∀ e ∈ es, e.2.length ≤ Config.codeMax :=
  fun e he => tree.length_treeEntry_le ((s.mem_treeEntries_iff hes e).1 he)

section

variable {s : State} {es : List (Symbol × Code)} (tree : s.TreeOk) (hes : s.treeEntries = some es)

include tree hes

/-- A leaf's symbol has its path's code (R232). -/
theorem codeOf_afterGen_of_treeEntry {c : Symbol} {d : Code} (he : s.TreeEntry (c, d)) :
    (s.afterGen es).codeOf c = d := by
  refine codeOf_afterGen s (tree.entries_fit hes) ?_ (.inr ⟨(c, d), (s.mem_treeEntries_iff hes _).2 he, rfl⟩)
  rintro ⟨b, d'⟩ he' rfl
  exact tree.treeEntry_unique ((s.mem_treeEntries_iff hes _).1 he') he

/-- GEN's table holds the tree's entries and no other (R236). -/
theorem treeEntry_of_codeOf_afterGen {c : Symbol} (hc : (s.afterGen es).codeOf c ≠ []) :
    s.TreeEntry (c, (s.afterGen es).codeOf c) := by
  by_cases coded : ∃ d, s.TreeEntry (c, d)
  · obtain ⟨d, he⟩ := coded
    rwa [codeOf_afterGen_of_treeEntry tree hes he]
  · refine absurd (codeOf_afterGen s (tree.entries_fit hes) ?_ (.inl rfl)) hc
    rintro ⟨b, d⟩ he rfl
    exact absurd ⟨d, (s.mem_treeEntries_iff hes _).1 he⟩ coded

/-- A symbol has a code after GEN exactly when the tree gives it an entry (R236). -/
theorem codeOf_afterGen_ne_nil_iff (c : Symbol) :
    (s.afterGen es).codeOf c ≠ [] ↔ ∃ d, s.TreeEntry (c, d) := by
  constructor
  · exact fun hc => ⟨_, treeEntry_of_codeOf_afterGen tree hes hc⟩
  · rintro ⟨d, he⟩
    rw [codeOf_afterGen_of_treeEntry tree hes he]
    obtain ⟨-, ds, x, -, -, e⟩ := he
    obtain ⟨-, rfl⟩ := Prod.mk.inj e
    exact pathCode_ne_nil ds

/-- Two leaves' codes end at different leaves (R236). -/
theorem prefixFree_afterGen : (s.afterGen es).PrefixFree := fun _ _ ne ha hb hp =>
  ne ((treeEntry_of_codeOf_afterGen tree hes ha).eq_of_prefix
    (treeEntry_of_codeOf_afterGen tree hes hb) hp)

end

-- The statements ---------------------------------------------------------------------------------------

/-- Settles O26: the null tree has no entries, so the empty table stands. -/
theorem genNullTreeEmptyTable : Obligations.GenNullTreeEmptyTable := by
  intro s hv
  have ended := endedWell_afterGen s []
  rw [hv] at ended
  obtain ⟨clen, cbit⟩ := emptyTable_table s
  exact ⟨_, exec_gen_of_entries (State.treeEntries_of_null hv), ended, clen, cbit, afterGen_frame s []⟩

/-- Settles O27: one entry, set on the empty table. -/
theorem genSingleLeafCodeZero : Obligations.GenSingleLeafCodeZero := by
  intro s hv l
  have entries := State.treeEntries_of_leaf hv l
  have fits : ∀ e ∈ [((s.nodeAt s.rootH).sym, [false])], e.2.length ≤ Config.codeMax := by
    simp [Config.codeMax]
  have ended := endedWell_afterGen s [((s.nodeAt s.rootH).sym, [false])]
  rw [hv] at ended
  refine ⟨_, exec_gen_of_entries entries, ended, ?leaf, ?others, digitAt_afterGen_beyond s fits⟩
  case leaf => exact codeOf_afterGen s fits (by simp) (.inr (by simp))
  case others =>
    intro c hc
    exact (State.codeOf_eq_nil _ _).1 (codeOf_afterGen s fits (by simp [Ne.symm hc]) (.inl rfl))

/-- Settles O28: the walk completes (R52 (b)), and the frame is the same whatever it recorded. -/
theorem genCompletesAndKeepsRest : Obligations.GenCompletesAndKeepsRest := by
  intro s hv below inside
  obtain ⟨es, hes⟩ := State.treeEntries_completes below inside
  have ended := endedWell_afterGen s es
  rw [hv] at ended
  exact ⟨_, exec_gen_of_entries hes, ended, afterGen_frame s es⟩

/-- Settles O29: under an internal root a leaf's code is its path, which has a digit. -/
theorem genCodeIsPath : Obligations.GenCodeIsPath := by
  intro s tree hv internal
  obtain ⟨es, hes⟩ := State.treeEntries_completes tree.childrenBelow tree.rootInside
  refine ⟨_, exec_gen_of_entries hes, fun ds x p lx => ?_,
    digitAt_afterGen_beyond s (tree.entries_fit hes)⟩
  have ne := p.ne_nil internal lx
  have code := codeOf_afterGen_of_treeEntry tree hes ⟨hv, ds, x, p, lx, rfl⟩
  exact ⟨code.trans (pathCode_of_ne_nil ne), List.length_pos_iff.2 ne⟩

/-- Settles O30: the entries are the leaves' paths, which end at their leaves and pass internal nodes only. -/
theorem genTablePrefixFree : Obligations.GenTablePrefixFree := by
  intro s tree
  obtain ⟨es, hes⟩ := State.treeEntries_completes tree.childrenBelow tree.rootInside
  exact ⟨_, exec_gen_of_entries hes, prefixFree_afterGen tree hes,
    fun c => (codeOf_afterGen_ne_nil_iff tree hes c).trans (tree.exists_treeEntry_iff c),
    fun hv => ⟨(tree.leafCount_root hv).1, fun _ _ p _ => tree.rootPath_length_lt hv p⟩⟩

/-- Settles O31: equal trees give equal entries, and the table is made of the entries alone. -/
theorem genDependsOnTreeOnly : Obligations.GenDependsOnTreeOnly := by
  intro s t below inside hv hr _ agree
  obtain ⟨es, hes⟩ := State.treeEntries_completes below inside
  have same := State.treeEntries_congr below inside hv hr agree
  refine ⟨_, _, exec_gen_of_entries hes, exec_gen_of_entries (same.symm.trans hes), ?_,
    afterGen_sameTable s t es⟩
  exact congrArg not hv

end Sys2Proof.Machine
end

section
/-! PACK's two faults (spec/44_pack.md R253, R254; spec/60_exceptions.md R336, R337, R341). -/

namespace Sys2Proof.Machine

/-- The state PACK answers on fault `f`: its destinations spoiled, then `f` raised (R340, R341). -/
def State.afterPackFault (s : State) (f : HxcFault) : State := s.spoilPayload.raise f

/-- PACK when its walk over the text stops at a fault (R250). -/
theorem exec_pack_of_error {s : State} {f : HxcFault}
    (walk : packStream s.codeOf 0 0 s.textSymbols = .error f) : exec .pack s = .next (s.afterPackFault f) := by
  simp only [exec, execPack, walk, State.afterPackFault]

/-- The fault is taken as any other; DONE and EMPTY are no destination of PACK's (R340). -/
theorem endedInFault_afterPackFault (s : State) (f : HxcFault) : EndedInFault s (s.afterPackFault f) f :=
  ⟨rfl, rfl, rfl, rfl, rfl, rfl⟩

/-- A late fault of PACK leaves unspecified PAY, PLEN and PAD only (R341). -/
theorem afterPackFault_frame (s : State) (f : HxcFault) :
    SameText s (s.afterPackFault f) ∧ SameKey s (s.afterPackFault f) ∧ SameFreq s (s.afterPackFault f) ∧
      SameTree s (s.afterPackFault f) ∧ SameTable s (s.afterPackFault f) ∧
      SameControl s (s.afterPackFault f) ∧ SamePins s (s.afterPackFault f) :=
  ⟨⟨rfl, fun _ => rfl⟩, ⟨rfl, fun _ => rfl⟩, fun _ => rfl, ⟨rfl, rfl, rfl, fun _ => rfl⟩,
    ⟨fun _ => rfl, fun _ _ => rfl⟩, ⟨rfl, rfl, rfl⟩, ⟨rfl, rfl, rfl⟩⟩

/-- An index into TEXT fits in INFO: TLEN has 16 bits. -/
theorem State.toNat_info_of_textPrefix {s : State} {pre post : List Symbol} {c : Symbol}
    (text : s.textSymbols = pre ++ c :: post) : (BitVec.ofNat 32 pre.length).toNat = pre.length := by
  have total : s.tlen.toNat = pre.length + (post.length + 1) := by
    rw [← s.length_textSymbols, text, List.length_append, List.length_cons]
  have bound := s.tlen.isLt
  rw [BitVec.toNat_ofNat]
  exact Nat.mod_eq_of_lt (by omega)

/-- Settles O33: the walk passes the prefix and stops at the symbol without an entry. -/
theorem packMissingCodeFaults : Obligations.PackMissingCodeFaults := by
  intro s pre post c text entries fits missing
  have walk : packStream s.codeOf 0 0 s.textSymbols = .error (.missingCode pre.length) := by
    rw [text, packStream_missing entries ((Nat.zero_add _).trans_le fits) missing, Nat.zero_add]
  exact ⟨_, exec_pack_of_error walk, endedInFault_afterPackFault s _, rfl,
    State.toNat_info_of_textPrefix text, afterPackFault_frame s _⟩

/-- Settles O34: the walk passes the prefix and stops at the symbol whose code does not fit (524280 is
8 · PAY_MAX). -/
theorem packOverflowFaults : Obligations.PackOverflowFaults := by
  intro s pre post c text entries fits entry exceeds
  have walk : packStream s.codeOf 0 0 s.textSymbols = .error (.payloadOverflow pre.length) := by
    rw [text, packStream_overflow entries ((Nat.zero_add _).trans_le fits) entry
      (exceeds.trans_eq (congrArg (· + _) (Nat.zero_add _).symm)), Nat.zero_add]
  exact ⟨_, exec_pack_of_error walk, endedInFault_afterPackFault s _, rfl,
    State.toNat_info_of_textPrefix text, afterPackFault_frame s _⟩

end Sys2Proof.Machine
end

section
/-! UNPACK (spec/45_unpack.md R270 to R285): the walk over codes it emits, what its ends leave unchanged,
its three faults, and the way back from PACK (R281). -/

namespace Sys2Proof.Machine

-- The walk over a stream of codes ------------------------------------------------------------------------

section

variable {s : State} {c : Symbol}

theorem State.Emits.matchLeast_codeOf (h : s.Emits c) : s.matchLeast (s.codeOf c) = some c := by
  obtain ⟨entry, first⟩ := h
  refine (s.matchLeast_eq_some _ c).2 ⟨rfl, entry, fun b hb => ?_⟩
  exact (first b (hb ▸ entry) (hb ▸ List.prefix_rfl)).2

/-- No candidate on the way to an emitted code matches (R274). -/
theorem State.Emits.matchLeast_take (h : s.Emits c) {k : Nat} (hk : k < (s.codeOf c).length) :
    s.matchLeast ((s.codeOf c).take k) = none := by
  refine (s.matchLeast_eq_none _).2 fun b entry hb => ?_
  have same : s.codeOf b = s.codeOf c := (h.2 b entry (hb ▸ List.take_prefix k _)).1
  have short : (s.codeOf c).length = min k (s.codeOf c).length := by
    rw [← List.length_take, ← hb, same]
  omega

theorem State.NoMatchIn.matchLeast_take {rest : List Bool} (h : s.NoMatchIn rest) (k : Nat) :
    s.matchLeast (rest.take k) = none :=
  (s.matchLeast_eq_none _).2 fun b entry hb => h b entry (hb ▸ List.take_prefix k rest)

/-- The walk over one code that it emits (R274, R278). -/
theorem unpackWalk_codeOf (h : s.Emits c) {p t : Nat} {bits : List Bool} :
    unpackWalk s.matchLeast p p t [] (s.codeOf c ++ bits) =
      if t = Config.textMax then .error (.textOverflow p)
      else (unpackWalk s.matchLeast (p + (s.codeOf c).length) (p + (s.codeOf c).length) (t + 1) [] bits).map
        (c :: ·) := by
  rw [unpackWalk_matched (fun _ _ hk => h.matchLeast_take hk) h.1 h.matchLeast_codeOf]
  cases unpackWalk s.matchLeast (p + (s.codeOf c).length) (p + (s.codeOf c).length) (t + 1) [] bits <;> rfl

/-- The walk over the codes of symbols that it emits and that fit in TEXT: it goes on behind them with no
candidate (R270, R274). -/
theorem unpackWalk_streamOf {out : List Symbol} (emits : ∀ c ∈ out, s.Emits c) {p t : Nat}
    (room : t + out.length ≤ Config.textMax) {bits : List Bool} :
    unpackWalk s.matchLeast p p t [] (s.streamOf out ++ bits) =
      (unpackWalk s.matchLeast (p + (s.streamOf out).length) (p + (s.streamOf out).length)
        (t + out.length) [] bits).map (out ++ ·) := by
  induction out generalizing p t with
  | nil => exact (congrFun Except.map_id _).symm
  | cons c out ih =>
    obtain ⟨head, tail⟩ := List.forall_mem_cons.1 emits
    rw [List.length_cons] at room
    have split : s.streamOf (c :: out) = s.codeOf c ++ s.streamOf out := rfl
    have room' : t + 1 + out.length ≤ Config.textMax := by omega
    have notFull : t ≠ Config.textMax := by omega
    rw [split, List.append_assoc, unpackWalk_codeOf head, if_neg notFull, ih tail room', List.length_append,
      List.length_cons, ← Nat.add_assoc, Nat.add_right_comm t 1, ← Nat.add_assoc]
    cases unpackWalk s.matchLeast _ _ _ [] bits <;> rfl

end

-- The ends of UNPACK ---------------------------------------------------------------------------------------

/-- The state UNPACK answers when it emitted `out` (R270, R280). -/
def State.afterUnpack (s : State) (out : List Symbol) : State := (s.storeText out).finish (emittedNone out)

/-- The state UNPACK answers on the late fault `f`: its destinations spoiled, then `f` raised (R340, R341). -/
def State.afterUnpackFault (s : State) (f : HxcFault) : State := s.spoilText.raise f

theorem exec_unpack_of_ok {s : State} {out : List Symbol} (padding : s.pad.toNat ≤ 7)
    (walk : unpackWalk s.matchLeast 0 0 0 [] s.keptStream = .ok out) :
    exec .unpack s = .next (s.afterUnpack out) := by
  simp only [exec, execUnpack, if_neg (Nat.not_lt.2 padding), walk, State.afterUnpack]

theorem exec_unpack_of_error {s : State} {f : HxcFault} (padding : s.pad.toNat ≤ 7)
    (walk : unpackWalk s.matchLeast 0 0 0 [] s.keptStream = .error f) :
    exec .unpack s = .next (s.afterUnpackFault f) := by
  simp only [exec, execUnpack, if_neg (Nat.not_lt.2 padding), walk, State.afterUnpackFault]

theorem exec_unpack_of_invalidPadding {s : State} (padding : 7 < s.pad.toNat) :
    exec .unpack s = .next (s.raise (.invalidPadding s.pad)) := by
  simp only [exec, execUnpack, if_pos padding]

theorem endedInFault_raise (s : State) (f : HxcFault) : EndedInFault s (s.raise f) f :=
  ⟨rfl, rfl, rfl, rfl, rfl, rfl⟩

/-- Taking a fault writes STATUS, CAUSE, INFO and PHASE only (R340). -/
theorem raise_frame (s : State) (f : HxcFault) :
    SameData s (s.raise f) ∧ SameControl s (s.raise f) ∧ SameOutside s (s.raise f) :=
  ⟨⟨⟨rfl, fun _ => rfl⟩, ⟨rfl, rfl, fun _ => rfl⟩, ⟨rfl, fun _ => rfl⟩, fun _ => rfl,
    ⟨rfl, rfl, rfl, fun _ => rfl⟩, fun _ => rfl, fun _ _ => rfl⟩,
    ⟨rfl, rfl, rfl⟩, rfl, rfl, rfl, rfl⟩

/-- DONE and EMPTY are no destination of a late fault of UNPACK's (R340). -/
theorem endedInFault_afterUnpackFault (s : State) (f : HxcFault) :
    EndedInFault s (s.afterUnpackFault f) f :=
  ⟨rfl, rfl, rfl, rfl, rfl, rfl⟩

/-- A late fault of UNPACK leaves unspecified TEXT and TLEN only (R341). -/
theorem afterUnpackFault_frame (s : State) (f : HxcFault) :
    SamePayload s (s.afterUnpackFault f) ∧ SameKey s (s.afterUnpackFault f) ∧
      SameFreq s (s.afterUnpackFault f) ∧ SameTree s (s.afterUnpackFault f) ∧
      SameTable s (s.afterUnpackFault f) ∧ SameControl s (s.afterUnpackFault f) ∧
      SamePins s (s.afterUnpackFault f) :=
  ⟨⟨rfl, rfl, fun _ => rfl⟩, ⟨rfl, fun _ => rfl⟩, fun _ => rfl, ⟨rfl, rfl, rfl, fun _ => rfl⟩,
    ⟨fun _ => rfl, fun _ _ => rfl⟩, ⟨rfl, rfl, rfl⟩, ⟨rfl, rfl, rfl⟩⟩

/-- A successful UNPACK writes TEXT, TLEN and STATUS only (R280). -/
theorem afterUnpack_frame (s : State) (out : List Symbol) :
    SamePayload s (s.afterUnpack out) ∧ SameKey s (s.afterUnpack out) ∧ SameFreq s (s.afterUnpack out) ∧
      SameTree s (s.afterUnpack out) ∧ SameTable s (s.afterUnpack out) ∧
      SameControl s (s.afterUnpack out) ∧ SameFault s (s.afterUnpack out) ∧
      SameOutside s (s.afterUnpack out) :=
  ⟨⟨rfl, rfl, fun _ => rfl⟩, ⟨rfl, fun _ => rfl⟩, fun _ => rfl, ⟨rfl, rfl, rfl, fun _ => rfl⟩,
    ⟨fun _ => rfl, fun _ _ => rfl⟩, ⟨rfl, rfl, rfl⟩, ⟨rfl, rfl, rfl⟩, ⟨rfl, rfl, rfl, rfl⟩⟩

/-- EMPTY is 1 exactly when no symbol was emitted (R36). -/
theorem endedWell_afterUnpack (s : State) (out : List Symbol) :
    EndedWell (s.afterUnpack out) (decide (out = [])) := by
  have empty : emittedNone out = decide (out = []) := by cases out <;> rfl
  exact empty ▸ endedWell_finish _ _

theorem State.toNat_tlen_afterUnpack (s : State) {out : List Symbol} (fits : out.length ≤ Config.textMax) :
    (s.afterUnpack out).tlen.toNat = out.length := by
  simp only [State.afterUnpack, State.finish_tlen, State.storeText_tlen, BitVec.toNat_ofNat]
  exact Nat.mod_eq_of_lt (Nat.lt_succ_of_le fits)

/-- TEXT after UNPACK: the emitted symbols, then what stood there (R270, R280). -/
theorem State.textAt_afterUnpack (s : State) (out : List Symbol) (i : Nat) :
    (s.afterUnpack out).textAt i = if i < out.length then out.getD i default else s.textAt i := by
  simp only [State.textAt, State.afterUnpack, State.finish_text, State.storeText_text,
    Memory.read_writeFrom_zero]

theorem State.textSymbols_afterUnpack (s : State) {out : List Symbol} (fits : out.length ≤ Config.textMax) :
    (s.afterUnpack out).textSymbols = out := by
  have len := s.toNat_tlen_afterUnpack fits
  refine List.ext_getElem (by rw [State.length_textSymbols, len]) fun i _ hi => ?_
  simp only [State.textSymbols, List.getElem_map, List.getElem_range, State.textAt_afterUnpack, if_pos hi]
  exact (List.getElem_eq_getD default).symm

/-- TEXT[i] is the i-th symbol of the text, so equal texts agree element by element (R26). -/
theorem State.textAt_congr {s t : State} (h : t.textSymbols = s.textSymbols) {i : Nat}
    (hi : i < s.tlen.toNat) : t.textAt i = s.textAt i := by
  have hi' : i < t.tlen.toNat := by rwa [← t.length_textSymbols, h, s.length_textSymbols]
  have same : t.textSymbols[i]? = s.textSymbols[i]? := by rw [h]
  simpa [State.textSymbols, hi, hi'] using same

/-- A position of the kept stream fits in INFO: PLEN has 16 bits, so there are at most 8 · 65535 of them. -/
theorem State.toNat_info_of_keptPrefix {s : State} {pre post : List Bool}
    (kept : s.keptStream = pre ++ post) : (BitVec.ofNat 32 pre.length).toNat = pre.length := by
  have total : 8 * s.plen.toNat - s.pad.toNat = pre.length + post.length := by
    rw [← State.keptBits, ← s.length_keptStream, kept, List.length_append]
  have bound := s.plen.isLt
  rw [BitVec.toNat_ofNat]
  exact Nat.mod_eq_of_lt (by omega)

-- The way back from PACK ---------------------------------------------------------------------------------

/-- The state PACK answers when the text's digits all fit (R252). -/
def State.packed (s : State) : State := (s.storePayload (s.streamOf s.textSymbols)).finish s.textEmpty

theorem State.pad_packed_le (s : State) : s.packed.pad.toNat ≤ 7 :=
  (s.pad_storePayload _).trans_le (Nat.le_of_lt_succ (padCount_lt _))

/-- PACK leaves the table, so the stream it stored is the text's under the table that stands (R255). -/
theorem State.keptStream_packed {s : State} (fits : (s.streamOf s.textSymbols).length ≤ 8 * Config.payMax) :
    s.packed.keptStream = s.packed.streamOf s.textSymbols :=
  s.keptStream_storePayload _ fits

/-- A code that no other entry begins is emitted for its symbol (R274, R276; log 18). -/
theorem State.emits_of_alone {s : State} {c : Symbol} (entry : s.codeOf c ≠ [])
    (alone : ∀ b, b ≠ c → s.codeOf b ≠ [] → ¬ s.codeOf b <+: s.codeOf c) : s.Emits c := by
  refine ⟨entry, fun b entry' isPrefix => ?_⟩
  by_cases same : b = c
  · exact ⟨congrArg s.codeOf same, (congrArg BitVec.toNat same).ge⟩
  · exact absurd isPrefix (alone b same entry')

theorem State.length_textSymbols_le (s : State) : s.textSymbols.length ≤ Config.textMax :=
  s.length_textSymbols.trans_le (Nat.le_of_lt_succ s.tlen.isLt)

-- The statements -----------------------------------------------------------------------------------------

/-- Settles O36: the padding is asked before the walk, and `raise` keeps every operand. -/
theorem unpackInvalidPadding : Obligations.UnpackInvalidPadding := by
  intro s padding
  exact ⟨_, exec_unpack_of_invalidPadding padding, endedInFault_raise s _, rfl, rfl, raise_frame s _⟩

/-- Settles O35: the walk emits `out` and is then at the end of the stream with no candidate. -/
theorem unpackEmitsGreedyText : Obligations.UnpackEmitsGreedyText := by
  intro s out padding kept emits fits
  have walk : unpackWalk s.matchLeast 0 0 0 [] s.keptStream = .ok out := by
    rw [kept, ← List.append_nil (s.streamOf out),
      unpackWalk_streamOf emits ((Nat.zero_add _).trans_le fits)]
    exact congrArg Except.ok (List.append_nil out)
  refine ⟨_, exec_unpack_of_ok padding walk, endedWell_afterUnpack s out, s.toNat_tlen_afterUnpack fits,
    s.textSymbols_afterUnpack fits, fun i hi => ?beyond, afterUnpack_frame s out⟩
  case beyond => rw [State.textAt_afterUnpack, if_neg (Nat.not_lt.2 hi)]

/-- Settles O37: behind `out` no candidate ever matches, so the walk ends in an unfinished one. -/
theorem unpackUnknownSymbolFaults : Obligations.UnpackUnknownSymbolFaults := by
  intro s out rest padding kept emits fits ne noMatch
  have walk : unpackWalk s.matchLeast 0 0 0 [] s.keptStream =
      .error (.unknownSymbolInCode (s.streamOf out).length) := by
    rw [kept, unpackWalk_streamOf emits ((Nat.zero_add _).trans_le fits),
      unpackWalk_unmatched (cand := []) (fun k _ _ => noMatch.matchLeast_take k) ne, Nat.zero_add]
    rfl
  exact ⟨_, exec_unpack_of_error padding walk, endedInFault_afterUnpackFault s _, rfl,
    State.toNat_info_of_keptPrefix kept, afterUnpackFault_frame s _⟩

/-- Settles O38: behind `out` TEXT is full (65535 is TEXT_MAX), and one more code matches. -/
theorem unpackTextOverflowFaults : Obligations.UnpackTextOverflowFaults := by
  intro s out c rest padding kept emits emitsNext full
  rw [List.append_assoc] at kept
  have room : 0 + out.length = Config.textMax := (Nat.zero_add _).trans full
  have walk : unpackWalk s.matchLeast 0 0 0 [] s.keptStream =
      .error (.textOverflow (s.streamOf out).length) := by
    rw [kept, unpackWalk_streamOf emits room.le, unpackWalk_codeOf emitsNext, if_pos room, Nat.zero_add]
    rfl
  exact ⟨_, exec_unpack_of_error padding walk, endedInFault_afterUnpackFault s _, rfl,
    State.toNat_info_of_keptPrefix kept, afterUnpackFault_frame s _⟩

/-- Settles O39: the kept bits after PACK are the stream it stored, under the same table, and a symbol whose
code no other entry begins is what the walk emits for it. -/
theorem unpackInvertsPack : Obligations.UnpackInvertsPack := by
  intro s entries fits alone
  have emits : ∀ c ∈ s.textSymbols, s.packed.Emits c := fun c hc =>
    State.emits_of_alone (entries c hc) (alone c hc)
  obtain ⟨u, run, ⟨done, -, -⟩, len, text, -⟩ := unpackEmitsGreedyText s.packed s.textSymbols
    s.pad_packed_le (State.keptStream_packed fits) emits s.length_textSymbols_le
  exact ⟨s.packed, u, exec_pack_of_fits entries fits, run, done,
    BitVec.eq_of_toNat_eq (len.trans s.length_textSymbols), fun i hi => State.textAt_congr text hi⟩

end Sys2Proof.Machine
end

section
/-! XOR (spec/46_xor.md R290 to R296): the state it answers and its frame, the empty key, and the way back by
a second XOR (R294). -/

namespace Sys2Proof.Machine

-- The state XOR answers ------------------------------------------------------------------------------------

/-- The state XOR answers when the key is not empty (R290). -/
def State.enciphered (s : State) : State :=
  { s with pay := s.pay.writeFrom 0 ((List.range s.plen.toNat).map s.cipherByte) }.finish s.payEmpty

theorem exec_xor_of_key {s : State} (key : s.klen ≠ 0#9) : exec .xor s = .next s.enciphered := by
  rcases execXor_cases s with ⟨noKey, -⟩ | ⟨-, run⟩
  · exact absurd noKey key
  · exact run

theorem exec_xor_of_noKey {s : State} (noKey : s.klen = 0#9) : exec .xor s = .next (s.raise .emptyKey) := by
  rcases execXor_cases s with ⟨-, run⟩ | ⟨key, -⟩
  · exact run
  · exact absurd noKey key

/-- EMPTY is 1 exactly when PLEN = 0 (R36, R295 (a)). -/
theorem endedWell_enciphered (s : State) : EndedWell s.enciphered (decide (s.plen = 0#16)) :=
  endedWell_finish _ _

/-- PAY after XOR: the first PLEN bytes enciphered, then what stood there (R292). -/
theorem State.payAt_enciphered (s : State) (i : Nat) :
    s.enciphered.payAt i = if i < s.plen.toNat then s.cipherByte i else s.payAt i := by
  simp only [State.payAt, State.enciphered, State.finish_pay, Memory.read_writeFrom_zero, List.length_map,
    List.length_range]
  split
  · next inside => simp [List.getD_eq_getElem?_getD, List.getElem?_range inside]
  · rfl

/-- A successful XOR writes PAY and STATUS only (R292). -/
theorem enciphered_frame (s : State) :
    s.enciphered.plen = s.plen ∧ s.enciphered.pad = s.pad ∧
      SameText s s.enciphered ∧ SameKey s s.enciphered ∧ SameFreq s s.enciphered ∧
      SameTree s s.enciphered ∧ SameTable s s.enciphered ∧ SameControl s s.enciphered ∧
      SameFault s s.enciphered ∧ SameOutside s s.enciphered :=
  ⟨rfl, rfl, ⟨rfl, fun _ => rfl⟩, ⟨rfl, fun _ => rfl⟩, fun _ => rfl, ⟨rfl, rfl, rfl, fun _ => rfl⟩,
    ⟨fun _ => rfl, fun _ _ => rfl⟩, ⟨rfl, rfl, rfl⟩, ⟨rfl, rfl, rfl⟩, ⟨rfl, rfl, rfl, rfl⟩⟩

-- The statements -------------------------------------------------------------------------------------------

/-- Settles O41: the key's length is asked before anything is read, and `raise` keeps every operand. -/
theorem xorEmptyKeyFaults : Obligations.XorEmptyKeyFaults := by
  intro s noKey
  exact ⟨_, exec_xor_of_noKey noKey, endedInFault_raise s _, rfl, rfl, raise_frame s _⟩

/-- Settles O40: the bytes below PLEN are written with the cipher's, the others are not written. -/
theorem xorEnciphersPayload : Obligations.XorEnciphersPayload := by
  intro s key
  refine ⟨_, exec_xor_of_key key, endedWell_enciphered s, fun i inside => ?enciphered, fun i beyond => ?kept,
    enciphered_frame s⟩
  case enciphered => rw [State.payAt_enciphered, if_pos inside, State.cipherByte]
  case kept => rw [State.payAt_enciphered, if_neg (Nat.not_lt.2 beyond)]

/-- Settles O42: the first XOR leaves PLEN, KLEN and KEY, so the second combines each byte with the same key
byte again, and (b xor k) xor k = b (R294). -/
theorem xorTwiceRestores : Obligations.XorTwiceRestores := by
  intro s key
  obtain ⟨t, run, -, once, past, plen, pad, -, ⟨klen, keyAt⟩, -, -, -, -, ⟨err, -, -⟩, -⟩ :=
    xorEnciphersPayload s key
  obtain ⟨u, run', ⟨done, -, -⟩, twice, past', plen', pad', -, -, -, -, -, -, ⟨err', -, -⟩, -⟩ :=
    xorEnciphersPayload t (klen ▸ key)
  rw [plen] at twice past'
  refine ⟨t, u, run, run', done, err'.trans err, plen'.trans plen, pad'.trans pad, fun i => ?_⟩
  by_cases inside : i < s.plen.toNat
  · rw [twice i inside, once i inside, klen, keyAt, BitVec.xor_assoc, BitVec.xor_self, BitVec.xor_zero]
  · have beyond := Nat.not_lt.1 inside
    exact (past' i beyond).trans (past i beyond)

end Sys2Proof.Machine
end

section
/-! SUPPORT. The code table of a text (spec/41_cnt.md R190, spec/42_build.md R211, spec/43_gen.md R236 to R238):
BUILD and GEN make it of FREQ alone, the symbols of the text have codes and no others, and no code begins another's. -/

namespace Sys2Proof.Machine

-- The table BUILD and GEN make of FREQ -----------------------------------------------------------------------

theorem treeOk_afterBuild (s : State) : s.afterBuild.TreeOk :=
  (treeOk_plant_buildTree s s.freqAt s.node).of_sameTree (sameTree_of_node rfl rfl rfl rfl)

/-- Equal tables give equal codes. -/
theorem SameTable.codeOf {s t : State} (h : SameTable s t) : t.codeOf = s.codeOf := by
  obtain ⟨clen, cbit⟩ := h
  have digits : ∀ c, t.digitAt c = s.digitAt c := fun c => by
    funext j
    simp only [State.digitAt, cbit]
  funext c
  simp only [State.codeOf, clen, digits]

/-- The entries GEN records on the tree BUILD makes of FREQ. -/
def State.builtEntries (s : State) : List (Symbol × Code) := s.afterBuild.treeEntries.getD []

theorem treeEntries_afterBuild (s : State) : s.afterBuild.treeEntries = some s.builtEntries := by
  have tree := treeOk_afterBuild s
  obtain ⟨es, hes⟩ := State.treeEntries_completes tree.childrenBelow tree.rootInside
  rw [State.builtEntries, hes, Option.getD_some]

theorem SameTree.treeEntries {s t : State} (h : SameTree s t) : t.treeEntries = s.treeEntries := by
  obtain ⟨valid, root, -, nodes⟩ := h
  simp only [State.treeEntries, valid, root, funext nodes]

/-- Entries are a function of the 256 counts (R211, R238). -/
theorem builtEntries_congr {s t : State} (counts : ∀ c, s.freqAt c = t.freqAt c) :
    s.builtEntries = t.builtEntries := by
  obtain ⟨_, _, hs, ht, valid, root, -, -, nodes⟩ := buildDependsOnFreqOnly s t counts
  cases (exec_build s).symm.trans hs
  cases (exec_build t).symm.trans ht
  have tree := treeOk_afterBuild s
  exact congrArg (·.getD []) (State.treeEntries_congr tree.childrenBelow tree.rootInside valid root nodes)

/-- The code BUILD and GEN give each symbol when they start from FREQ as it stands. -/
def State.builtCode (s : State) : Symbol → Code := (s.afterBuild.afterGen s.builtEntries).codeOf

theorem codeOf_afterGen_builtEntries (s t : State) : (t.afterGen s.builtEntries).codeOf = s.builtCode :=
  (afterGen_sameTable s.afterBuild t s.builtEntries).codeOf

theorem builtCode_congr {s t : State} (counts : ∀ c, s.freqAt c = t.freqAt c) : s.builtCode = t.builtCode := by
  rw [← codeOf_afterGen_builtEntries s t.afterBuild, builtEntries_congr counts, State.builtCode]

/-- The tree has a leaf of exactly the present symbols (R206). -/
theorem leaf_afterBuild_iff (s : State) (c : Symbol) :
    (∃ h : Handle, h.toNat < s.afterBuild.nnode.toNat ∧ (s.afterBuild.nodeAt h).leaf = true ∧
      (s.afterBuild.nodeAt h).sym = c) ↔ s.freqAt c ≠ 0#16 := by
  obtain ⟨_, run, leaves, only⟩ := buildLeavesInSymbolOrder s
  cases (exec_build s).symm.trans run
  constructor
  · rintro ⟨h, inside, leaf, rfl⟩
    obtain ⟨d, present, rank⟩ := only h inside leaf
    obtain ⟨-, node⟩ := leaves d present
    rw [← rank, BitVec.ofNat_toNat, BitVec.setWidth_eq] at node
    rwa [node]
  · intro present
    obtain ⟨inside, node⟩ := leaves c present
    have handle : (BitVec.ofNat 9 (s.rankOf c)).toNat ≤ s.rankOf c := (BitVec.toNat_ofNat ..).trans_le (Nat.mod_le _ _)
    refine ⟨_, handle.trans_lt inside, ?_, ?_⟩ <;> rw [node] <;> rfl

/-- A symbol has a code exactly when it is present (R236). -/
theorem builtCode_ne_nil_iff (s : State) (c : Symbol) : s.builtCode c ≠ [] ↔ s.freqAt c ≠ 0#16 := by
  have tree := treeOk_afterBuild s
  rw [State.builtCode, codeOf_afterGen_ne_nil_iff tree (treeEntries_afterBuild s), tree.exists_treeEntry_iff,
    leaf_afterBuild_iff]

/-- One present symbol has the code "0" (R210, R233). -/
theorem builtCode_of_single {s : State} {c : Symbol} (present : s.freqAt c ≠ 0#16)
    (only : ∀ d, d ≠ c → s.freqAt d = 0#16) : s.builtCode c = [false] := by
  have single := State.presentSymbols_eq_singleton present only
  obtain ⟨valid, last, count⟩ := State.root_afterBuild (s := s) (by simp [single])
  obtain ⟨_, run, -, -, -, node, -⟩ := buildSingleLeaf s c present only
  cases (exec_build s).symm.trans run
  have root : s.afterBuild.rootH = 0#9 := by
    rw [single, List.length_singleton] at count
    exact BitVec.eq_of_toNat_eq (by rw [BitVec.toNat_ofNat]; omega)
  refine codeOf_afterGen_of_treeEntry (treeOk_afterBuild s) (treeEntries_afterBuild s)
    ⟨valid, [], 0#9, root.symm, ?_, ?_⟩ <;> rw [node] <;> rfl

-- The table of a text ------------------------------------------------------------------------------------------

/-- The reset state with the counts of a text in FREQ. -/
def counting (t : List Symbol) : State := { State.reset with freq := countSymbols t }

/-- The code CNT, BUILD and GEN give each symbol when they start from a text. -/
def textCode (t : List Symbol) : Symbol → Code := (counting t).builtCode

theorem freqAt_counting_ne_zero_iff {t : List Symbol} (fits : textFits t = true) (c : Symbol) :
    (counting t).freqAt c ≠ 0#16 ↔ c ∈ t := by
  have bound : t.length < 2 ^ 16 := Nat.lt_succ_of_le (of_decide_eq_true fits)
  have count : ((counting t).freqAt c).toNat = t.count c := toNat_read_countSymbols bound c
  rw [ne_eq, ← BitVec.toNat_inj, count]
  exact List.count_eq_zero.not.trans not_not

/-- Exactly the symbols of a text have a code (R236). -/
theorem textCode_ne_nil_iff {t : List Symbol} (fits : textFits t = true) (c : Symbol) :
    textCode t c ≠ [] ↔ c ∈ t :=
  (builtCode_ne_nil_iff _ c).trans (freqAt_counting_ne_zero_iff fits c)

/-- No code begins another symbol's (R236). -/
theorem textCode_prefixFree (t : List Symbol) {a b : Symbol} (ne : a ≠ b) (ha : textCode t a ≠ [])
    (hb : textCode t b ≠ []) : ¬ textCode t a <+: textCode t b :=
  prefixFree_afterGen (treeOk_afterBuild _) (treeEntries_afterBuild _) a b ne ha hb

theorem length_textCode_le (t : List Symbol) (c : Symbol) : (textCode t c).length ≤ Config.codeMax := by
  rw [textCode, State.builtCode, State.length_codeOf]
  exact Nat.le_of_lt_succ (BitVec.isLt _)

/-- A text of one symbol, however often, has the table with the one code "0" (R313). -/
theorem textCode_replicate {n : Nat} (hn : n ≠ 0) (c : Symbol) (fits : textFits (List.replicate n c) = true)
    (d : Symbol) : textCode (List.replicate n c) d = if d = c then [false] else [] := by
  have present := freqAt_counting_ne_zero_iff fits
  simp only [List.mem_replicate, hn, ne_eq, not_false_eq_true, true_and] at present
  split
  · next same =>
    subst same
    exact builtCode_of_single ((present d).2 rfl) fun e other => not_not.1 (mt (present e).1 other)
  · next other => exact not_not.1 (mt ((builtCode_ne_nil_iff _ d).1) (mt (present d).1 other))

end Sys2Proof.Machine
end

section
/-! SUPPORT. The lines of a host program (spec/30_encoding.md R150, R151, spec/47_pipeline.md R300 to R302): what `RUN`
does from a ready state, and what a sequence of writes to operands leaves to be read. -/

namespace Sys2Proof.Machine

-- RUN ------------------------------------------------------------------------------------------------------------

/-- The state the engine's step starts from: the command's word accepted by a CMD write (R161). -/
def State.latched (s : State) (i : Instr) : State := { s.accept (encode i) with resp := some .written }

/-- The state after a read of STATUS, as WAIT makes it (R300). -/
def State.polled (s : State) : State := { s with resp := some (.value s.statusWord) }

theorem State.Ready.noFault {s : State} (h : s.Ready) : s.err = false := by
  obtain ⟨-, -, ok⟩ := h
  exact ok

theorem State.rd_status {s : State} (hr : s.rstN = true) : s.rd (.reg .status) = s.polled :=
  State.rd_of_allowed hr rfl s.phaseAllowsRead_status

theorem State.Ready.wr_cmd {s : State} (h : s.Ready) (i : Instr) : s.wr (.reg .cmd) (encode i) = s.latched i :=
  State.wr_of_admits h.1 rfl ((h.admitsWrite_iff _ _).2 ⟨rfl, rfl⟩)

section

variable {t : State} (hr : t.rstN = true)

include hr

/-- Bit 2 of STATUS decides what follows WAIT (R300). -/
theorem see_status_polled : (t.polled.see (.reg .status)).getLsbD 2 = t.err := by
  rw [State.see_status (s := t.polled) hr, State.getLsbD_statusWord]
  rfl

theorem finishRun_of_ok (ok : t.err = false) :
    finishRun t.polled = { state := t.polled, report := .finished } := by
  rw [finishRun, see_status_polled hr, ok, State.rd_status (s := t.polled) hr]
  rfl

/-- A fault is reported with its CAUSE and INFO (R300). -/
theorem finishRun_of_err (err : t.err = true) :
    (finishRun t.polled).report = .fault (t.cause.setWidth 32) t.info := by
  have cause : t.polled.see (.reg .cause) = t.cause.setWidth 32 := State.see_control (s := t.polled) hr (by simp)
  have info : t.polled.see (.reg .info) = t.info := State.see_control (s := t.polled) hr (by simp)
  rw [finishRun, see_status_polled hr, err, cause, info]
  rfl

end

section

variable {s t : State} {i : Instr} (h : s.Ready) (run : exec i (s.latched i) = .next t)

include h run

theorem rstN_of_run : t.rstN = true := by
  obtain ⟨-, -, -, -, -, hr, -⟩ := exec_ends run
  exact hr.trans h.1

theorem runCommand_eq : runCommand i s = finishRun t.polled := by
  have step : engineStep (s.latched i) = .next t :=
    (engineStep_of_decode_ok (s := s.latched i) h.1 rfl (decode_encode i)).trans run
  have written : (s.latched i).resp = some .written := rfl
  simp only [runCommand, h.wr_cmd, written, if_true, step, State.rd_status (rstN_of_run h run)]

/-- A command that ends without a fault leaves a ready state. -/
theorem ready_polled (ok : t.err = false) : t.polled.Ready := by
  have hr := rstN_of_run h run
  obtain ⟨-, idle, -⟩ := exec_ends run
  exact ⟨hr, idle, ok⟩

/-- And it lets the program go on. -/
theorem play_run_of_ok (ok : t.err = false) (rest : List HostLine) :
    play s (.run i :: rest) = play t.polled rest := by
  simp only [play, playLine, runCommand_eq h run, finishRun_of_ok (rstN_of_run h run) ok, if_true]

/-- A command that ends in a fault ends the program with it (R300). -/
theorem play_run_of_err (err : t.err = true) (rest : List HostLine) :
    (play s (.run i :: rest)).report = .fault (t.cause.setWidth 32) t.info := by
  have report : (playLine s (.run i)).report = .fault (t.cause.setWidth 32) t.info := by
    rw [playLine, runCommand_eq h run, finishRun_of_err (rstN_of_run h run) err]
  rw [play, report, if_neg (by simp), report]

end

-- Writes to operands -----------------------------------------------------------------------------------------------

/-- What ENCODE and DECODE load: a text, a key, a payload with its padding, a code table. -/
structure Operands where
  text  : List Symbol := []
  key   : List Byte := []
  pay   : List Byte := []
  pad   : Word := 0#32
  table : List (Symbol × Code) := []

/-- The code a mapping gives a symbol, none being no digit. -/
def codeIn (table : List (Symbol × Code)) (c : Symbol) : Code := (tableLookup table c).getD []

/-- The word the driver writes to a register (R301). -/
def Operands.regWord (x : Operands) : Reg → Word
  | .tlen => BitVec.ofNat 32 x.text.length
  | .klen => BitVec.ofNat 32 x.key.length
  | .plen => BitVec.ofNat 32 x.pay.length
  | .pad => x.pad
  | _ => 0#32

/-- The word the driver writes to a location (R301, R302). -/
def Operands.word (x : Operands) : Location → Word
  | .reg r => x.regWord r
  | .freq _ => 0#32
  | .clen c => BitVec.ofNat 32 (codeIn x.table c).length
  | .key i => (x.key.getD i.toNat 0#8).setWidth 32
  | .node _ _ => 0#32
  | .cbit c k => codeWord (codeIn x.table c) k.toNat
  | .text i => (x.text.getD i.toNat 0#8).setWidth 32
  | .pay i => (x.pay.getD i.toNat 0#8).setWidth 32

/-- HXC can represent the operands (R306). -/
structure Operands.Fits (x : Operands) : Prop where
  text : x.text.length ≤ Config.textMax
  key : x.key.length ≤ Config.keyMax
  pay : x.pay.length ≤ Config.payMax
  table : ∀ c, (codeIn x.table c).length ≤ Config.codeMax

theorem toNat_setWidth_byte_lt (b : BitVec 8) : (b.setWidth 32).toNat < 2 ^ 8 :=
  (BitVec.toNat_setWidth_of_le (by decide)).trans_lt b.isLt

theorem toNat_ofNat_word {n : Nat} (h : n < 2 ^ 32) : (BitVec.ofNat 32 n).toNat = n :=
  (BitVec.toNat_ofNat ..).trans (Nat.mod_eq_of_lt h)

/-- Operands HXC can represent pass the value check everywhere (R93). -/
theorem Operands.Fits.value_fits {x : Operands} (fits : x.Fits) (l : Location) :
    valueFits l (x.word l) = true := by
  obtain ⟨text, key, pay, table⟩ := fits
  simp only [Config.textMax, Config.keyMax, Config.payMax, Config.codeMax] at text key pay table
  obtain ⟨v, hv⟩ : ∃ v, v = x.word l := ⟨_, rfl⟩
  rw [← hv]
  cases l with
  | text | key | pay => exact decide_eq_true (hv ▸ toNat_setWidth_byte_lt _)
  | clen c =>
    have short := table c
    have value : v.toNat = _ := (congrArg _ hv).trans (toNat_ofNat_word (by omega))
    exact decide_eq_true (by omega)
  | reg r =>
    cases r with
    | tlen | plen =>
      have value : v.toNat = _ := (congrArg _ hv).trans (toNat_ofNat_word (by omega))
      exact decide_eq_true (value.trans_lt (by omega))
    | klen =>
      have value : v.toNat = _ := (congrArg _ hv).trans (toNat_ofNat_word (by omega))
      exact decide_eq_true (value.trans_le key)
    | _ => rfl
  | freq =>
    rw [show v = 0#32 from hv]
    rfl
  | node | cbit => rfl

/-- A location a driver loads: it exists, is writable, and a write only stores. -/
def Loadable (l : Location) : Prop :=
  l.wf = true ∧ hostWritable l = true ∧ l ∉ [.reg .cmd, .reg .status, .reg .ctrl]

/-- The program that writes the operands to the locations of a list. -/
def loadLines (x : Operands) (ls : List Location) : List HostLine := ls.map fun l => .wr l (x.word l)

theorem loadLines_append (x : Operands) (ls ms : List Location) :
    loadLines x (ls ++ ms) = loadLines x ls ++ loadLines x ms :=
  List.map_append

/-- A write that only stores takes no fault. -/
theorem err_writeLocation (s : State) {l : Location} (ordinary : l ∉ [.reg .cmd, .reg .status, .reg .ctrl])
    (v : Word) : (s.writeLocation v l).err = s.err := by
  cases l with
  | reg r =>
    cases r with
    | cmd | status | ctrl => simp at ordinary
    | _ => rfl
  | _ => rfl

theorem Loadable.ready_writeLocation {s : State} (h : s.Ready) {l : Location} (hl : Loadable l)
    (v : Word) (r : Option Response) : State.Ready { s.writeLocation v l with resp := r } := by
  obtain ⟨hr, idle, ok⟩ := h
  obtain ⟨-, -, ordinary⟩ := hl
  refine ⟨(writeLocation_rstN s l v).trans hr, ?_, (err_writeLocation s ordinary v).trans ok⟩
  rcases writeLocation_phase s v l with same | rfl | ⟨rfl, -⟩
  · exact same.trans idle
  · simp at ordinary
  · simp at ordinary

/-- Loading performs every write, and every location written, or right before, reads what it should. -/
theorem play_loadLines {x : Operands} (fits : x.Fits) {ls : List Location} (hl : ∀ l ∈ ls, Loadable l)
    {s : State} (h : s.Ready) (rest : List HostLine) :
    ∃ u : State, u.Ready ∧ play s (loadLines x ls ++ rest) = play u rest ∧
      ∀ l, l ∈ ls ∨ s.readLocation l = x.word l → u.readLocation l = x.word l := by
  induction ls generalizing s with
  | nil => exact ⟨s, h, rfl, fun l hl => by simpa using hl⟩
  | cons l ls ih =>
    obtain ⟨head, tail⟩ := List.forall_mem_cons.1 hl
    have ⟨exists_l, writable, ordinary⟩ := head
    have value := fits.value_fits l
    have stored := State.wr_of_admits h.1 exists_l ((h.admitsWrite_iff _ _).2 ⟨writable, value⟩)
    obtain ⟨u, ready, next, reads⟩ := ih tail (head.ready_writeLocation h (x.word l) (some .written))
    refine ⟨u, ready, ?_, fun m hm => reads m ?_⟩
    · rw [← next, loadLines, List.map_cons, List.cons_append, play, playLine, stored]
      rfl
    · by_cases same : m = l
      · subst same
        exact .inr (readLocation_writeLocation_same s ordinary writable value)
      · refine (hm.imp_left fun mem => (List.mem_cons.1 mem).resolve_left same).imp_right fun before => ?_
        exact (readLocation_writeLocation_other s ordinary same).trans before

end Sys2Proof.Machine
end

section
/-! SUPPORT. LDTEXT, LDKEY, LDPAY and LDCODE (spec/47_pipeline.md R301, R302): the locations they write, and the
operands HXC holds once these read as loaded. -/

namespace Sys2Proof.Machine

-- The locations of each load -------------------------------------------------------------------------------------

def textLocations (n : Nat) : List Location :=
  (List.range n).map (fun i => .text (BitVec.ofNat 16 i)) ++ [.reg .tlen]

def keyLocations (n : Nat) : List Location :=
  (List.range n).map (fun i => .key (BitVec.ofNat 8 i)) ++ [.reg .klen]

def payLocations (n : Nat) : List Location :=
  (List.range n).map (fun i => .pay (BitVec.ofNat 16 i)) ++ [.reg .plen, .reg .pad]

/-- The words that hold digits of a code, and CLEN (R302). -/
def entryLocations (table : List (Symbol × Code)) (c : Symbol) : List Location :=
  (List.range (((codeIn table c).length + 31) / 32)).map (fun k => .cbit c (BitVec.ofNat 3 k)) ++ [.clen c]

def codeLocations (table : List (Symbol × Code)) : List Location := allSymbols.flatMap (entryLocations table)

theorem toNat_ofNat_half {i : Nat} (h : i < 65535) : (BitVec.ofNat 16 i).toNat = i :=
  (BitVec.toNat_ofNat ..).trans (Nat.mod_eq_of_lt (by omega))

theorem toNat_ofNat_byte {i : Nat} (h : i < 256) : (BitVec.ofNat 8 i).toNat = i :=
  (BitVec.toNat_ofNat ..).trans (Nat.mod_eq_of_lt h)

theorem wf_text {i : Nat} (h : i < Config.textMax) : Location.wf (.text (BitVec.ofNat 16 i)) = true :=
  decide_eq_true ((toNat_ofNat_half h).trans_lt h)

theorem wf_pay {i : Nat} (h : i < Config.payMax) : Location.wf (.pay (BitVec.ofNat 16 i)) = true :=
  decide_eq_true ((toNat_ofNat_half h).trans_lt h)

/-- A list of elements and registers is loadable if its parts are. -/
theorem forall_mem_elements {P : Location → Prop} {n : Nat} {loc : Nat → Location} {regs : List Location}
    (elements : ∀ i < n, P (loc i)) (registers : ∀ l ∈ regs, P l) : ∀ l ∈ (List.range n).map loc ++ regs, P l := by
  simpa [or_imp, forall_and] using ⟨elements, registers⟩

theorem loadable_textLocations {n : Nat} (h : n ≤ Config.textMax) : ∀ l ∈ textLocations n, Loadable l :=
  forall_mem_elements (fun _ hi => ⟨wf_text (hi.trans_le h), rfl, by simp⟩)
    (by simp [Loadable, Location.wf, hostWritable])

theorem loadable_payLocations {n : Nat} (h : n ≤ Config.payMax) : ∀ l ∈ payLocations n, Loadable l :=
  forall_mem_elements (fun _ hi => ⟨wf_pay (hi.trans_le h), rfl, by simp⟩)
    (by simp [Loadable, Location.wf, hostWritable])

theorem loadable_keyLocations (n : Nat) : ∀ l ∈ keyLocations n, Loadable l :=
  forall_mem_elements (fun _ _ => ⟨rfl, rfl, by simp⟩) (by simp [Loadable, Location.wf, hostWritable])

theorem loadable_codeLocations (table : List (Symbol × Code)) : ∀ l ∈ codeLocations table, Loadable l := by
  intro l hl
  obtain ⟨c, -, hl⟩ := List.mem_flatMap.1 hl
  exact forall_mem_elements (fun _ _ => ⟨rfl, rfl, by simp⟩) (by simp [Loadable, Location.wf, hostWritable]) l hl

-- The loads write the operands there -----------------------------------------------------------------------------

theorem loadFrom_eq {x : Operands} {loc : Nat → Location} {bs : List (BitVec 8)} {j : Nat}
    (h : ∀ i < bs.length, x.word (loc (j + i)) = (bs.getD i 0#8).setWidth 32) :
    loadFrom loc j bs = loadLines x ((List.range' j bs.length).map loc) := by
  induction bs generalizing j with
  | nil => rfl
  | cons b bs ih =>
    have tail := ih (j := j + 1) fun i hi => by
      rw [Nat.add_right_comm, Nat.add_assoc]
      exact h (i + 1) (Nat.succ_lt_succ hi)
    have head : x.word (loc j) = b.setWidth 32 := h 0 (Nat.succ_pos _)
    rw [loadFrom, tail, List.length_cons, List.range'_succ, List.map_cons, loadLines, loadLines, List.map_cons, head]

/-- A load of a sequence: its elements, then its registers (R301). -/
theorem loadFrom_append {x : Operands} {loc : Nat → Location} {bs : List (BitVec 8)} (regs : List Location)
    (elements : ∀ i < bs.length, x.word (loc i) = (bs.getD i 0#8).setWidth 32) :
    loadFrom loc 0 bs ++ loadLines x regs = loadLines x ((List.range bs.length).map loc ++ regs) := by
  rw [loadLines_append, List.range_eq_range',
    loadFrom_eq fun i hi => by rw [Nat.zero_add]; exact elements i hi]

section

variable {x : Operands} (fits : x.Fits) {i : Nat}

include fits

theorem word_text (hi : i < x.text.length) :
    x.word (.text (BitVec.ofNat 16 i)) = (x.text.getD i 0#8).setWidth 32 := by
  rw [Operands.word, toNat_ofNat_half (hi.trans_le fits.text)]

theorem word_key (hi : i < x.key.length) :
    x.word (.key (BitVec.ofNat 8 i)) = (x.key.getD i 0#8).setWidth 32 := by
  rw [Operands.word, toNat_ofNat_byte (hi.trans_le fits.key)]

theorem word_pay (hi : i < x.pay.length) :
    x.word (.pay (BitVec.ofNat 16 i)) = (x.pay.getD i 0#8).setWidth 32 := by
  rw [Operands.word, toNat_ofNat_half (hi.trans_le fits.pay)]

theorem ldText_eq : ldText x.text = loadLines x (textLocations x.text.length) :=
  loadFrom_append [.reg .tlen] fun _ => word_text fits

theorem ldKey_eq : ldKey x.key = loadLines x (keyLocations x.key.length) :=
  loadFrom_append [.reg .klen] fun _ => word_key fits

theorem ldPay_eq : ldPay x.pay x.pad = loadLines x (payLocations x.pay.length) :=
  loadFrom_append [.reg .plen, .reg .pad] fun _ => word_pay fits

end

/-- A code a mapping lists has 1 to 255 digits, if HXC can hold the mapping (R133, R306). -/
theorem length_of_tableLookup {table : List (Symbol × Code)} (fits : tableFits table = true) {c : Symbol}
    {d : Code} (h : tableLookup table c = some d) : 0 < d.length ∧ d.length ≤ Config.codeMax := by
  obtain ⟨e, found, rfl⟩ := Option.map_eq_some_iff.1 h
  simp only [tableFits, Bool.and_eq_true, List.all_eq_true] at fits
  simpa [Code.wf] using fits.2 e (List.mem_of_find?_eq_some found)

theorem length_codeIn_le {table : List (Symbol × Code)} (fits : tableFits table = true) (c : Symbol) :
    (codeIn table c).length ≤ Config.codeMax := by
  unfold codeIn
  cases h : tableLookup table c with
  | none => exact Nat.zero_le _
  | some d => exact (length_of_tableLookup fits h).2

theorem toNat_ofNat_cbitWord {n k : Nat} (hn : n ≤ Config.codeMax) (hk : k < (n + 31) / 32) :
    (BitVec.ofNat 3 k).toNat = k := by
  simp only [Config.codeMax] at hn
  exact (BitVec.toNat_ofNat ..).trans (Nat.mod_eq_of_lt (by omega))

theorem ldEntry_eq {x : Operands} (fits : tableFits x.table = true) (c : Symbol) :
    ldEntry x.table c = loadLines x (entryLocations x.table c) := by
  rw [entryLocations, loadLines_append, ldEntry]
  cases h : tableLookup x.table c with
  | none => simp [loadLines, Operands.word, codeIn, h]
  | some d =>
    obtain ⟨pos, short⟩ := length_of_tableLookup fits h
    have code : codeIn x.table c = d := by rw [codeIn, h, Option.getD_some]
    have words : (d.length - 1) / 32 + 1 = (d.length + 31) / 32 := by omega
    simp only [loadLines, List.map_map, List.map_cons, List.map_nil, code, words, Operands.word]
    congr 1
    refine List.map_congr_left fun k hk => ?_
    simp only [Function.comp_apply, code, toNat_ofNat_cbitWord short (List.mem_range.1 hk)]

theorem ldCode_eq {x : Operands} (fits : tableFits x.table = true) :
    ldCode x.table = loadLines x (codeLocations x.table) := by
  rw [ldCode, codeLocations, loadLines, List.map_flatMap, List.flatMap_def]
  exact congrArg List.flatten (List.map_congr_left fun c _ => ldEntry_eq fits c)

-- What HXC holds then --------------------------------------------------------------------------------------------

theorem setWidth_word_inj {w : Nat} {a b : BitVec w} (hw : w ≤ 32) (h : a.setWidth 32 = b.setWidth 32) : a = b := by
  have value := congrArg BitVec.toNat h
  rw [BitVec.toNat_setWidth_of_le hw, BitVec.toNat_setWidth_of_le hw] at value
  exact BitVec.eq_of_toNat_eq value

theorem toNat_of_setWidth_eq_ofNat {w n : Nat} {a : BitVec w} (hw : w ≤ 32) (hn : n < 2 ^ 32)
    (h : a.setWidth 32 = BitVec.ofNat 32 n) : a.toNat = n := by
  rw [← BitVec.toNat_setWidth_of_le hw, h, toNat_ofNat_word hn]

theorem map_range_eq {n : Nat} {f : Nat → BitVec 8} {bs : List (BitVec 8)} (len : n = bs.length)
    (h : ∀ i < bs.length, f i = bs.getD i 0#8) : (List.range n).map f = bs := by
  refine List.ext_getElem (by simpa using len) fun i _ hi => ?_
  rw [List.getElem_map, List.getElem_range, h i hi, List.getElem_eq_getD 0#8]

theorem readLocation_text (s : State) {i : Nat} (h : i < Config.textMax) :
    s.readLocation (.text (BitVec.ofNat 16 i)) = (s.textAt i).setWidth 32 := by
  rw [State.readLocation, toNat_ofNat_half h]

theorem readLocation_pay (s : State) {i : Nat} (h : i < Config.payMax) :
    s.readLocation (.pay (BitVec.ofNat 16 i)) = (s.payAt i).setWidth 32 := by
  rw [State.readLocation, toNat_ofNat_half h]

theorem readLocation_key (s : State) {i : Nat} (h : i < Config.keyMax) :
    s.readLocation (.key (BitVec.ofNat 8 i)) = (s.keyAt i).setWidth 32 := by
  rw [State.readLocation, toNat_ofNat_byte h]

/-- KLEN and KEY hold a key. -/
def State.HoldsKey (s : State) (k : List Byte) : Prop :=
  s.klen.toNat = k.length ∧ ∀ i < k.length, s.keyAt i = k.getD i 0#8

theorem mem_elements {n i : Nat} (hi : i < n) (loc : Nat → Location) (regs : List Location) :
    loc i ∈ (List.range n).map loc ++ regs :=
  List.mem_append_left _ (List.mem_map_of_mem (List.mem_range.2 hi))

section

variable {x : Operands} {u : State} (fits : x.Fits)

include fits

theorem textSymbols_of_loaded (reads : ∀ l ∈ textLocations x.text.length, u.readLocation l = x.word l) :
    u.textSymbols = x.text := by
  have bound : x.text.length ≤ 65535 := fits.text
  have len := reads (.reg .tlen) (List.mem_append_right _ (by simp))
  refine map_range_eq (toNat_of_setWidth_eq_ofNat (by decide) (by omega) len) fun i hi => ?_
  have element := reads _ (mem_elements hi _ _)
  rw [readLocation_text u (hi.trans_le bound), word_text fits hi] at element
  exact setWidth_word_inj (by decide) element

theorem payBytes_of_loaded (reads : ∀ l ∈ payLocations x.pay.length, u.readLocation l = x.word l) :
    u.payBytes = x.pay ∧ u.pad = x.pad := by
  have bound : x.pay.length ≤ 65535 := fits.pay
  have len := reads (.reg .plen) (List.mem_append_right _ (by simp))
  refine ⟨map_range_eq (toNat_of_setWidth_eq_ofNat (by decide) (by omega) len) fun i hi => ?_,
    reads (.reg .pad) (List.mem_append_right _ (by simp))⟩
  have element := reads _ (mem_elements hi _ _)
  rw [readLocation_pay u (hi.trans_le bound), word_pay fits hi] at element
  exact setWidth_word_inj (by decide) element

theorem holdsKey_of_loaded (reads : ∀ l ∈ keyLocations x.key.length, u.readLocation l = x.word l) :
    u.HoldsKey x.key := by
  have bound : x.key.length ≤ 256 := fits.key
  have len := reads (.reg .klen) (List.mem_append_right _ (by simp))
  refine ⟨toNat_of_setWidth_eq_ofNat (by decide) (by omega) len, fun i hi => ?_⟩
  have element := reads _ (mem_elements hi _ _)
  rw [readLocation_key u (hi.trans_le bound), word_key fits hi] at element
  exact setWidth_word_inj (by decide) element

/-- A symbol whose CLEN and CBIT words read as loaded has the code of the mapping (R302). -/
theorem codeOf_of_loaded (reads : ∀ l ∈ codeLocations x.table, u.readLocation l = x.word l) :
    u.codeOf = codeIn x.table := by
  funext c
  have short := fits.table c
  have entry : ∀ l ∈ entryLocations x.table c, u.readLocation l = x.word l := fun l hl =>
    reads l (List.mem_flatMap.2 ⟨c, mem_allSymbols c, hl⟩)
  have len : (u.clenAt c).toNat = (codeIn x.table c).length :=
    toNat_of_setWidth_eq_ofNat (by decide) (short.trans_lt (by decide))
      (entry (.clen c) (List.mem_append_right _ (by simp)))
  refine List.ext_getElem (by rw [State.length_codeOf, len]) fun j _ hj => ?_
  have word := entry _ (mem_elements (i := j / 32) (by omega) _ _)
  rw [State.readLocation, Operands.word, toNat_ofNat_cbitWord short (by omega)] at word
  simp only [State.codeOf, List.getElem_map, List.getElem_range]
  rw [State.digitAt, word, getLsbD_codeWord _ _ (Nat.mod_lt _ (by decide)), Nat.div_add_mod,
    List.getElem_eq_getD false]

end

end Sys2Proof.Machine
end

section
/-! SUPPORT. What ENCODE and DECODE read at their end (spec/47_pipeline.md R302 to R304): the ciphertext or text HXC
holds, and its code table as a mapping, which gives every code back. -/

namespace Sys2Proof.Machine

-- The code table as a mapping ------------------------------------------------------------------------------------

/-- The entry of a symbol in the mapping of a code, if it has one (R302). -/
def codeEntry (code : Symbol → Code) (c : Symbol) : Option (Symbol × Code) :=
  if code c = [] then none else some (c, code c)

/-- The mapping RDCODE reads: every symbol that has a code, in order (R302). -/
def codeMapping (code : Symbol → Code) : List (Symbol × Code) := allSymbols.filterMap (codeEntry code)

theorem codeEntry_eq_some {code : Symbol → Code} {c : Symbol} {e : Symbol × Code} :
    codeEntry code c = some e ↔ code c ≠ [] ∧ e = (c, code c) := by
  unfold codeEntry
  split <;> simp_all [eq_comm]

/-- A mapping lists no symbol twice. -/
theorem nodup_codeMapping (code : Symbol → Code) : ((codeMapping code).map Prod.fst).Nodup := by
  have symbols : (codeMapping code).map Prod.fst = allSymbols.filter (fun c => decide (code c ≠ [])) := by
    rw [codeMapping, List.map_filterMap, ← List.filterMap_eq_filter]
    refine List.filterMap_congr fun c _ => ?_
    by_cases h : code c = [] <;> simp [codeEntry, Option.guard, h]
  rw [symbols]
  exact (allSymbols_rising.imp fun h e => h.ne (congrArg BitVec.toNat e)).filter _

/-- HXC can hold a mapping of codes HXC held (R306). -/
theorem tableFits_codeMapping {code : Symbol → Code} (short : ∀ c, (code c).length ≤ Config.codeMax) :
    tableFits (codeMapping code) = true := by
  have codes : ∀ e ∈ codeMapping code, Code.wf e.2 = true := fun e he => by
    obtain ⟨c, -, hc⟩ := List.mem_filterMap.1 he
    obtain ⟨entry, rfl⟩ := codeEntry_eq_some.1 hc
    simpa [Code.wf, List.length_pos_iff] using ⟨entry, short c⟩
  simpa [tableFits, nodup_codeMapping code] using fun c d h => codes (c, d) h

/-- The mapping gives each symbol its code. -/
theorem codeIn_codeMapping (code : Symbol → Code) : codeIn (codeMapping code) = code := by
  funext c
  rw [codeIn, tableLookup]
  cases found : (codeMapping code).find? (fun e => decide (e.1 = c)) with
  | none =>
    refine (not_not.1 fun entry => ?_ : code c = []).symm
    have listed : (c, code c) ∈ codeMapping code :=
      List.mem_filterMap.2 ⟨c, mem_allSymbols c, codeEntry_eq_some.2 ⟨entry, rfl⟩⟩
    simpa using List.find?_eq_none.1 found _ listed
  | some e =>
    obtain ⟨d, -, hd⟩ := List.mem_filterMap.1 (List.mem_of_find?_eq_some found)
    obtain ⟨-, rfl⟩ := codeEntry_eq_some.1 hd
    have same : d = c := by simpa using List.find?_some found
    rw [Option.map_some, Option.getD_some, same]

-- The reads ------------------------------------------------------------------------------------------------------

theorem length_payBytes (s : State) : s.payBytes.length = s.plen.toNat := by
  simp [State.payBytes]

section

variable {s : State} (hr : s.rstN = true) (idle : s.phase = .idle)

include hr idle

theorem rdCode_eq : s.rdCode = codeMapping s.codeOf := by
  refine List.filterMap_congr fun c _ => ?_
  have len : (s.see (.clen c)).toNat = (s.clenAt c).toNat := State.toNat_see_idle hr idle rfl (by decide) rfl
  have digits : (List.range (s.clenAt c).toNat).map
      (fun j => (s.see (.cbit c (BitVec.ofNat 3 (j / 32)))).getLsbD (j % 32)) = s.codeOf c := by
    refine List.map_congr_left fun j hj => ?_
    have inside := List.mem_range.1 hj
    have bound := (s.clenAt c).isLt
    have word : (BitVec.ofNat 3 (j / 32)).toNat = j / 32 :=
      (BitVec.toNat_ofNat ..).trans (Nat.mod_eq_of_lt (by omega))
    rw [State.see_idle hr idle rfl, State.readLocation, word, State.digitAt]
  have none_iff : (s.clenAt c).toNat = 0 ↔ s.codeOf c = [] := by
    rw [← State.length_codeOf, List.length_eq_zero_iff]
  simp only [len, digits, codeEntry, none_iff]

theorem encoded_eq : s.encoded = { cipher := s.payBytes, table := codeMapping s.codeOf, padding := s.pad } := by
  have len : (s.see (.reg .plen)).toNat = s.plen.toNat := State.toNat_see_idle hr idle rfl (by decide) rfl
  rw [State.encoded, len, rdCode_eq hr idle, State.see_idle hr idle (l := .reg .pad) rfl]
  congr 1
  refine List.map_congr_left fun i hi => ?_
  have inside : i < Config.payMax := (List.mem_range.1 hi).trans_le (Nat.le_of_lt_succ s.plen.isLt)
  rw [State.see_idle hr idle (wf_pay inside), readLocation_pay s inside, BitVec.setWidth_setWidth_of_le _ (by decide),
    BitVec.setWidth_eq]

theorem decoded_eq : s.decoded = s.textSymbols := by
  have len : (s.see (.reg .tlen)).toNat = s.tlen.toNat := State.toNat_see_idle hr idle rfl (by decide) rfl
  rw [State.decoded, len]
  refine List.map_congr_left fun i hi => ?_
  have inside : i < Config.textMax := (List.mem_range.1 hi).trans_le (Nat.le_of_lt_succ s.tlen.isLt)
  rw [State.see_idle hr idle (wf_text inside), readLocation_text s inside, BitVec.setWidth_setWidth_of_le _ (by decide),
    BitVec.setWidth_eq]

end

-- The cipher -----------------------------------------------------------------------------------------------------

/-- Byte i of a payload under a key: b[i] xor k[i mod |k|] (spec/46_xor.md R292). -/
def cipher (k b : List Byte) : List Byte := b.mapIdx fun i x => x ^^^ k.getD (i % k.length) 0#8

@[simp] theorem length_cipher (k b : List Byte) : (cipher k b).length = b.length := List.length_mapIdx

/-- The cipher is its own inverse (R294). -/
theorem cipher_cipher (k b : List Byte) : cipher k (cipher k b) = b := by
  refine List.ext_getElem (by simp) fun i _ _ => ?_
  simp only [cipher, List.getElem_mapIdx, BitVec.xor_assoc, BitVec.xor_self, BitVec.xor_zero]

/-- XOR enciphers the payload under the key HXC holds (R292). -/
theorem payBytes_enciphered {s : State} {k : List Byte} (key : s.HoldsKey k) (ne : k ≠ []) :
    s.enciphered.payBytes = cipher k s.payBytes := by
  obtain ⟨len, bytes⟩ := key
  have plen : s.enciphered.plen = s.plen := (enciphered_frame s).1
  refine List.ext_getElem (by rw [length_cipher, length_payBytes, length_payBytes, plen]) fun i hi _ => ?_
  rw [length_payBytes, plen] at hi
  simp only [cipher, State.payBytes, List.getElem_mapIdx, List.getElem_map, List.getElem_range]
  rw [State.payAt_enciphered, if_pos hi, State.cipherByte, len, bytes _ (Nat.mod_lt _ (List.length_pos_iff.2 ne))]

/-- A key of HXC's is empty exactly when KLEN is 0. -/
theorem State.HoldsKey.klen_eq_zero_iff {s : State} {k : List Byte} (key : s.HoldsKey k) : s.klen = 0#9 ↔ k = [] := by
  rw [← List.length_eq_zero_iff, ← key.1, ← BitVec.toNat_inj]
  rfl

-- The packed payload ---------------------------------------------------------------------------------------------

theorem payBytes_storePayload (s : State) {ds : List Bool} (fits : ds.length ≤ 8 * Config.payMax) :
    (s.storePayload ds).payBytes = packBytes ds := by
  refine map_range_eq (State.plen_storePayload s ds fits) fun i hi => ?_
  rw [State.payAt, State.storePayload_pay, Memory.read_writeFrom_zero, if_pos hi]
  rfl

/-- The kept bits are a function of the payload's bytes and padding (spec/40_common.md R180). -/
theorem keptStream_congr {s t : State} (bytes : s.payBytes = t.payBytes) (pad : s.pad = t.pad) :
    s.keptStream = t.keptStream := by
  have len : s.plen.toNat = t.plen.toNat := by rw [← length_payBytes, bytes, length_payBytes]
  have kept : s.keptBits = t.keptBits := by rw [State.keptBits, State.keptBits, len, pad]
  rw [State.keptStream, State.keptStream, kept]
  refine List.map_congr_left fun p hp => ?_
  have inside := List.mem_range.1 hp
  rw [State.keptBits] at inside
  have byte : s.payAt (p / 8) = t.payAt (p / 8) := by
    have := congrArg (·[p / 8]?) bytes
    simpa [State.payBytes, List.getElem?_range (show p / 8 < s.plen.toNat by omega),
      List.getElem?_range (show p / 8 < t.plen.toNat by omega)] using this
  rw [State.payBit, State.payBit, byte]

/-- The kept bits of a payload that holds a packed stream are the stream (R141, R273). -/
theorem keptStream_of_packBytes {s : State} {ds : List Bool} (fits : ds.length ≤ 8 * Config.payMax)
    (bytes : s.payBytes = packBytes ds) (pad : s.pad = BitVec.ofNat 32 (padCount ds.length)) :
    s.keptStream = ds :=
  (keptStream_congr (t := s.storePayload ds) (bytes.trans (payBytes_storePayload s fits).symm) pad).trans
    (s.keptStream_storePayload ds fits)

end Sys2Proof.Machine
end

section
/-! ENCODE and DECODE (spec/47_pipeline.md R303, R304, R307 to R313): the states between their commands, how ENCODE ends
as a function of text and key alone, and the way back by DECODE. -/

namespace Sys2Proof.Machine

-- The stream of a text -------------------------------------------------------------------------------------------

/-- The digits PACK stores of a text under the table of the same text, or its fault (R250). -/
def textStream (t : List Symbol) : Except HxcFault (List Bool) := packStream (textCode t) 0 0 t

/-- Where every symbol has an entry, only space can be missing (R253, R254). -/
theorem packStream_of_entries {code : Symbol → Code} {i n : Nat} {ts : List Symbol}
    (entries : ∀ c ∈ ts, code c ≠ []) :
    (∃ ds, packStream code i n ts = .ok ds) ∨ ∃ j, packStream code i n ts = .error (.payloadOverflow j) := by
  induction ts generalizing i n with
  | nil => exact .inl ⟨[], rfl⟩
  | cons c ts ih =>
    obtain ⟨head, tail⟩ := List.forall_mem_cons.1 entries
    rw [packStream, if_neg (by simpa using head)]
    split
    · exact .inr ⟨i, rfl⟩
    · rcases ih (i := i + 1) (n := n + (code c).length) tail with ⟨ds, h⟩ | ⟨j, h⟩
      · exact .inl ⟨code c ++ ds, by rw [h]⟩
      · exact .inr ⟨j, by rw [h]⟩

theorem textStream_cases {t : List Symbol} (fits : textFits t = true) :
    (∃ ds, textStream t = .ok ds) ∨ ∃ j, textStream t = .error (.payloadOverflow j) :=
  packStream_of_entries fun c => (textCode_ne_nil_iff fits c).2

theorem textStream_ok {t : List Symbol} {ds : List Bool} (h : textStream t = .ok ds) :
    (t.map (textCode t)).flatten = ds ∧ ds.length ≤ 8 * Config.payMax := by
  rcases packStream_cases (textCode t) 0 0 t with ⟨ok, -, fits⟩ | ⟨j, missing⟩ | ⟨j, overflow⟩
  · cases ok.symm.trans h
    refine ⟨rfl, ?_⟩
    by_cases empty : t = []
    · subst empty
      exact Nat.zero_le _
    · simpa using fits empty
  · cases missing.symm.trans h
  · cases overflow.symm.trans h

/-- A text of one symbol is as many digits 0 (R313). -/
theorem textStream_replicate {n : Nat} (hn : n ≠ 0) (c : Symbol) (fits : textFits (List.replicate n c) = true) :
    textStream (List.replicate n c) = .ok (List.replicate n false) := by
  have digits : ((List.replicate n c).map (textCode (List.replicate n c))).flatten = List.replicate n false := by
    rw [List.map_replicate, textCode_replicate hn c fits, if_pos rfl, List.flatten_replicate_singleton]
  have room : n ≤ 65535 := by simpa [textFits, Config.textMax] using fits
  rw [textStream, packStream_ok (fun d => (textCode_ne_nil_iff fits d).2), digits]
  rw [digits, List.length_replicate]
  simp only [Config.payMax]
  omega

-- What one command passes on to the next -------------------------------------------------------------------------

theorem SameText.textSymbols {s t : State} (h : SameText s t) : t.textSymbols = s.textSymbols := by
  obtain ⟨len, elements⟩ := h
  rw [State.textSymbols, State.textSymbols, len, funext elements]

theorem SameKey.holdsKey {s t : State} (h : SameKey s t) {k : List Byte} (key : s.HoldsKey k) : t.HoldsKey k := by
  obtain ⟨len, elements⟩ := h
  rw [State.HoldsKey, len, funext elements]
  exact key

/-- A ready state that holds a text and a key. -/
structure State.Loaded (s : State) (t : List Symbol) (k : List Byte) : Prop where
  ready : s.Ready
  text : s.textSymbols = t
  key : s.HoldsKey k

theorem State.treeEntries_polled (s : State) : s.polled.treeEntries = s.treeEntries := rfl

theorem State.codeOf_polled (s : State) : s.polled.codeOf = s.codeOf := rfl

/-- A command that ends without a fault and leaves TEXT and KEY leaves them loaded. -/
theorem State.Loaded.of_run {u v : State} {t : List Symbol} {k : List Byte} (h : u.Loaded t k) {i : Instr}
    (run : exec i (u.latched i) = .next v) (ok : v.err = false) (text : SameText (u.latched i) v)
    (key : SameKey (u.latched i) v) : v.polled.Loaded t k := by
  have text' : SameText u v.polled := text
  have key' : SameKey u v.polled := key
  exact ⟨ready_polled h.ready run ok, text'.textSymbols.trans h.text, key'.holdsKey h.key⟩

/-- A ready state that holds a key, a payload with its padding, and a code for each symbol. -/
structure State.Carries (s : State) (k b : List Byte) (pad : Word) (code : Symbol → Code) : Prop where
  ready : s.Ready
  key : s.HoldsKey k
  bytes : s.payBytes = b
  pad : s.pad = pad
  code : s.codeOf = code

section

variable {u : State} {t : List Symbol} {k : List Byte} (h : u.Loaded t k)

include h

theorem play_run_cnt : ∃ v : State, v.Loaded t k ∧ (∀ c, v.freqAt c = (counting t).freqAt c) ∧
    ∀ rest, play u (.run .cnt :: rest) = play v rest := by
  have run := exec_cnt (u.latched .cnt)
  have ok := h.ready.noFault
  refine ⟨_, h.of_run run ok ⟨rfl, fun _ => rfl⟩ ⟨rfl, fun _ => rfl⟩, fun c => ?_, play_run_of_ok h.ready run ok⟩
  have text : (u.latched .cnt).textSymbols = t := h.text
  change (countSymbols (u.latched .cnt).textSymbols).read noFree c.toNat = _
  rw [text]
  rfl

theorem play_run_build (counts : ∀ c, u.freqAt c = (counting t).freqAt c) :
    ∃ v : State, v.Loaded t k ∧ v.treeEntries = some (counting t).builtEntries ∧
      ∀ rest, play u (.run .build :: rest) = play v rest := by
  have run := exec_build (u.latched .build)
  obtain ⟨text, -, key, -, -, -, ⟨err, -, -⟩, -⟩ := afterBuild_frame (u.latched .build)
  have ok := err.trans h.ready.noFault
  have entries : (u.latched .build).builtEntries = (counting t).builtEntries := builtEntries_congr counts
  refine ⟨_, h.of_run run ok text key, ?_, play_run_of_ok h.ready run ok⟩
  rw [State.treeEntries_polled, treeEntries_afterBuild, entries]

theorem play_run_gen (tree : u.treeEntries = some (counting t).builtEntries) :
    ∃ v : State, v.Loaded t k ∧ v.codeOf = textCode t ∧ ∀ rest, play u (.run .gen :: rest) = play v rest := by
  have run := exec_gen_of_entries (s := u.latched .gen) tree
  obtain ⟨text, -, key, -, -, -, ⟨err, -, -⟩, -⟩ := afterGen_frame (u.latched .gen) (counting t).builtEntries
  have ok := err.trans h.ready.noFault
  refine ⟨_, h.of_run run ok text key, ?_, play_run_of_ok h.ready run ok⟩
  rw [State.codeOf_polled, codeOf_afterGen_builtEntries, textCode]

/-- CNT, BUILD and GEN leave the table of the text. -/
theorem play_tableCommands : ∃ v : State, v.Loaded t k ∧ v.codeOf = textCode t ∧
    ∀ rest, play u (.run .cnt :: .run .build :: .run .gen :: rest) = play v rest := by
  obtain ⟨v, loaded, counts, next⟩ := play_run_cnt h
  obtain ⟨w, loaded, tree, next'⟩ := play_run_build loaded counts
  obtain ⟨x, loaded, code, next''⟩ := play_run_gen loaded tree
  exact ⟨x, loaded, code, fun rest => by rw [next, next', next'']⟩

variable (code : u.codeOf = textCode t)

include code

theorem packStream_latched : packStream (u.latched .pack).codeOf 0 0 (u.latched .pack).textSymbols = textStream t := by
  have codes : (u.latched .pack).codeOf = textCode t := code
  have text : (u.latched .pack).textSymbols = t := h.text
  rw [codes, text, textStream]

theorem play_run_pack_of_error {f : HxcFault} (stream : textStream t = .error f) (rest : List HostLine) :
    (play u (.run .pack :: rest)).report = .fault (f.code.setWidth 32) f.infoWord :=
  play_run_of_err h.ready (exec_pack_of_error ((packStream_latched h code).trans stream)) rfl rest

theorem play_run_pack_of_ok {ds : List Bool} (stream : textStream t = .ok ds) :
    ∃ v : State, v.Carries k (packBytes ds) (BitVec.ofNat 32 (padCount ds.length)) (textCode t) ∧
      ∀ rest, play u (.run .pack :: rest) = play v rest := by
  have walk := (packStream_latched h code).trans stream
  have run : exec .pack (u.latched .pack) =
      .next (((u.latched .pack).storePayload ds).finish (u.latched .pack).textEmpty) := by
    simp only [exec, execPack, walk]
  have ok := h.ready.noFault
  exact ⟨_, ⟨ready_polled h.ready run ok, h.key, payBytes_storePayload (u.latched .pack) (textStream_ok stream).2, rfl,
    code⟩, play_run_of_ok h.ready run ok⟩

end

section

variable {u : State} {k b : List Byte} {pad : Word} {code : Symbol → Code} (h : u.Carries k b pad code)

include h

/-- XOR enciphers the payload and says whether there is one (R290). -/
theorem play_run_xor (ne : k ≠ []) : ∃ v : State, v.Carries k (cipher k b) pad code ∧ v.empty = decide (b = []) ∧
    ∀ rest, play u (.run .xor :: rest) = play v rest := by
  have key : (u.latched .xor).HoldsKey k := h.key
  have bytes : (u.latched .xor).payBytes = b := h.bytes
  have run := exec_xor_of_key (mt key.klen_eq_zero_iff.1 ne)
  have ok := h.ready.noFault
  refine ⟨_, ⟨ready_polled h.ready run ok, h.key, ?_, h.pad, h.code⟩, ?_, play_run_of_ok h.ready run ok⟩
  · exact (payBytes_enciphered key ne).trans (congrArg _ bytes)
  · have none_iff : (u.latched .xor).plen = 0#16 ↔ b = [] := by
      rw [← bytes, ← List.length_eq_zero_iff, length_payBytes, ← BitVec.toNat_inj]
      rfl
    exact decide_eq_decide.2 none_iff

theorem play_run_xor_of_noKey (noKey : k = []) (rest : List HostLine) :
    (play u (.run .xor :: rest)).report = .fault 1#32 0#32 := by
  have key : (u.latched .xor).HoldsKey k := h.key
  exact play_run_of_err h.ready (exec_xor_of_noKey (key.klen_eq_zero_iff.2 noKey)) rfl rest

/-- UNPACK gives back a text packed under its own table (R281, R236). -/
theorem play_run_unpack {t : List Symbol} (fits : textFits t = true) {ds : List Bool} (stream : textStream t = .ok ds)
    (bytes : b = packBytes ds) (padding : pad = BitVec.ofNat 32 (padCount ds.length)) (codes : code = textCode t) :
    ∃ v : State, v.Ready ∧ v.textSymbols = t ∧ ∀ rest, play u (.run .unpack :: rest) = play v rest := by
  obtain ⟨flat, room⟩ := textStream_ok stream
  have table : (u.latched .unpack).codeOf = textCode t := h.code.trans codes
  have pad_eq : (u.latched .unpack).pad = BitVec.ofNat 32 (padCount ds.length) := h.pad.trans padding
  have small : (u.latched .unpack).pad.toNat ≤ 7 := by
    have := padCount_lt ds.length
    rw [pad_eq, toNat_ofNat_word (by omega)]
    omega
  have kept : (u.latched .unpack).keptStream = (u.latched .unpack).streamOf t := by
    rw [keptStream_of_packBytes (s := u.latched .unpack) room (h.bytes.trans bytes) pad_eq, State.streamOf, table, flat]
  have emits : ∀ c ∈ t, (u.latched .unpack).Emits c := fun c hc => by
    have entry := (textCode_ne_nil_iff fits c).2 hc
    refine State.emits_of_alone (by rwa [table]) fun d ne hd => ?_
    rw [table] at hd ⊢
    exact textCode_prefixFree t ne hd entry
  obtain ⟨v, run, -, -, text, -, -, -, -, -, -, -, ⟨err, -, -⟩, -⟩ :=
    unpackEmitsGreedyText _ t small kept emits (of_decide_eq_true fits)
  have ok := err.trans h.ready.noFault
  exact ⟨v.polled, ready_polled h.ready run ok, text, play_run_of_ok h.ready run ok⟩

end

-- ENCODE ---------------------------------------------------------------------------------------------------------

/-- CLR leaves a ready state, and loading works from any. -/
theorem play_clr_loadLines {x : Operands} (fits : x.Fits) {ls : List Location} (hl : ∀ l ∈ ls, Loadable l)
    {s : State} (h : s.Ready) (rest : List HostLine) :
    ∃ u : State, u.Ready ∧ (∀ l ∈ ls, u.readLocation l = x.word l) ∧
      play s (.run .clr :: (loadLines x ls ++ rest)) = play u rest := by
  have run : exec .clr (s.latched .clr) = .next ((s.latched .clr).cleared.finish false) := rfl
  obtain ⟨u, ready, next, reads⟩ := play_loadLines fits hl (ready_polled h run h.noFault) rest
  exact ⟨u, ready, fun l hl => reads l (.inl hl), (play_run_of_ok h run h.noFault _).trans next⟩

section

variable {s : State} {t : List Symbol} {k : List Byte} (h : s.Ready) (fitsT : textFits t = true)
  (fitsK : keyFits k = true)

include h fitsT fitsK

theorem runEncode_loads : ∃ u : State, u.Loaded t k ∧
    runEncode t k s = play u [.run .cnt, .run .build, .run .gen, .run .pack, .run .xor] := by
  have played : runEncode t k s = play s (encodeLines t k) := by
    simp only [runEncode, encodeInputError, fitsT, fitsK, Bool.not_true, Bool.false_eq_true, if_false]
  have fits : Operands.Fits { text := t, key := k } :=
    ⟨of_decide_eq_true fitsT, of_decide_eq_true fitsK, Nat.zero_le _, fun _ => Nat.zero_le _⟩
  have locations := List.forall_mem_append.2 ⟨loadable_textLocations fits.text, loadable_keyLocations k.length⟩
  obtain ⟨u, ready, reads, next⟩ := play_clr_loadLines fits locations h
    [.run .cnt, .run .build, .run .gen, .run .pack, .run .xor]
  obtain ⟨readsT, readsK⟩ := List.forall_mem_append.1 reads
  refine ⟨u, ⟨ready, textSymbols_of_loaded fits readsT, holdsKey_of_loaded fits readsK⟩, ?_⟩
  rw [played, ← next, encodeLines, loadLines_append, ← ldText_eq fits, ← ldKey_eq fits]
  simp only [List.append_assoc, List.cons_append, List.nil_append]

theorem runEncode_tables : ∃ u : State, u.Loaded t k ∧ u.codeOf = textCode t ∧
    runEncode t k s = play u [.run .pack, .run .xor] := by
  obtain ⟨u, loaded, run⟩ := runEncode_loads h fitsT fitsK
  obtain ⟨v, loaded, code, next⟩ := play_tableCommands loaded
  exact ⟨v, loaded, code, run.trans (next _)⟩

/-- ENCODE ends with PACK's fault, if there is one. -/
theorem runEncode_of_error {f : HxcFault} (stream : textStream t = .error f) :
    (runEncode t k s).report = .fault (f.code.setWidth 32) f.infoWord := by
  obtain ⟨u, loaded, code, run⟩ := runEncode_tables h fitsT fitsK
  rw [run, play_run_pack_of_error loaded code stream]

variable {ds : List Bool} (stream : textStream t = .ok ds)

include stream

theorem runEncode_packs :
    ∃ u : State, u.Carries k (packBytes ds) (BitVec.ofNat 32 (padCount ds.length)) (textCode t) ∧
      runEncode t k s = play u [.run .xor] := by
  obtain ⟨u, loaded, code, run⟩ := runEncode_tables h fitsT fitsK
  obtain ⟨v, carries, next⟩ := play_run_pack_of_ok loaded code stream
  exact ⟨v, carries, run.trans (next _)⟩

/-- Where PACK succeeds, the empty key is XOR's fault (R291). -/
theorem runEncode_of_noKey (noKey : k = []) : (runEncode t k s).report = .fault 1#32 0#32 := by
  obtain ⟨u, carries, run⟩ := runEncode_packs h fitsT fitsK stream
  rw [run, play_run_xor_of_noKey carries noKey]

/-- With a key ENCODE finishes: the enciphered stream, the table of the text and the padding (R303). -/
theorem runEncode_of_ok (ne : k ≠ []) :
    (runEncode t k s).report = .finished ∧ (runEncode t k s).state.empty = decide (packBytes ds = []) ∧
      (runEncode t k s).state.encoded =
        { cipher := cipher k (packBytes ds), table := codeMapping (textCode t)
          padding := BitVec.ofNat 32 (padCount ds.length) } := by
  obtain ⟨u, carries, run⟩ := runEncode_packs h fitsT fitsK stream
  obtain ⟨v, ⟨⟨hr, idle, -⟩, -, bytes, pad, code⟩, empty, next⟩ := play_run_xor carries ne
  rw [run, next, play]
  exact ⟨rfl, empty, by rw [encoded_eq hr idle, bytes, pad, code]⟩

end

-- DECODE ---------------------------------------------------------------------------------------------------------

theorem padWord_toNat (w : Word) : padWord (w.toNat : Int) = w := by
  have range : (0 : Int) ≤ w.toNat ∧ (w.toNat : Int) < 2 ^ 32 := ⟨by omega, by have := w.isLt; omega⟩
  rw [padWord, if_pos range, BitVec.ofInt_natCast, BitVec.ofNat_toNat, BitVec.setWidth_eq]

theorem runDecode_loads {s : State} {b k : List Byte} {table : List (Symbol × Code)} (h : s.Ready)
    (fitsB : payloadFits b = true) (fitsK : keyFits k = true) (fitsC : tableFits table = true) (pad : Word) :
    ∃ u : State, u.Carries k b pad (codeIn table) ∧
      runDecode b k table (pad.toNat : Int) s = play u [.run .xor, .run .unpack] := by
  have played : runDecode b k table (pad.toNat : Int) s = play s (decodeLines b k table (pad.toNat : Int)) := by
    simp only [runDecode, decodeInputError, fitsB, fitsK, fitsC, Bool.not_true, Bool.false_eq_true, if_false]
  have fits : Operands.Fits { key := k, pay := b, pad := pad, table := table } :=
    ⟨Nat.zero_le _, of_decide_eq_true fitsK, of_decide_eq_true fitsB, length_codeIn_le fitsC⟩
  have locations := List.forall_mem_append.2 ⟨loadable_payLocations fits.pay,
    List.forall_mem_append.2 ⟨loadable_keyLocations k.length, loadable_codeLocations table⟩⟩
  obtain ⟨u, ready, reads, next⟩ := play_clr_loadLines fits locations h [.run .xor, .run .unpack]
  obtain ⟨readsB, reads⟩ := List.forall_mem_append.1 reads
  obtain ⟨readsK, readsC⟩ := List.forall_mem_append.1 reads
  obtain ⟨bytes, padding⟩ := payBytes_of_loaded fits readsB
  refine ⟨u, ⟨ready, holdsKey_of_loaded fits readsK, bytes, padding, codeOf_of_loaded fits readsC⟩, ?_⟩
  rw [played, ← next, decodeLines, padWord_toNat, loadLines_append, loadLines_append, ← ldPay_eq fits, ← ldKey_eq fits,
    ← ldCode_eq fitsC]
  simp only [List.append_assoc, List.cons_append, List.nil_append]

/-- The ciphertext of a stream that fits is a payload HXC can hold. -/
theorem payloadFits_cipher (k : List Byte) {ds : List Bool} (room : ds.length ≤ 8 * Config.payMax) :
    payloadFits (cipher k (packBytes ds)) = true := by
  have := padCount_mod ds.length
  have := padCount_lt ds.length
  rw [payloadFits, decide_eq_true_eq, length_cipher, length_packBytes]
  omega

/-- DECODE of an enciphered stream with the table of its text gives the text (R310). -/
theorem runDecode_of_stream {s : State} {t : List Symbol} {k : List Byte} {ds : List Bool} (h : s.Ready)
    (fitsT : textFits t = true) (fitsK : keyFits k = true) (ne : k ≠ []) (stream : textStream t = .ok ds) :
    (runDecode (cipher k (packBytes ds)) k (codeMapping (textCode t))
      ((BitVec.ofNat 32 (padCount ds.length)).toNat : Int) s).report = .finished ∧
    (runDecode (cipher k (packBytes ds)) k (codeMapping (textCode t))
      ((BitVec.ofNat 32 (padCount ds.length)).toNat : Int) s).state.decoded = t := by
  have fitsB := payloadFits_cipher k (textStream_ok stream).2
  obtain ⟨u, carries, run⟩ := runDecode_loads h fitsB fitsK (tableFits_codeMapping (length_textCode_le t)) _
  obtain ⟨v, carries, -, next⟩ := play_run_xor carries ne
  obtain ⟨w, ⟨hr, idle, -⟩, text, next'⟩ := play_run_unpack carries fitsT stream (cipher_cipher ..) rfl
    (codeIn_codeMapping _)
  rw [run, next, next', play]
  exact ⟨rfl, by rw [decoded_eq hr idle, text]⟩

-- The statements -------------------------------------------------------------------------------------------------

/-- An ENCODE that finished had operands that fit, and PACK stored the stream. -/
theorem of_runEncode_finished {s : State} {t : List Symbol} {k : List Byte} (h : s.Ready)
    (finished : (runEncode t k s).report = .finished) :
    textFits t = true ∧ keyFits k = true ∧ ∃ ds, textStream t = .ok ds := by
  rcases runEncode_cases t k s with ⟨-, refused⟩ | ⟨-, -, refused⟩ | ⟨fitsT, fitsK, -⟩
  · rw [refused] at finished
    cases finished
  · rw [refused] at finished
    cases finished
  · refine ⟨fitsT, fitsK, (textStream_cases fitsT).resolve_right ?_⟩
    rintro ⟨j, overflow⟩
    cases finished.symm.trans (runEncode_of_error h fitsT fitsK overflow)

/-- Settles O60: the finished ENCODE gave the enciphered stream of the text, from which DECODE gives the text. -/
theorem decodeInvertsEncodeProgram : Obligations.DecodeInvertsEncodeProgram := by
  intro s u t k hs hu ne finished
  obtain ⟨fitsT, fitsK, ds, stream⟩ := of_runEncode_finished hs finished
  obtain ⟨-, -, result⟩ := runEncode_of_ok hs fitsT fitsK stream ne
  simp only [result]
  exact runDecode_of_stream hu fitsT fitsK ne stream

/-- Settles O58: every symbol of a text has a code, so PACK finds its stream or no space for it. -/
theorem encodeEndsOnlyInNamedFaults : Obligations.EncodeEndsOnlyInNamedFaults := by
  intro s t k h fitsT fitsK
  rcases textStream_cases fitsT with ⟨ds, stream⟩ | ⟨j, overflow⟩
  · by_cases noKey : k = []
    · exact .inr (.inl ⟨noKey, runEncode_of_noKey h fitsT fitsK stream noKey⟩)
    · exact .inl (runEncode_of_ok h fitsT fitsK stream noKey).1
  · exact .inr (.inr ⟨_, runEncode_of_error h fitsT fitsK overflow⟩)

/-- The driver's checks, PACK's stream and the key decide how ENCODE ends. -/
theorem runEncode_report_congr {s₁ s₂ : State} (h₁ : s₁.Ready) (h₂ : s₂.Ready) (t : List Symbol) (k : List Byte) :
    (runEncode t k s₁).report = (runEncode t k s₂).report := by
  rcases runEncode_cases t k s₁ with ⟨fitsT, e⟩ | ⟨fitsT, fitsK, e⟩ | ⟨fitsT, fitsK, -⟩
  · rw [e, runEncode, encodeInputError, fitsT]
    rfl
  · rw [e, runEncode, encodeInputError, fitsT, fitsK]
    rfl
  · cases stream : textStream t with
    | error f => rw [runEncode_of_error h₁ fitsT fitsK stream, runEncode_of_error h₂ fitsT fitsK stream]
    | ok ds =>
      by_cases noKey : k = []
      · rw [runEncode_of_noKey h₁ fitsT fitsK stream noKey, runEncode_of_noKey h₂ fitsT fitsK stream noKey]
      · rw [(runEncode_of_ok h₁ fitsT fitsK stream noKey).1, (runEncode_of_ok h₂ fitsT fitsK stream noKey).1]

/-- Settles O59: each way ENCODE can end is given by the text and the key. -/
theorem encodeIndependentOfStart : Obligations.EncodeIndependentOfStart := by
  intro s₁ s₂ t k h₁ h₂
  refine ⟨runEncode_report_congr h₁ h₂ t k, fun finished => ?_⟩
  obtain ⟨fitsT, fitsK, ds, stream⟩ := of_runEncode_finished h₁ finished
  have ne : k ≠ [] := fun noKey => by
    cases finished.symm.trans (runEncode_of_noKey h₁ fitsT fitsK stream noKey)
  obtain ⟨-, -, result₁⟩ := runEncode_of_ok h₁ fitsT fitsK stream ne
  obtain ⟨-, -, result₂⟩ := runEncode_of_ok h₂ fitsT fitsK stream ne
  rw [result₁, result₂]

/-- Settles O56: the empty text has the empty stream and no symbol with a code. -/
theorem encodeEmptyText : Obligations.EncodeEmptyText := by
  intro s h
  have fitsT : textFits [] = true := rfl
  have stream : textStream [] = .ok [] := rfl
  have mapping : codeMapping (textCode []) = [] := by
    refine List.filterMap_eq_nil_iff.2 fun c _ => if_pos (not_not.1 fun entry => ?_)
    exact absurd ((textCode_ne_nil_iff fitsT c).1 entry) List.not_mem_nil
  refine ⟨fun k ne fits => ?_, runEncode_of_noKey h fitsT rfl stream rfl⟩
  have fitsK : keyFits k = true := decide_eq_true fits
  obtain ⟨finished, empty, result⟩ := runEncode_of_ok h fitsT fitsK stream ne
  have decode := runDecode_of_stream h fitsT fitsK ne stream
  rw [mapping] at result decode
  exact ⟨finished, empty, result, decode⟩

/-- Settles O57: the table has the one code "0", so the stream is four digits 0 and its byte is enciphered with K[0]. -/
theorem encodeSingleSymbol : Obligations.EncodeSingleSymbol := by
  intro s b k h short
  have fitsT : textFits (List.replicate 4 0x61#8) = true := rfl
  have fitsK : keyFits (b :: k) = true := decide_eq_true short
  have code := textCode_replicate (n := 4) (by decide) 0x61#8 fitsT
  have stream := textStream_replicate (n := 4) (by decide) 0x61#8 fitsT
  have mapping : codeMapping (textCode (List.replicate 4 0x61#8)) = [(0x61#8, [false])] := by
    rw [funext code]
    decide
  have enciphered : cipher (b :: k) (packBytes (List.replicate 4 false)) = [b] := by
    have zero : packBytes (List.replicate 4 false) = [0#8] := rfl
    rw [zero]
    simp [cipher]
  obtain ⟨finished, -, result⟩ := runEncode_of_ok h fitsT fitsK stream (List.cons_ne_nil b k)
  have decode := runDecode_of_stream h fitsT fitsK (List.cons_ne_nil b k) stream
  rw [mapping, enciphered] at result decode
  exact ⟨finished, result, decode⟩

end Sys2Proof.Machine
end

section
/-! Exceptions and reset (spec/60_exceptions.md R340 to R350, spec/70_reset_and_hazards.md R380 to R382): the
agreement of the status registers that every step keeps, the interrupt output, and the two resets. -/

namespace Sys2Proof.Machine

-- The status registers -----------------------------------------------------------------------------------

/-- Without a fault nothing is left to agree but DONE = 0 while BUSY (R346). -/
theorem statusOk_of_noFault {s : State} (noFault : s.err = false) (clean : s.cause = 0#4 ∧ s.info = 0#32)
    (busy : s.phase = .busy → s.done = false) : s.StatusOk :=
  ⟨by simp [noFault], fun hp => ⟨busy hp, noFault⟩, fun _ => clean, by simp [noFault]⟩

/-- A fault taken with DONE = 0 leaves the status registers agreeing (R340). -/
theorem EndedInFault.statusOk {s t : State} {f : HxcFault} (h : EndedInFault s t f) (hd : s.done = false) :
    t.StatusOk := by
  obtain ⟨err, cause, -, done, -, idle⟩ := h
  exact ⟨by simp [done, hd], by simp [idle], by simp [err], fun _ => cause ▸ f.code_mem⟩

section

variable {s : State} (h : s.StatusOk)

include h

theorem State.StatusOk.done_of_busy (hp : s.phase = .busy) : s.done = false := by
  obtain ⟨-, busy, -⟩ := h
  exact (busy hp).1

theorem State.StatusOk.err_of_busy (hp : s.phase = .busy) : s.err = false := by
  obtain ⟨-, busy, -⟩ := h
  exact (busy hp).2

theorem State.StatusOk.clean (he : s.err = false) : s.cause = 0#4 ∧ s.info = 0#32 := by
  obtain ⟨-, -, noFault, -⟩ := h
  exact noFault he

theorem State.StatusOk.clearDone : State.StatusOk { s with done := false } := by
  obtain ⟨-, busy, noFault, code⟩ := h
  exact ⟨by simp, fun hp => ⟨rfl, (busy hp).2⟩, noFault, code⟩

theorem State.StatusOk.acknowledge : s.acknowledge.StatusOk :=
  statusOk_of_noFault rfl ⟨rfl, rfl⟩ h.done_of_busy

/-- A write to STATUS only clears, and clears ERR together with CAUSE and INFO (R32, R344). -/
theorem State.StatusOk.writeStatus (v : Word) : (s.writeStatus v).StatusOk := by
  have cleared : State.StatusOk (if v.getLsbD 1 then { s with done := false } else s) := by
    split
    · exact h.clearDone
    · exact h
  by_cases ack : v.getLsbD 2 = true
  · rw [State.writeStatus, if_pos ack]
    exact cleared.acknowledge
  · rw [State.writeStatus, if_neg ack]
    exact cleared

/-- A command runs from DONE = ERR = 0 and writes one of them at most (R163, R164). -/
theorem State.StatusOk.exec {i : Instr} {t : State} (hp : s.phase = .busy) (hs : exec i s = .next t) :
    t.StatusOk := by
  obtain ⟨⟨-, ⟨err, cause, info⟩, -⟩ | ⟨f, fault⟩, idle, -⟩ := exec_ends hs
  · have noFault := h.err_of_busy hp
    exact statusOk_of_noFault (err.trans noFault) (by rw [cause, info]; exact h.clean noFault) (by simp [idle])
  · exact fault.statusOk (h.done_of_busy hp)

/-- Only CMD, STATUS and CTRL writes reach PHASE and the status registers, and a CMD write is admitted only with
ERR = 0 (R160). -/
theorem State.StatusOk.writeLocation {v : Word} {l : Location} (hp : s.phaseAllowsWrite l = true) :
    (s.writeLocation v l).StatusOk := by
  cases l with
  | reg r =>
    cases r with
    | cmd =>
      have noFault : s.err = false := by
        cases phase : s.phase with
        | idle => simpa [State.phaseAllowsWrite, phase] using hp
        | busy => exact h.err_of_busy phase
      exact statusOk_of_noFault noFault (h.clean noFault) fun _ => rfl
    | status => exact h.writeStatus v
    | ctrl =>
      rw [State.writeLocation, State.writeCtrl]
      split
      · exact statusOk_of_noFault rfl ⟨rfl, rfl⟩ fun _ => rfl
      · exact h
    | _ => exact h
  | _ => exact h

end

theorem stepInvariant_statusOk : StepInvariant State.StatusOk where
  outside _ _ _ _ _ h := h
  exec _ _ _ hp h hs := h.exec hp hs
  raise s f hp h := (endedInFault_raise s f).statusOk (h.done_of_busy hp)
  reset _ := statusOk_of_noFault rfl ⟨rfl, rfl⟩ fun _ => rfl
  write _ _ _ _ hp _ _ h := h.writeLocation hp

/-- Settles O12: a command ends with DONE or with a fault, never both, and no write sets DONE or ERR. -/
theorem stepKeepsStatusOk : Obligations.StepKeepsStatusOk :=
  fun _ _ h hs => stepInvariant_statusOk.step h hs

-- The interrupt output -----------------------------------------------------------------------------------

/-- Settles O55: the two products of R350 as propositions. -/
theorem irqFollowsStatus : Obligations.IrqFollowsStatus := by
  intro s
  rw [State.irq, Bool.or_eq_true, Bool.and_eq_true, Bool.and_eq_true]

-- CTRL and the soft reset --------------------------------------------------------------------------------

/-- CTRL is writable in either PHASE (R91). -/
theorem State.phaseAllowsWrite_ctrl (s : State) : s.phaseAllowsWrite (.reg .ctrl) = true := by
  unfold State.phaseAllowsWrite; split <;> rfl

theorem State.wr_ctrl {s : State} (hr : s.rstN = true) (v : Word) :
    s.wr (.reg .ctrl) v = { s.writeCtrl v with resp := some .written } :=
  State.wr_of_admits hr rfl ⟨s.phaseAllowsWrite_ctrl, rfl, rfl⟩

theorem State.see_ctrl {s : State} (hr : s.rstN = true) : s.see (.reg .ctrl) = s.ctrlWord :=
  State.see_control hr (by simp)

/-- The bits of CTRL (R37). -/
theorem State.getLsbD_ctrlWord (s : State) (i : Nat) :
    s.ctrlWord.getLsbD i =
      match i with
      | 0 => s.ieDone
      | 1 => s.ieErr
      | _ => false := by
  unfold State.ctrlWord
  change BitVec.getLsbD (w := 30 + (1 + 1)) _ i = _
  simp only [BitVec.getLsbD_append, BitVec.getLsbD_ofBool]
  match i with
  | 0 | 1 => simp
  | i + 2 => simp

/-- In the reset state no source is pending (R350). -/
theorem State.InReset.irq {s : State} (h : s.InReset) : s.irq = false := by
  obtain ⟨-, -, done, err, -⟩ := h
  simp [State.irq, done, err]

theorem State.InReset.ctrlWord {s : State} (h : s.InReset) : s.ctrlWord = 0#32 := by
  obtain ⟨-, -, -, -, -, ieDone, ieErr, -⟩ := h
  rw [State.ctrlWord, ieDone, ieErr]
  rfl

/-- After a reset the engine is IDLE: a command latched before it is abandoned (R382). -/
theorem State.InReset.engineStep {s : State} (h : s.InReset) : engineStep s = .next s := by
  obtain ⟨idle, -⟩ := h
  exact engineStep_idle idle

/-- Settles O53: the CTRL write is performed in either PHASE, and data bit 31 chooses what it does. -/
theorem softResetRestoresReset : Obligations.SoftResetRestoresReset := by
  intro s v hr
  rw [State.see_ctrl hr, State.wr_ctrl hr]
  refine ⟨fun srst => ?reset, fun srst => ?store, s.getLsbD_ctrlWord 0, s.getLsbD_ctrlWord 1, fun i hi => ?zeros⟩
  case reset =>
    rw [State.writeCtrl, if_pos srst]
    have reset : State.InReset { s.resetNow with resp := some .written } := inReset_resetNow s s.rstN _
    exact ⟨rfl, reset, (State.see_ctrl (s := { s.resetNow with resp := _ }) hr).trans reset.ctrlWord,
      reset.irq, reset.engineStep⟩
  case store => rw [State.writeCtrl, if_neg (Bool.eq_false_iff.1 srst)]
  case zeros =>
    rw [State.getLsbD_ctrlWord]
    match i, hi with
    | i + 2, _ => rfl

-- The hard reset -----------------------------------------------------------------------------------------

theorem hostAccess_of_low {s : State} (h : s.rstN = false) (a : Access) :
    s.hostAccess a = { s with resp := none } := by
  simp [State.hostAccess, h]

theorem rstN_driveReset (s : State) (level : Bool) : (s.driveReset level).rstN = level := by
  rcases driveReset_cases s level with ⟨high, hr, e⟩ | ⟨-, e⟩ <;> rw [e]
  rw [hr, high]

/-- Driving the pin low, or high after it was low, gives the reset state (R380). -/
theorem inReset_driveReset {s : State} {level : Bool} (h : level = false ∨ s.rstN = false) :
    (s.driveReset level).InReset := by
  rcases driveReset_cases s level with ⟨high, hr, -⟩ | ⟨-, e⟩
  · simp [high, hr] at h
  · rw [e]; exact inReset_resetNow _ _ _

/-- Settles O54: the pin is driven low, an access finds it low, and it is driven high again. -/
theorem hardResetHoldsReset : Obligations.HardResetHoldsReset := by
  intro s rest ht
  have low := rstN_driveReset { s with turns := rest } false
  have held := inReset_driveReset (s := { s with turns := rest }) (level := false) (.inl rfl)
  have released := inReset_driveReset (level := true) (.inr low)
  exact ⟨_, by rw [step, ht], low, held, held.irq, hostAccess_of_low low, rstN_driveReset _ true, released,
    released.irq⟩

end Sys2Proof.Machine
end
